-- ==== Sys2Proof/Word.lean ====
section
/-! DEFINITION. The word types of the loadstream decoder (spec/00_scope.md R6..R8). -/

namespace Sys2Proof

/-- Every architectural byte value of the block is 8 bits wide (R6). -/
abbrev Byte := BitVec 8

/-- A 4-bit half of a byte: a pixel group or a run count of the R4 codecs (R11). -/
abbrev Nybble := BitVec 4

/-- The 24-bit linear flash address that three address bytes hold (R52). -/
abbrev Addr := BitVec 24

end Sys2Proof
end

