-- ==== Sys2Proof/Syntax.lean ====
section
/-! DEFINITION. The decoder states, the instructions of spec/opcode_table.json as the bytes of the loadstream carry
them, and whole instructions in the spec's own assembler syntax (spec/30_encoding.md R90). -/

namespace Sys2Proof

/-- The 17 values of the register `state` (R22). -/
inductive DecoderState where
  | opcode | addrLow | addrHigh | eraseCount | eraseCheck | lut1Color1 | lut1Color2
  | lut16Vec1 | lut16Vec2 | lut16Color1 | lut16Color2 | tileP1R4 | tileP2R4 | tileP4R4
  | tileP16Mask | tileP16Low | tileP16High
  deriving DecidableEq, Repr

/-- A colour is its two bytes in stream order; the block never combines or interprets them (R55, R160). -/
structure Colour where
  b0 : Byte
  b1 : Byte
  deriving DecidableEq, Repr

/-- The bits per pixel index of the three R4 codecs (R173). -/
inductive Bpp where
  | one | two | four
  deriving DecidableEq, Repr

/-- n of R173. -/
def Bpp.bits : Bpp → Nat
  | .one => 1
  | .two => 2
  | .four => 4

/-- What one consumed byte says. A step consumes exactly one byte (R110), so the ten opcode forms and the sixteen
continuation bytes are constructors of their own (DESIGN CHOICE, safe: log entry 1). `x` is the argument b[4:0]. -/
inductive Instr where
  /-- LUT1 (R150). -/
  | lut1 (x : BitVec 5)
  /-- LUT16 (R153). -/
  | lut16 (x : BitVec 5)
  /-- TILE_P0 (R172). -/
  | tileP0 (x : BitVec 5)
  /-- TILE_P1_R4 (R177). -/
  | tileP1R4 (x : BitVec 5)
  /-- TILE_P2_R4 (R177). -/
  | tileP2R4 (x : BitVec 5)
  /-- TILE_P4_R4 (R177). -/
  | tileP4R4 (x : BitVec 5)
  /-- TILE_P16 (R182). -/
  | tileP16 (x : BitVec 5)
  /-- ADDRESS (R130). -/
  | address
  /-- ERASE (R134). -/
  | erase
  /-- RESERVED (R114): the whole opcode byte. -/
  | reserved (b : Byte)
  /-- LUT1, colour byte 0 (R151). -/
  | lut1Color1 (b : Byte)
  /-- LUT1, colour byte 1 (R152). -/
  | lut1Color2 (b : Byte)
  /-- LUT16, vector bits 7:0 (R154). -/
  | lut16Vec1 (b : Byte)
  /-- LUT16, vector bits 15:8 (R155). -/
  | lut16Vec2 (b : Byte)
  /-- LUT16, colour byte 0 (R156). -/
  | lut16Color1 (b : Byte)
  /-- LUT16, colour byte 1 (R157). -/
  | lut16Color2 (b : Byte)
  /-- TILE_P1_R4, a data byte (R178). -/
  | tileP1R4Data (b : Byte)
  /-- TILE_P2_R4, a data byte (R179). -/
  | tileP2R4Data (b : Byte)
  /-- TILE_P4_R4, a data byte (R180). -/
  | tileP4R4Data (b : Byte)
  /-- TILE_P16, a mask byte (R183). -/
  | tileP16Mask (b : Byte)
  /-- TILE_P16, the first byte of a literal colour (R185). -/
  | tileP16Low (b : Byte)
  /-- TILE_P16, the second byte of a literal colour (R186). -/
  | tileP16High (b : Byte)
  /-- ADDRESS, address byte 1 (R131). -/
  | addrLow (b : Byte)
  /-- ADDRESS, address byte 2 (R132). -/
  | addrHigh (b : Byte)
  /-- ERASE, the count byte (R135). -/
  | eraseCount (b : Byte)
  /-- ERASE, the check byte (R136). -/
  | eraseCheck (b : Byte)
  deriving DecidableEq, Repr

/-- One mask byte of a TILE_P16 with the literal colours its 1 bits ask for (R86, R90). -/
structure MaskGroup where
  mask : Byte
  literals : List Colour
  deriving DecidableEq, Repr

/-- A whole instruction, in the syntax of R90. A tile count t = 1..32 is written here as x = t - 1. -/
inductive Asm where
  | lut1 (i : Nybble) (c : Colour)
  | lut16 (vec : BitVec 16) (colours : List Colour)
  | tileP0 (i : Nybble)
  | tileR4 (n : Bpp) (x : BitVec 5) (data : List Byte)
  | tileP16 (x : BitVec 5) (groups : List MaskGroup)
  | address (lat1 lat2 : Byte)
  | erase (count check : Byte)
  | reserved (b : Byte)
  | bytes (bs : List Byte)
  deriving DecidableEq, Repr

end Sys2Proof
end

