-- ==== Sys2Proof/Config.lean ====
section
/-! DEFINITION. What the source fixes, what a launch fixes (the OPEN parameters of spec/00_scope.md R5), and the
values the spec leaves without a number. -/

namespace Sys2Proof.Config

/-- LUT_ENTRIES (R5): the Color-LUT has 16 entries. -/
def lutEntries : Nat := 16

/-- TILE_PIXELS (R5): a tile is 64 pixels. -/
def tilePixels : Nat := 64

/-- FLASH_BYTES is at most this, since the address register has three bytes (R5, R51). -/
def maxFlashBytes : Nat := 2 ^ 24

/-- One write on the flash bus: an address and a data byte (R204). -/
abbrev BusWrite := Nat × Byte

/-- One row of an R4 run function: at `n` bits per pixel, in run state (`run`, `prev`), the nybble `v` emits the groups
`emit`, in that order, and leaves the run state (`run'`, `prev'`). -/
structure R4Row where
  n : Bpp
  run : Bool
  prev : Option Nybble
  v : Nybble
  emit : List Nybble
  run' : Bool
  prev' : Option Nybble
  deriving DecidableEq, Repr

/-- The OPEN parameters (R5, D4, D6, D11, D17, D18, D21, D33), all fixed while the machine runs. The last four are the
bus level's: no step reads them (R204). -/
structure Params where
  /-- FLASH_BYTES. -/
  flashBytes : Nat
  /-- ERASE_BLOCK_BYTES. -/
  eraseBlockBytes : Nat
  /-- FIFO_SIZE. -/
  fifoSize : Nat
  /-- FLASH_HEAD_RESET. -/
  headReset : Nat
  /-- ACK_BITS. -/
  ackBits : Nat
  /-- RLE4 as plain data: the rows on which the run function of (n, v) differs from the default of rule R176; the empty
  list is R176 itself (DESIGN CHOICE, safe: log entry 10). -/
  rle4 : List R4Row
  /-- FLASH_UNLOCK_PREFIX. -/
  flashUnlockPrefix : List BusWrite
  /-- FLASH_PROGRAM_CMD. -/
  flashProgramCmd : BusWrite
  /-- FLASH_ERASE_CMD, the erase command sequence for a block: entry k is block k's (this shape is PRESUMED, safe: log
  entry 13). -/
  flashEraseCmd : List (List BusWrite)
  /-- POLL_BIT, 0..7. -/
  pollBit : Fin 8
  deriving DecidableEq, Repr

/-- FIFO_CAPACITY = FIFO_SIZE - 1 (R5, C7). -/
def Params.fifoCapacity (p : Params) : Nat := p.fifoSize - 1

/-- The test configuration of spec/95_test_vectors.md, "this file's choice, not a hardware claim". State.reset uses it
(DESIGN CHOICE, unsafe for a claim about State.reset alone: log entry 3). That file gives the bus parameters no value;
they stand here as nothing sent and bit 0, which no step reads (DESIGN CHOICE: log entry 3). -/
def testParams : Params where
  flashBytes := 0x200000
  eraseBlockBytes := 0x10000
  fifoSize := 64
  headReset := 0xFF
  ackBits := 8
  rle4 := []
  flashUnlockPrefix := []
  flashProgramCmd := (0, 0#8)
  flashEraseCmd := []
  pollBit := 0

/-- The registers whose Unset bytes a rule could read without a fault of its own. No run reaches such a read (R30,
R39). -/
inductive UnsetReg where
  | low | lat1 | lat2 | lutVecLo | lutVecHi | eraseCount | p16Mask | p16B0 | p16LastB0 | p16LastB1
  | ringSlot (slot : Nat)
  deriving DecidableEq, Repr

/-- FREE VALUE (log entry 2): "The chip holds some byte there, which no source gives" (R21). -/
opaque unsetByte : UnsetReg → Byte

/-- FREE VALUE (log entry 2): the LUT index an Unset `lut_index` holds (R21, R27). -/
opaque unsetLutIndex : Nat

/-- FREE VALUE (log entry 11): the group a run count repeats when no nybble started the run; R39 rules it out. -/
opaque noRunNybble : Nybble

end Sys2Proof.Config
end

