-- ==== Sys2Proof/Machine/State.lean ====
section
/-! DEFINITION. The state of the decoder, its input port and the flash, as plain data (spec/10_state.md); the reasons
a step can stop; the state right after power-on reset. -/

namespace Sys2Proof.Machine

/-- A register cell: Unset ("nothing has written it since the last reset", R21, the spec's own state) or a value. -/
inductive Cell (α : Type) where
  | unset
  | val (a : α)
  deriving DecidableEq, Repr

/-- One Color-LUT entry: two colour bytes (R24). -/
structure LutEntry where
  b0 : Cell Byte
  b1 : Cell Byte
  deriving DecidableEq, Repr

/-- The model faults of R221. Each stands for a value or an effect the source does not give (FIFO_OVERFLOW: for a
corruption it does not describe). All are safe: the model stops where the chip may go on. -/
inductive Fault where
  /-- Raised by a tile pixel or an ERASE check byte while `addr_valid` is false (R52, R136). Safe. -/
  | addrUnset
  /-- Raised by a program at or beyond FLASH_BYTES, or an erase block that reaches past it (R201, R203). Safe. -/
  | flashRange
  /-- Raised by a tile that reads a LUT entry of which a byte is Unset (R158). Safe. -/
  | lutUnset
  /-- Raised by TILE_P0 with x >= 16 (R172). Safe. -/
  | lutIndexRange
  /-- Raised by a TILE_P16 mask bit 0 before the opcode's first literal colour (R184). Safe. -/
  | p16NoColor
  /-- Raised by a push into a FIFO that holds FIFO_CAPACITY bytes (R118, R120). Safe. -/
  | fifoOverflow
  /-- Raised by a push while the sentinel stands (R118, R121). Safe. -/
  | pushDuringReset
  deriving DecidableEq, Repr

/-- Why a step gives an instruction no meaning. -/
inductive Refusal where
  /-- Raised by an arm of exec for an instruction without a meaning; no arm does so now. Safe. -/
  | notModelled (mnemonic : String)
  deriving DecidableEq, Repr

/-- The two agents of R12. -/
inductive Agent where
  | decoder
  | producer
  deriving DecidableEq, Repr

/-- An action of the producer's script (R118, R119, R262). -/
inductive Action where
  | push (v : Byte)
  | requestReset
  deriving DecidableEq, Repr

/-- Everything the spec gives the machine. -/
structure State where
  /-- The launch's parameters (R5, R262). No step changes them. -/
  params : Config.Params
  /-- `state` (R22). -/
  state : DecoderState
  /-- `opcode` (R23): written by the dispatch, read by no rule. -/
  opcode : Cell Byte
  /-- `lut[0..15]` (R24). -/
  lut : Vector LutEntry 16
  /-- `flash_addr_low` (R25). -/
  low : Cell Byte
  /-- `flash_addr_lat1` (R25). -/
  lat1 : Cell Byte
  /-- `flash_addr_lat2` (R25). -/
  lat2 : Cell Byte
  /-- `addr_valid` (R25). -/
  addrValid : Bool
  /-- `pix` (R26). -/
  pix : Nat
  /-- `lut_index` (R27). -/
  lutIndex : Cell Nat
  /-- `lut_vec[7:0]` (R27, R154). -/
  lutVecLo : Cell Byte
  /-- `lut_vec[15:8]` (R27, R155). -/
  lutVecHi : Cell Byte
  /-- `erase_count` (R27). -/
  eraseCount : Cell Byte
  /-- `rle_prev` (R28): `none` is the spec's own value NONE. -/
  rlePrev : Option Nybble
  /-- `rle_run` (R28). -/
  rleRun : Bool
  /-- `p16_mask` (R29). -/
  p16Mask : Cell Byte
  /-- `p16_bits` (R29). -/
  p16Bits : Nat
  /-- `p16_b0` (R29). -/
  p16B0 : Cell Byte
  /-- `p16_last` (R29). -/
  p16Last : Cell Colour
  /-- `p16_have_last` (R29). -/
  p16HaveLast : Bool
  /-- `ring[]` (R31): the slots that hold a byte, slots rising; a slot not listed is Unset. -/
  ring : List Host.Cell
  /-- `head` (R31): a slot, or FLASH_HEAD_RESET. -/
  head : Nat
  /-- `tail` (R31). -/
  tail : Nat
  /-- `ack` (R32). -/
  ack : Nat
  /-- `flash[]` (R33): addresses rising, no entry equal to what an unlisted address reads as. -/
  flash : List Host.Cell
  /-- `fault` (R34). -/
  fault : Option Fault
  /-- `hung` (R34). -/
  hung : Bool
  /-- What is left of the producer's script (R262). -/
  script : List Action
  /-- The MODEL's own field: whose turn the coming steps are (R227; log entry 8). -/
  schedule : List Agent
  deriving DecidableEq, Repr

/-- How a decoder action ends: it went through, or a fault or a hang ended it there (R221..R223). -/
inductive Flow where
  | go (s : State)
  | stop (s : State)
  deriving DecidableEq, Repr

/-- What a step does next: run the instruction of a byte just taken from the FIFO, or nothing more than is done. -/
inductive Move where
  | run (i : Instr) (s : State)
  | settle (s : State)
  deriving DecidableEq, Repr

/-- The power-on state of a launch (R250, R262): its parameters, the flash it finds, the producer's script. -/
def State.powerOn (params : Config.Params) (flash : List Host.Cell) (script : List Action) : State where
  params := params
  state := .opcode
  opcode := .unset
  lut := Vector.replicate 16 ⟨.unset, .unset⟩
  low := .unset
  lat1 := .unset
  lat2 := .unset
  addrValid := false
  pix := 0
  lutIndex := .unset
  lutVecLo := .unset
  lutVecHi := .unset
  eraseCount := .unset
  rlePrev := none
  rleRun := false
  p16Mask := .unset
  p16Bits := 0
  p16B0 := .unset
  p16Last := .unset
  p16HaveLast := false
  ring := []
  head := 0
  tail := 0
  ack := 0
  flash := flash
  fault := none
  hung := false
  script := script
  schedule := []

/-- Right after reset: power-on with the spec's test parameters, nothing listed in flash and no script (R250; log
entries 3, 4, 8). -/
def State.reset : State := State.powerOn Config.testParams [] []

end Sys2Proof.Machine
end

