-- ==== Sys2Proof/Machine/Ops.lean ====
section
/-! DEFINITION. Named operations over memory and registers: sparse byte memories in canonical form, register cells,
the flash address register, the LUT ports, raising a fault and hanging (the block's whole exception model, R220..R229:
there is no trap entry and no return), and the resets. -/

namespace Sys2Proof.Machine

/-! ### Sequencing: nothing happens after a fault or a hang (R223) -/

def Flow.andThen (f : Flow) (k : State → Flow) : Flow :=
  match f with
  | .go s => k s
  | .stop s => .stop s

/-- The state a flow ends in. -/
def Flow.state : Flow → State
  | .go s => s
  | .stop s => s

/-- A meaning's answer. A fault or a hang is recorded in the state it left (R34, R223), so this is a next state; the
step after it finds the record (log entries 5, 6). -/
def Flow.outcome (f : Flow) : Host.Outcome State Fault Refusal := .next f.state

/-- `repeat n: S` (R10). -/
def repeatFlow (n : Nat) (act : State → Flow) (s : State) : Flow :=
  match n with
  | 0 => .go s
  | n + 1 => (act s).andThen (repeatFlow n act)

/-- `raise Fault(code)` (R221): the one operation that records a fault. -/
def raise (code : Fault) (s : State) : Flow := .stop { s with fault := some code }

/-- `Hang(FLASH_PROGRAM_HANG)` (R222). -/
def hang (s : State) : Flow := .stop { s with hung := true }

/-- The spec's number of a fault code (R221). -/
def Fault.code : Fault → Nat
  | .addrUnset => 1
  | .flashRange => 2
  | .lutUnset => 3
  | .lutIndexRange => 4
  | .p16NoColor => 5
  | .fifoOverflow => 6
  | .pushDuringReset => 7

/-! ### Sparse byte memories -/

/-- The byte listed at an address. -/
def Memory.find (m : List Host.Cell) (a : Nat) : Option Byte :=
  match m with
  | [] => none
  | c :: rest => if c.1 = a then some c.2 else Memory.find rest a

/-- List a byte at an address, in its place. -/
def Memory.put (m : List Host.Cell) (a : Nat) (b : Byte) : List Host.Cell :=
  match m with
  | [] => [(a, b)]
  | c :: rest =>
    if a < c.1 then (a, b) :: c :: rest
    else if c.1 = a then (a, b) :: rest
    else c :: Memory.put rest a b

/-- Take the entries at lo .. hi-1 off the list. -/
def Memory.clear (m : List Host.Cell) (lo hi : Nat) : List Host.Cell :=
  m.filter (fun c => !(decide (lo ≤ c.1) && decide (c.1 < hi)))

/-- The value of an erased flash byte (R54). -/
def erasedByte : Byte := 0xFF#8

/-- What an unlisted flash address reads as: the erased value (DESIGN CHOICE, unsafe for a claim about State.reset
alone: log entry 4). Erasing takes entries off the list, so it is the same byte as R54's. -/
def unlistedFlash : Byte := erasedByte

/-- One byte of flash. -/
def Memory.read (m : List Host.Cell) (a : Nat) : Byte := (Memory.find m a).getD unlistedFlash

/-- Write one byte of flash, keeping the canonical form. -/
def Memory.write (m : List Host.Cell) (a : Nat) (b : Byte) : List Host.Cell :=
  if b = unlistedFlash then Memory.clear m a (a + 1) else Memory.put m a b

/-- Addresses strictly rising. -/
def Memory.sorted (m : List Host.Cell) : Bool :=
  match m with
  | [] => true
  | c :: rest => rest.all (fun d => decide (c.1 < d.1)) && Memory.sorted rest

/-- The canonical form of flash: addresses strictly rising, no entry that an unlisted address would read as. -/
def Memory.wf (m : List Host.Cell) : Bool :=
  Memory.sorted m && m.all (fun c => c.2 != unlistedFlash)

/-- Several bytes written upwards from an address, one after another. -/
def Memory.writeList (m : List Host.Cell) (a : Nat) (bs : List Byte) : List Host.Cell :=
  match bs with
  | [] => m
  | b :: rest => Memory.writeList (Memory.write m a b) (a + 1) rest

/-! ### Register cells -/

/-- The value of a cell; `d` is the free value an Unset cell stands for where no rule faults on it (log entry 2). -/
def Cell.read {α : Type} (c : Cell α) (d : α) : α :=
  match c with
  | .unset => d
  | .val a => a

/-- Whether something has written the cell since the last reset (R21). -/
def Cell.isSet {α : Type} (c : Cell α) : Bool :=
  match c with
  | .unset => false
  | .val _ => true

/-- R113's `D.opcode <- b`. -/
def latchOpcode (b : Byte) (s : State) : State := { s with opcode := .val b }

/-! ### The flash address register (R25, R52, R53) -/

/-- lat2 ++ lat1 ++ low (R52). -/
def latchAddr (s : State) : Addr :=
  s.lat2.read (Config.unsetByte .lat2) ++ s.lat1.read (Config.unsetByte .lat1) ++ s.low.read (Config.unsetByte .low)

/-- `FlashAddr()` (R52): it faults while the address holds no known value. -/
def withFlashAddr (s : State) (k : Addr → Flow) : Flow :=
  if s.addrValid then k (latchAddr s) else raise .addrUnset s

/-- Write all three address bytes. -/
def setAddr (a : Addr) (s : State) : State :=
  { s with low := .val (a.extractLsb' 0 8), lat1 := .val (a.extractLsb' 8 8), lat2 := .val (a.extractLsb' 16 8) }

/-- `AdvanceAddr()` (R53): + 1 modulo 2^24. -/
def advanceAddr (s : State) : Flow := withFlashAddr s (fun a => .go (setAddr (a + 1) s))

/-! ### The Color-LUT (R24, R151, R152, R158) -/

/-- `lut[i].b0 <- b`. There is no entry past the sixteenth to write; R39 rules such an index out (log entry 12). -/
def lutWrite0 (i : Nat) (b : Byte) (s : State) : State :=
  if h : i < 16 then { s with lut := s.lut.set i { s.lut[i] with b0 := .val b } } else s

/-- `lut[i].b1 <- b`. -/
def lutWrite1 (i : Nat) (b : Byte) (s : State) : State :=
  if h : i < 16 then { s with lut := s.lut.set i { s.lut[i] with b1 := .val b } } else s

/-- The colour of an entry both of whose bytes are set. -/
def LutEntry.colour? (e : LutEntry) : Option Colour :=
  match e.b0, e.b1 with
  | .val b0, .val b1 => some ⟨b0, b1⟩
  | _, _ => none

/-- The entry an index of 0..15 names. -/
def lutEntry (s : State) (i : Nybble) : LutEntry := s.lut[i.toNat]'i.isLt

/-- `LutRead(i)` (R158). -/
def withLutRead (i : Nybble) (s : State) (k : Colour → Flow) : Flow :=
  match (lutEntry s i).colour? with
  | some c => k c
  | none => raise .lutUnset s

/-- `lut_index` as a rule reads it. -/
def lutIndexOf (s : State) : Nat := s.lutIndex.read Config.unsetLutIndex

/-! ### Resets (R38, R116, R250) -/

/-- `DecoderReset()` (R38, first column), with the ring's contents discarded. -/
def decoderReset (s : State) : State :=
  { s with
    state := .opcode, opcode := .unset, lut := Vector.replicate 16 ⟨.unset, .unset⟩
    low := .unset, lat1 := .unset, lat2 := .unset, addrValid := false
    pix := 0, lutIndex := .unset, lutVecLo := .unset, lutVecHi := .unset, eraseCount := .unset
    rlePrev := none, rleRun := false
    p16Mask := .unset, p16Bits := 0, p16B0 := .unset, p16Last := .unset, p16HaveLast := false
    ring := [] }

/-- `DecoderResetStep()` (R116): `ack` and flash are unchanged. -/
def decoderResetStep (s : State) : State := { decoderReset s with head := 0, tail := 0 }

/-- `PowerOnReset()` (R250): flash is unchanged. -/
def powerOnReset (s : State) : State :=
  { decoderReset s with head := 0, tail := 0, ack := 0, fault := none, hung := false }

end Sys2Proof.Machine
end

