-- ==== Sys2Proof/Machine/Operands.lean ====
section
/-! DEFINITION. Every operand form of the loadstream: the argument x, nybbles, pixel indices, the LUT16 vector, mask
bits (spec/30_encoding.md R84, R85), and the decision of the R4 run decoder (spec/43_tiles.md R176). -/

namespace Sys2Proof.Machine

/-- LUT1's index: x[3:0], x[4] ignored (R85, R150). -/
def lutIndexArg (x : BitVec 5) : Nat := (x.extractLsb' 0 4).toNat

/-- (x + 1) * 64 (R175). -/
def pixelCountArg (x : BitVec 5) : Nat := (x.toNat + 1) * Config.tilePixels

/-- b[3:0], the nybble decoded first (R84). -/
def lowNybble (b : Byte) : Nybble := b.extractLsb' 0 4

/-- b[7:4]. -/
def highNybble (b : Byte) : Nybble := b.extractLsb' 4 4

/-- The pixels in one nybble: 4, 2 or 1 (R173). -/
def pixelsPerGroup (n : Bpp) : Nat := 4 / n.bits

/-- Pixel k of a group: (g >> (k * n)) AND (2^n - 1) (R173). -/
def groupPixel (n : Bpp) (g : Nybble) (k : Nat) : Nybble :=
  (g >>> (k * n.bits)) &&& BitVec.ofNat 4 (2 ^ n.bits - 1)

/-- `lut_vec` (R27). -/
def lutVec (s : State) : BitVec 16 :=
  s.lutVecHi.read (Config.unsetByte .lutVecHi) ++ s.lutVecLo.read (Config.unsetByte .lutVecLo)

/-- The walk of R159: from entry `i`, with `fuel` entries left, to the next entry whose vector bit is set, or past the
end. -/
def lut16Walk (vec : BitVec 16) (fuel i : Nat) : Nat :=
  match fuel with
  | 0 => i
  | fuel + 1 => if vec.getLsbD i then i else lut16Walk vec fuel (i + 1)

/-- Where the walk from `i` ends: 0..16. -/
def lut16Target (vec : BitVec 16) (i : Nat) : Nat := lut16Walk vec (Config.lutEntries - i) i

/-- `p16_mask` as a rule reads it. -/
def p16MaskOf (s : State) : Byte := s.p16Mask.read (Config.unsetByte .p16Mask)

/-- `p16_last` as a rule reads it. -/
def p16LastOf (s : State) : Colour :=
  s.p16Last.read ⟨Config.unsetByte .p16LastB0, Config.unsetByte .p16LastB1⟩

/-- What one nybble does to an R4 opcode: the groups it emits, then the run state it leaves. -/
structure R4Action where
  emit : List Nybble
  run : Bool
  prev : Option Nybble
  deriving DecidableEq, Repr

/-- Rule R176: a run count repeats the previous group and clears the run; a nybble equal to the previous one is
emitted and arms the run; any other nybble is a new group. -/
def r4Default (run : Bool) (prev : Option Nybble) (v : Nybble) : R4Action :=
  if run then ⟨List.replicate v.toNat (prev.getD Config.noRunNybble), false, none⟩
  else if some v = prev then ⟨[v], true, prev⟩
  else ⟨[v], false, some v⟩

/-- RLE4 (R5, D11): a row of the parameter where there is one, else R176 (log entry 10). -/
def r4Decide (rows : List Config.R4Row) (n : Bpp) (run : Bool) (prev : Option Nybble) (v : Nybble) : R4Action :=
  match rows.find? (fun r => r.n == n && r.run == run && r.prev == prev && r.v == v) with
  | some r => ⟨r.emit, r.run', r.prev'⟩
  | none => r4Default run prev v

end Sys2Proof.Machine
end

