-- ==== Sys2Proof/Machine/Lut.lean ====
section
/-! DEFINITION. The Color-LUT engine: LUT1 and LUT16 (spec/42_lut.md). No rule here touches flash. -/

namespace Sys2Proof.Machine

/-- LUT1, opcode byte (R150). -/
def execLut1 (x : BitVec 5) (s : State) : Host.Outcome State Fault Refusal :=
  .next { latchOpcode (0b000#3 ++ x) s with lutIndex := .val (lutIndexArg x), state := .lut1Color1 }

/-- LUT1, colour byte 0 (R151). -/
def execLut1Color1 (b : Byte) (s : State) : Host.Outcome State Fault Refusal :=
  .next { lutWrite0 (lutIndexOf s) b s with state := .lut1Color2 }

/-- LUT1, colour byte 1 (R152). -/
def execLut1Color2 (b : Byte) (s : State) : Host.Outcome State Fault Refusal :=
  .next { lutWrite1 (lutIndexOf s) b s with state := .opcode }

/-- `Lut16Next()` (R159), from entry `i`. -/
def lut16Next (i : Nat) (s : State) : State :=
  { s with
    lutIndex := .val (lut16Target (lutVec s) i)
    state := if lut16Target (lutVec s) i = Config.lutEntries then .opcode else .lut16Color1 }

/-- LUT16, opcode byte (R153): x is ignored. -/
def execLut16 (x : BitVec 5) (s : State) : Host.Outcome State Fault Refusal :=
  .next { latchOpcode (0b001#3 ++ x) s with state := .lut16Vec1 }

/-- LUT16, vector bits 7:0 (R154). -/
def execLut16Vec1 (b : Byte) (s : State) : Host.Outcome State Fault Refusal :=
  .next { s with lutVecLo := .val b, state := .lut16Vec2 }

/-- LUT16, vector bits 15:8 (R155). -/
def execLut16Vec2 (b : Byte) (s : State) : Host.Outcome State Fault Refusal :=
  .next (lut16Next 0 { s with lutVecHi := .val b })

/-- LUT16, colour byte 0 (R156). -/
def execLut16Color1 (b : Byte) (s : State) : Host.Outcome State Fault Refusal :=
  .next { lutWrite0 (lutIndexOf s) b s with state := .lut16Color2 }

/-- LUT16, colour byte 1 (R157). -/
def execLut16Color2 (b : Byte) (s : State) : Host.Outcome State Fault Refusal :=
  .next (lut16Next (lutIndexOf s + 1) (lutWrite1 (lutIndexOf s) b s))

end Sys2Proof.Machine
end

