-- ==== Sys2Proof/Machine/Flags.lean ====
section
/-! DEFINITION. The block has no flags (R36). The comparison that R36 names is consumed inside its own rule: the ERASE
checksum, which stands here. -/

namespace Sys2Proof.Machine

/-- The check byte that commits an ERASE: 0xFF XOR ((0 - count - lat1 - lat2) mod 256) (R136). -/
def eraseExpected (count lat1 lat2 : Byte) : Byte := 0xFF#8 ^^^ (0#8 - count - lat1 - lat2)

/-- The check byte the present latches and count ask for: "the latch values as they stand" (R136). -/
def eraseExpectedOf (s : State) : Byte :=
  eraseExpected (s.eraseCount.read (Config.unsetByte .eraseCount)) (s.lat1.read (Config.unsetByte .lat1))
    (s.lat2.read (Config.unsetByte .lat2))

end Sys2Proof.Machine
end

