-- ==== Sys2Proof/Machine/Programmer.lean ====
section
/-! DEFINITION. The flash programmer: its two transactions, which every rule of the decoder uses (spec/44 R200..R203),
and the abstract bus sequence behind them (R204, D33; log entry 13). -/

namespace Sys2Proof.Machine

/-- `FlashProgram(a, v)` (R201, R202). -/
def flashProgram (a : Addr) (v : Byte) (s : State) : Flow :=
  if s.params.flashBytes ≤ a.toNat then raise .flashRange s
  else if v &&& ~~~(Memory.read s.flash a.toNat) ≠ 0#8 then hang s
  else .go { s with flash := Memory.write s.flash a.toNat (Memory.read s.flash a.toNat &&& v) }

/-- One whole block becomes erased (R203). -/
def eraseBlock (blk : Nat) (s : State) : State :=
  { s with flash := Memory.clear s.flash (blk * s.params.eraseBlockBytes) ((blk + 1) * s.params.eraseBlockBytes) }

/-- `n` blocks from `blk` upwards, up to the first that reaches past the flash (R203). -/
def eraseRun (n blk : Nat) (s : State) : Flow :=
  match n with
  | 0 => .go s
  | n + 1 =>
    if s.params.flashBytes < (blk + 1) * s.params.eraseBlockBytes then raise .flashRange s
    else eraseRun n (blk + 1) (eraseBlock blk s)

/-- `FlashEraseBlocks(a, c)` (R203): c + 1 blocks from the one that holds a. -/
def flashEraseBlocks (a : Addr) (c : Byte) (s : State) : Flow :=
  eraseRun (c.toNat + 1) (a.toNat / s.params.eraseBlockBytes) s

/-! ### Bus level (R204) -/

/-- One action of the driver on the bus: a write, or the poll loop that ends once a bit reads as wanted. -/
inductive BusOp where
  | write (w : Config.BusWrite)
  | pollUntil (addr : Nat) (bit : Fin 8) (want : Bool)
  deriving DecidableEq, Repr

/-- `BusProgram(a, v)` (R204). -/
def busProgram (p : Config.Params) (a : Addr) (v : Byte) : List BusOp :=
  p.flashUnlockPrefix.map .write
    ++ [.write p.flashProgramCmd, .write (a.toNat, v), .pollUntil a.toNat p.pollBit (v.getLsbD p.pollBit)]

/-- An erase transaction of one block (R204). R204 gives no address for its completion poll: that the poll reads the
block's first address is the MODEL's choice (DESIGN CHOICE: log entry 13). -/
def busErase (p : Config.Params) (blk : Nat) : List BusOp :=
  p.flashUnlockPrefix.map .write ++ (p.flashEraseCmd.getD blk []).map .write
    ++ [.pollUntil (blk * p.eraseBlockBytes) p.pollBit true]

/-- Data# polling ends when the byte the flash holds has the wanted value at the polled bit (R204). -/
def pollEnds (held : Byte) (bit : Fin 8) (want : Bool) : Bool := held.getLsbD bit == want

/-- Whether a program of `v` over `old` ends at bus level: the cell can only clear bits (R201, R204). -/
def busProgramEnds (bit : Fin 8) (old v : Byte) : Bool := pollEnds (old &&& v) bit (v.getLsbD bit)

end Sys2Proof.Machine
end

