-- ==== Sys2Proof/Machine/Special.lean ====
section
/-! DEFINITION. The SPECIAL family: ADDRESS, ERASE (spec/41_special.md) and RESERVED (spec/40_dispatch.md R114). -/

namespace Sys2Proof.Machine

/-- ADDRESS, opcode byte (R130). -/
def execAddress (s : State) : Host.Outcome State Fault Refusal :=
  .next { latchOpcode 0xE1#8 s with state := .addrLow }

/-- ADDRESS, address byte 1 (R131). -/
def execAddrLow (b : Byte) (s : State) : Host.Outcome State Fault Refusal :=
  .next { s with lat1 := .val b, state := .addrHigh }

/-- ADDRESS, address byte 2 (R132): the low byte is forced to 0. -/
def execAddrHigh (b : Byte) (s : State) : Host.Outcome State Fault Refusal :=
  .next { s with lat2 := .val b, low := .val 0#8, addrValid := true, state := .opcode }

/-- ERASE, opcode byte (R134). -/
def execErase (s : State) : Host.Outcome State Fault Refusal :=
  .next { latchOpcode 0xF5#8 s with state := .eraseCount }

/-- ERASE, the count byte (R135): blocks minus one (C11). -/
def execEraseCount (b : Byte) (s : State) : Host.Outcome State Fault Refusal :=
  .next { s with eraseCount := .val b, state := .eraseCheck }

/-- ERASE, the check byte, as a flow (R136): the address is asked for before the checksum is compared (R227). -/
def eraseCheckFlow (b : Byte) (s : State) : Flow :=
  withFlashAddr s (fun a =>
    if b = eraseExpectedOf s then
      (flashEraseBlocks a (s.eraseCount.read (Config.unsetByte .eraseCount)) s).andThen
        (fun s => .go { s with addrValid := false, state := .opcode })
    else .go { s with state := .opcode })

/-- ERASE, the check byte (R136). -/
def execEraseCheck (b : Byte) (s : State) : Host.Outcome State Fault Refusal := (eraseCheckFlow b s).outcome

/-- RESERVED (R114): nothing changes but `opcode`, which R113 writes and no rule reads. -/
def execReserved (b : Byte) (s : State) : Host.Outcome State Fault Refusal :=
  .next { latchOpcode b s with state := .opcode }

end Sys2Proof.Machine
end

