-- ==== Sys2Proof/Machine/Emit.lean ====
section
/-! DEFINITION. Pixel emission, shared by the five tile codecs (spec/43_tiles.md R170, R171, R173, R174). -/

namespace Sys2Proof.Machine

/-- `EmitByte(v)` (R170). -/
def emitByte (v : Byte) (s : State) : Flow :=
  withFlashAddr s (fun a => (flashProgram a v s).andThen advanceAddr)

/-- `EmitColor(c)` (R171): b0 at the lower address. -/
def emitColor (c : Colour) (s : State) : Flow := (emitByte c.b0 s).andThen (emitByte c.b1)

/-- `EmitTilePixel(c)` (R174). -/
def emitTilePixel (c : Colour) (s : State) : Flow :=
  (emitColor c s).andThen (fun s => .go { s with pix := s.pix - 1 })

/-- Pixels k .. k+m-1 of a group (R173): it ends early when `pix` reaches 0. -/
def emitGroupFrom (n : Bpp) (g : Nybble) (m k : Nat) (s : State) : Flow :=
  match m with
  | 0 => .go s
  | m + 1 =>
    if s.pix = 0 then .go s
    else (withLutRead (groupPixel n g k) s (fun c => emitTilePixel c s)).andThen (emitGroupFrom n g m (k + 1))

/-- `EmitGroup(n, g)` (R173). -/
def emitGroup (n : Bpp) (g : Nybble) (s : State) : Flow := emitGroupFrom n g (pixelsPerGroup n) 0 s

/-- Several groups, one after another. -/
def emitGroups (n : Bpp) (gs : List Nybble) (s : State) : Flow :=
  match gs with
  | [] => .go s
  | g :: rest => (emitGroup n g s).andThen (emitGroups n rest)

end Sys2Proof.Machine
end

