-- ==== Sys2Proof/Machine/TileP16.lean ====
section
/-! DEFINITION. TILE_P16, masked literal colours (spec/43_tiles.md R182..R187). -/

namespace Sys2Proof.Machine

/-- TILE_P16, opcode byte (R182). -/
def execTileP16 (x : BitVec 5) (s : State) : Host.Outcome State Fault Refusal :=
  .next { latchOpcode (0b110#3 ++ x) s with
    pix := pixelCountArg x, p16Bits := 0, p16HaveLast := false, state := .tileP16Mask }

/-- One mask bit is used up (R184, R186). -/
def useMaskBit (s : State) : State :=
  { s with p16Mask := .val (p16MaskOf s >>> 1), p16Bits := s.p16Bits - 1 }

/-- `P16Advance()` (R184). `fuel` is `p16_bits` at the start: each round uses one mask bit. -/
def p16Loop (fuel : Nat) (s : State) : Flow :=
  match fuel with
  | 0 => .go { s with state := if s.pix = 0 then .opcode else .tileP16Mask }
  | fuel + 1 =>
    if (p16MaskOf s).getLsbD 0 then .go { s with state := .tileP16Low }
    else if s.p16HaveLast then
      (emitTilePixel (p16LastOf s) s).andThen (fun s => p16Loop fuel (useMaskBit s))
    else raise .p16NoColor s

/-- `P16Advance()` (R184). -/
def p16Advance (s : State) : Flow := p16Loop s.p16Bits s

/-- TILE_P16, a mask byte (R183). -/
def execTileP16Mask (b : Byte) (s : State) : Host.Outcome State Fault Refusal :=
  (p16Advance { s with p16Mask := .val b, p16Bits := 8 }).outcome

/-- TILE_P16, the first byte of a literal colour (R185). -/
def execTileP16Low (b : Byte) (s : State) : Host.Outcome State Fault Refusal :=
  .next { s with p16B0 := .val b, state := .tileP16High }

/-- The literal colour becomes the last one, is emitted, and uses its mask bit (R186). -/
def p16Literal (c : Colour) (s : State) : Flow :=
  (emitTilePixel c { s with p16Last := .val c, p16HaveLast := true }).andThen (fun s => p16Advance (useMaskBit s))

/-- TILE_P16, the second byte of a literal colour (R186). -/
def execTileP16High (b : Byte) (s : State) : Host.Outcome State Fault Refusal :=
  (p16Literal ⟨s.p16B0.read (Config.unsetByte .p16B0), b⟩ s).outcome

end Sys2Proof.Machine
end

