-- ==== Sys2Proof/Machine/Tiles.lean ====
section
/-! DEFINITION. The solid tile and the three R4 codecs (spec/43_tiles.md R172..R181). -/

namespace Sys2Proof.Machine

/-- TILE_P0 as a flow (R172): the checks on the LUT come before the first byte is programmed. -/
def tileP0Flow (x : BitVec 5) (s : State) : Flow :=
  if 16 ≤ x.toNat then raise .lutIndexRange s
  else withLutRead (x.extractLsb' 0 4) s (fun c =>
    (repeatFlow Config.tilePixels (emitColor c) s).andThen (fun s => .go { s with state := .opcode }))

/-- TILE_P0 (R172). -/
def execTileP0 (x : BitVec 5) (s : State) : Host.Outcome State Fault Refusal :=
  (tileP0Flow x (latchOpcode (0b010#3 ++ x) s)).outcome

/-- What the opcode byte of an R4 codec sets (R177). -/
def r4Start (x : BitVec 5) (st : DecoderState) (s : State) : State :=
  { s with pix := pixelCountArg x, rlePrev := none, rleRun := false, state := st }

/-- TILE_P1_R4, opcode byte (R177). -/
def execTileP1R4 (x : BitVec 5) (s : State) : Host.Outcome State Fault Refusal :=
  .next (r4Start x .tileP1R4 (latchOpcode (0b011#3 ++ x) s))

/-- TILE_P2_R4, opcode byte (R177). -/
def execTileP2R4 (x : BitVec 5) (s : State) : Host.Outcome State Fault Refusal :=
  .next (r4Start x .tileP2R4 (latchOpcode (0b100#3 ++ x) s))

/-- TILE_P4_R4, opcode byte (R177). -/
def execTileP4R4 (x : BitVec 5) (s : State) : Host.Outcome State Fault Refusal :=
  .next (r4Start x .tileP4R4 (latchOpcode (0b101#3 ++ x) s))

/-- `R4Nybble(n, v)` (R176): nybbles past the end are discarded; the groups are emitted before the run state changes. -/
def r4Nybble (n : Bpp) (v : Nybble) (s : State) : Flow :=
  if s.pix = 0 then .go s
  else
    let act := r4Decide s.params.rle4 n s.rleRun s.rlePrev v
    (emitGroups n act.emit s).andThen (fun s => .go { s with rleRun := act.run, rlePrev := act.prev })

/-- `R4Byte(n, b)` (R177): the low nybble first. -/
def r4Byte (n : Bpp) (b : Byte) (s : State) : Flow :=
  ((r4Nybble n (lowNybble b) s).andThen (r4Nybble n (highNybble b))).andThen
    (fun s => .go (if s.pix = 0 then { s with state := .opcode } else s))

/-- TILE_P1_R4, a data byte (R178). -/
def execTileP1R4Data (b : Byte) (s : State) : Host.Outcome State Fault Refusal := (r4Byte .one b s).outcome

/-- TILE_P2_R4, a data byte (R179). -/
def execTileP2R4Data (b : Byte) (s : State) : Host.Outcome State Fault Refusal := (r4Byte .two b s).outcome

/-- TILE_P4_R4, a data byte (R180). -/
def execTileP4R4Data (b : Byte) (s : State) : Host.Outcome State Fault Refusal := (r4Byte .four b s).outcome

end Sys2Proof.Machine
end

