-- ==== Sys2Proof/Machine/Dispatch.lean ====
section
/-! DEFINITION. The dispatch: one arm per constructor of Instr (spec/40_dispatch.md R113, R115). -/

namespace Sys2Proof.Machine

def exec (i : Instr) (s : State) : Host.Outcome State Fault Refusal :=
  match i with
  | .lut1 x => Sys2Proof.Machine.execLut1 x s
  | .lut16 x => Sys2Proof.Machine.execLut16 x s
  | .tileP0 x => Sys2Proof.Machine.execTileP0 x s
  | .tileP1R4 x => Sys2Proof.Machine.execTileP1R4 x s
  | .tileP2R4 x => Sys2Proof.Machine.execTileP2R4 x s
  | .tileP4R4 x => Sys2Proof.Machine.execTileP4R4 x s
  | .tileP16 x => Sys2Proof.Machine.execTileP16 x s
  | .address => Sys2Proof.Machine.execAddress s
  | .erase => Sys2Proof.Machine.execErase s
  | .reserved b => Sys2Proof.Machine.execReserved b s
  | .lut1Color1 b => Sys2Proof.Machine.execLut1Color1 b s
  | .lut1Color2 b => Sys2Proof.Machine.execLut1Color2 b s
  | .lut16Vec1 b => Sys2Proof.Machine.execLut16Vec1 b s
  | .lut16Vec2 b => Sys2Proof.Machine.execLut16Vec2 b s
  | .lut16Color1 b => Sys2Proof.Machine.execLut16Color1 b s
  | .lut16Color2 b => Sys2Proof.Machine.execLut16Color2 b s
  | .tileP1R4Data b => Sys2Proof.Machine.execTileP1R4Data b s
  | .tileP2R4Data b => Sys2Proof.Machine.execTileP2R4Data b s
  | .tileP4R4Data b => Sys2Proof.Machine.execTileP4R4Data b s
  | .tileP16Mask b => Sys2Proof.Machine.execTileP16Mask b s
  | .tileP16Low b => Sys2Proof.Machine.execTileP16Low b s
  | .tileP16High b => Sys2Proof.Machine.execTileP16High b s
  | .addrLow b => Sys2Proof.Machine.execAddrLow b s
  | .addrHigh b => Sys2Proof.Machine.execAddrHigh b s
  | .eraseCount b => Sys2Proof.Machine.execEraseCount b s
  | .eraseCheck b => Sys2Proof.Machine.execEraseCheck b s

end Sys2Proof.Machine
end

