-- ==== Sys2Proof/WellFormed.lean ====
section
/-! DEFINITION. Which instructions, whole instructions and launch parameters are well formed. -/

namespace Sys2Proof

/-- The 30 reserved bytes: b[7:5] = 7, but neither 0xE1 nor 0xF5 (R83, R114). -/
def isReservedByte (b : Byte) : Bool :=
  b.extractLsb' 5 3 == 7#3 && b != 0xE1#8 && b != 0xF5#8

/-- Every operand value of every other constructor is legal: "No encoding is illegal" (R88). -/
def Instr.wellFormed : Instr → Bool
  | .reserved b => isReservedByte b
  | .lut1 _ | .lut16 _ | .tileP0 _ | .tileP1R4 _ | .tileP2R4 _ | .tileP4R4 _ | .tileP16 _
  | .address | .erase
  | .lut1Color1 _ | .lut1Color2 _ | .lut16Vec1 _ | .lut16Vec2 _ | .lut16Color1 _ | .lut16Color2 _
  | .tileP1R4Data _ | .tileP2R4Data _ | .tileP4R4Data _
  | .tileP16Mask _ | .tileP16Low _ | .tileP16High _
  | .addrLow _ | .addrHigh _ | .eraseCount _ | .eraseCheck _ => true

/-- The number of 1 bits among bits 0 .. w-1. -/
def popcount {w : Nat} (v : BitVec w) : Nat :=
  (List.range w).countP (fun i => v.getLsbD i)

/-- The operand shapes of R90: one colour for each set vector bit, one literal for each set mask bit, 8 * t masks, a
reserved byte that is one of the thirty. Where an R4 opcode's data ends is for Machine/Stream.lean. -/
def Asm.wellFormed : Asm → Bool
  | .lut16 vec cs => cs.length == popcount vec
  | .tileP16 x gs => gs.length == 8 * (x.toNat + 1) && gs.all (fun g => g.literals.length == popcount g.mask)
  | .reserved b => isReservedByte b
  | .lut1 _ _ | .tileP0 _ | .tileR4 _ _ _ | .address _ _ | .erase _ _ | .bytes _ => true

/-- A power of two: a 1 followed by zeros. -/
def isPow2 (n : Nat) : Bool := 2 ^ n.log2 == n

/-- What R5 asks of the parameters: the flash fits the address register, the block and ring sizes are powers of two,
the sentinel is outside the ring's indices, and `ack` can count past the capacity (R123). A row of `rle4` that arms a
run names the group to repeat, so that R39 holds of it. -/
def Config.Params.wellFormed (p : Config.Params) : Bool :=
  decide (p.flashBytes ≤ Config.maxFlashBytes) && isPow2 p.eraseBlockBytes && isPow2 p.fifoSize
    && decide (p.fifoSize ≤ p.headReset) && decide (p.fifoCapacity < 2 ^ p.ackBits)
    && p.rle4.all (fun r => !r.run' || r.prev'.isSome)

end Sys2Proof
end

