-- ==== Sys2Proof/Decode.lean ====
section
/-! DEFINITION. Decoding one byte in a decoder state, and the encoder, from spec/30_encoding.md R81..R87. Every byte
decodes in every state (R87, R89), so the decoder rejects nothing. -/

namespace Sys2Proof

/-- b[7:5], the family (R81). -/
def familyOf (b : Byte) : BitVec 3 := b.extractLsb' 5 3

/-- b[4:0], the argument (R81). -/
def argOf (b : Byte) : BitVec 5 := b.extractLsb' 0 5

/-- The SPECIAL family decodes on all 8 bits (R83). -/
def decodeSpecial (b : Byte) : Instr :=
  if b = 0xE1#8 then .address else if b = 0xF5#8 then .erase else .reserved b

/-- The opcode byte (R82, R83, R113). -/
def decodeOpcode (b : Byte) : Instr :=
  match (familyOf b).toNat with
  | 0 => .lut1 (argOf b)
  | 1 => .lut16 (argOf b)
  | 2 => .tileP0 (argOf b)
  | 3 => .tileP1R4 (argOf b)
  | 4 => .tileP2R4 (argOf b)
  | 5 => .tileP4R4 (argOf b)
  | 6 => .tileP16 (argOf b)
  | _ => decodeSpecial b

/-- "Each continuation byte is read by exactly one state, and its format depends only on that state" (R84, R115). -/
def decode (st : DecoderState) (b : Byte) : Instr :=
  match st with
  | .opcode => decodeOpcode b
  | .addrLow => .addrLow b
  | .addrHigh => .addrHigh b
  | .eraseCount => .eraseCount b
  | .eraseCheck => .eraseCheck b
  | .lut1Color1 => .lut1Color1 b
  | .lut1Color2 => .lut1Color2 b
  | .lut16Vec1 => .lut16Vec1 b
  | .lut16Vec2 => .lut16Vec2 b
  | .lut16Color1 => .lut16Color1 b
  | .lut16Color2 => .lut16Color2 b
  | .tileP1R4 => .tileP1R4Data b
  | .tileP2R4 => .tileP2R4Data b
  | .tileP4R4 => .tileP4R4Data b
  | .tileP16Mask => .tileP16Mask b
  | .tileP16Low => .tileP16Low b
  | .tileP16High => .tileP16High b

/-- The state that reads the instruction's byte (R84, R113). -/
def Instr.readIn : Instr → DecoderState
  | .lut1 _ | .lut16 _ | .tileP0 _ | .tileP1R4 _ | .tileP2R4 _ | .tileP4R4 _ | .tileP16 _
  | .address | .erase | .reserved _ => .opcode
  | .lut1Color1 _ => .lut1Color1
  | .lut1Color2 _ => .lut1Color2
  | .lut16Vec1 _ => .lut16Vec1
  | .lut16Vec2 _ => .lut16Vec2
  | .lut16Color1 _ => .lut16Color1
  | .lut16Color2 _ => .lut16Color2
  | .tileP1R4Data _ => .tileP1R4
  | .tileP2R4Data _ => .tileP2R4
  | .tileP4R4Data _ => .tileP4R4
  | .tileP16Mask _ => .tileP16Mask
  | .tileP16Low _ => .tileP16Low
  | .tileP16High _ => .tileP16High
  | .addrLow _ => .addrLow
  | .addrHigh _ => .addrHigh
  | .eraseCount _ => .eraseCount
  | .eraseCheck _ => .eraseCheck

/-- The byte of an instruction (R82..R84). -/
def encode : Instr → Byte
  | .lut1 x => 0b000#3 ++ x
  | .lut16 x => 0b001#3 ++ x
  | .tileP0 x => 0b010#3 ++ x
  | .tileP1R4 x => 0b011#3 ++ x
  | .tileP2R4 x => 0b100#3 ++ x
  | .tileP4R4 x => 0b101#3 ++ x
  | .tileP16 x => 0b110#3 ++ x
  | .address => 0b11100001#8
  | .erase => 0b11110101#8
  | .reserved b | .lut1Color1 b | .lut1Color2 b | .lut16Vec1 b | .lut16Vec2 b | .lut16Color1 b | .lut16Color2 b
  | .tileP1R4Data b | .tileP2R4Data b | .tileP4R4Data b | .tileP16Mask b | .tileP16Low b | .tileP16High b
  | .addrLow b | .addrHigh b | .eraseCount b | .eraseCheck b => b

/-- The row's mnemonic in spec/opcode_table.json; a continuation byte belongs to the opcode its state serves (R22). -/
def Instr.mnemonic : Instr → String
  | .lut1 _ | .lut1Color1 _ | .lut1Color2 _ => "LUT1"
  | .lut16 _ | .lut16Vec1 _ | .lut16Vec2 _ | .lut16Color1 _ | .lut16Color2 _ => "LUT16"
  | .tileP0 _ => "TILE_P0"
  | .tileP1R4 _ | .tileP1R4Data _ => "TILE_P1_R4"
  | .tileP2R4 _ | .tileP2R4Data _ => "TILE_P2_R4"
  | .tileP4R4 _ | .tileP4R4Data _ => "TILE_P4_R4"
  | .tileP16 _ | .tileP16Mask _ | .tileP16Low _ | .tileP16High _ => "TILE_P16"
  | .address | .addrLow _ | .addrHigh _ => "ADDRESS"
  | .erase | .eraseCount _ | .eraseCheck _ => "ERASE"
  | .reserved _ => "RESERVED"

/-- The family a continuation state serves (R22, the Family column); none for OPCODE. -/
def DecoderState.owner : DecoderState → Option String
  | .opcode => none
  | .addrLow | .addrHigh => some "ADDRESS"
  | .eraseCount | .eraseCheck => some "ERASE"
  | .lut1Color1 | .lut1Color2 => some "LUT1"
  | .lut16Vec1 | .lut16Vec2 | .lut16Color1 | .lut16Color2 => some "LUT16"
  | .tileP1R4 => some "TILE_P1_R4"
  | .tileP2R4 => some "TILE_P2_R4"
  | .tileP4R4 => some "TILE_P4_R4"
  | .tileP16Mask | .tileP16Low | .tileP16High => some "TILE_P16"

/-- A row of spec/opcode_table.json. -/
structure OpcodeRow where
  mnemonic : String
  pattern : Byte
  mask : Byte
  deriving DecidableEq, Repr

/-- spec/opcode_table.json, row by row (R82, R83). -/
def opcodeTable : List OpcodeRow :=
  [⟨"LUT1", 0x00, 0xE0⟩, ⟨"LUT16", 0x20, 0xE0⟩, ⟨"TILE_P0", 0x40, 0xE0⟩, ⟨"TILE_P1_R4", 0x60, 0xE0⟩,
    ⟨"TILE_P2_R4", 0x80, 0xE0⟩, ⟨"TILE_P4_R4", 0xA0, 0xE0⟩, ⟨"TILE_P16", 0xC0, 0xE0⟩, ⟨"ADDRESS", 0xE1, 0xFF⟩,
    ⟨"ERASE", 0xF5, 0xFF⟩, ⟨"RESERVED", 0xE0, 0xFF⟩, ⟨"RESERVED", 0xE2, 0xFE⟩, ⟨"RESERVED", 0xE4, 0xFC⟩,
    ⟨"RESERVED", 0xE8, 0xF8⟩, ⟨"RESERVED", 0xF0, 0xFC⟩, ⟨"RESERVED", 0xF4, 0xFF⟩, ⟨"RESERVED", 0xF6, 0xFE⟩,
    ⟨"RESERVED", 0xF8, 0xF8⟩]

/-- The rows of the table a byte matches. -/
def tableMatches (b : Byte) : List OpcodeRow := opcodeTable.filter (fun r => b &&& r.mask == r.pattern)

/-- The opcode table's reading of a word: the instruction is its first byte, read in state OPCODE (R87). -/
def decodeTableWord (nbits w : Nat) : Option Instr :=
  if 8 ≤ nbits then some (decode .opcode (BitVec.ofNat 8 w)) else none

end Sys2Proof
end

