-- ==== Sys2Proof/Machine/Port.lean ====
section
/-! DEFINITION. The input port: taking a byte from the FIFO, the producer's two actions, and which agent moves
(spec/40_dispatch.md R110..R123). -/

namespace Sys2Proof.Machine

/-- The slot after `i`, modulo FIFO_SIZE (R65). -/
def nextSlot (p : Config.Params) (i : Nat) : Nat := (i + 1) % p.fifoSize

/-- (head - tail) mod FIFO_SIZE (R31). -/
def occupancy (s : State) : Nat := (s.head + s.params.fifoSize - s.tail) % s.params.fifoSize

/-- The byte at the tail. A slot between tail and head always holds one (R31, R67; log entry 2). -/
def tailByte (s : State) : Byte := (Memory.find s.ring s.tail).getD (Config.unsetByte (.ringSlot s.tail))

/-- What `FifoPop()` changes (R112): the tail and the ack counter. -/
def popTail (s : State) : State :=
  { s with tail := nextSlot s.params s.tail, ack := (s.ack + 1) % 2 ^ s.params.ackBits }

/-- `Push(v)` (R118): the sentinel check before the capacity check. -/
def push (v : Byte) (s : State) : Flow :=
  if s.head = s.params.headReset then raise .pushDuringReset s
  else if occupancy s = s.params.fifoCapacity then raise .fifoOverflow s
  else .go { s with ring := Memory.put s.ring s.head v, head := nextSlot s.params s.head }

/-- Several pushes in a row. -/
def pushAll (bs : List Byte) (s : State) : Flow :=
  match bs with
  | [] => .go s
  | b :: rest => (push b s).andThen (pushAll rest)

/-- `RequestReset()` (R119). -/
def requestReset (s : State) : State := { s with head := s.params.headReset }

/-- The producer's next action, in the order of its script (R262); nothing once the script is done. -/
def producerMove (s : State) : State :=
  match s.script with
  | [] => s
  | .push v :: rest => (push v { s with script := rest }).state
  | .requestReset :: rest => requestReset { s with script := rest }

/-- R111, apart from the fault record, which ends every step. -/
def decoderEnabled (s : State) : Bool :=
  !s.hung && (s.head == s.params.headReset || s.head != s.tail)

/-- The decoder's turn. Hung, it spins in the programmer's poll (R222; log entry 6); with the sentinel standing its
only step is the reset step (R117); with an empty FIFO it is idle (R111; log entry 7); else it takes one byte. -/
def decoderMove (s : State) : Move :=
  if s.hung then .settle s
  else if s.head = s.params.headReset then .settle (decoderResetStep s)
  else if s.head = s.tail then .settle s
  else .run (decode s.state (tailByte s)) (popTail s)

/-- Who moves (R227): the schedule's next agent. Past the schedule's end the decoder moves while it is enabled, and
else the producer (log entry 8). -/
def nextMove (s : State) : Move :=
  match s.schedule with
  | .producer :: rest => .settle (producerMove { s with schedule := rest })
  | .decoder :: rest => decoderMove { s with schedule := rest }
  | [] => if decoderEnabled s then decoderMove s else .settle (producerMove s)

/-- R123, informative: the master sends only while its headroom, modulo 2^ACK_BITS, is below the capacity. -/
def flowControlAllows (p : Config.Params) (sent acked : Nat) : Bool :=
  decide ((sent + 2 ^ p.ackBits - acked % 2 ^ p.ackBits) % 2 ^ p.ackBits < p.fifoCapacity)

end Sys2Proof.Machine
end

