-- ==== Sys2Proof/Machine/Step.lean ====
section
/-! DEFINITION. One step of the machine: one decoder step, or one producer step (spec/00_scope.md R12, R110, R111). -/

namespace Sys2Proof.Machine

/-- Once a fault is recorded no agent has a step (R221). Otherwise the agent whose turn it is moves, and a byte the
decoder takes is run by `exec`. -/
def step (s : State) : Host.Outcome State Fault Refusal :=
  match s.fault with
  | some code => .fault code
  | none =>
    match nextMove s with
    | .run i s' => exec i s'
    | .settle s' => .next s'

/-- The instruction's byte lies at the FIFO tail, the decoder awaits an opcode, and the next turn is the decoder's
(log entry 9). -/
def State.withFetchWord (s : State) (_nbits w : Nat) : State :=
  { s with
    state := .opcode
    ring := Memory.put s.ring s.tail (BitVec.ofNat 8 w)
    head := if s.head = s.params.headReset ∨ s.head = s.tail then nextSlot s.params s.tail else s.head
    fault := none
    hung := false
    schedule := .decoder :: s.schedule }

end Sys2Proof.Machine
end

