-- ==== Sys2Proof/Machine/Stream.lean ====
section
/-! DEFINITION. The stream above single bytes: running the decoder on a list of bytes, and whole instructions: how
they are assembled, where they end, how they are read back (spec/30_encoding.md R80, R86, R90, R91). -/

namespace Sys2Proof.Machine

/-- `Step(b)` (R115): the byte is read by the present state. -/
def stepByte (b : Byte) (s : State) : Host.Outcome State Fault Refusal := exec (decode s.state b) s

/-- The decoder on bytes already taken from the FIFO, in arrival order (R66). After a fault or a hang the bytes left
are not consumed (R228). -/
def feed (bs : List Byte) (s : State) : Host.Outcome State Fault Refusal :=
  match bs with
  | [] => .next s
  | b :: rest =>
    if s.fault.isSome || s.hung then .next s
    else
      match stepByte b s with
      | .next s' => feed rest s'
      | .fault r => .fault r
      | .refused r => .refused r

/-! ### Where an R4 opcode ends (R177, R181) -/

/-- What an R4 opcode still has to emit, and its run state. -/
structure R4Progress where
  pix : Nat
  run : Bool
  prev : Option Nybble
  deriving DecidableEq, Repr

/-- One nybble: it uses up the pixels of its groups, down to 0. -/
def r4Advance (rows : List Config.R4Row) (n : Bpp) (p : R4Progress) (v : Nybble) : R4Progress :=
  if p.pix = 0 then p
  else
    let act := r4Decide rows n p.run p.prev v
    ⟨p.pix - act.emit.length * pixelsPerGroup n, act.run, act.prev⟩

/-- How many of the data bytes the opcode consumes; none if they end before it does. -/
def r4Count (rows : List Config.R4Row) (n : Bpp) (p : R4Progress) (data : List Byte) : Option Nat :=
  if p.pix = 0 then some 0
  else
    match data with
    | [] => none
    | b :: rest =>
      (r4Count rows n (r4Advance rows n (r4Advance rows n p (lowNybble b)) (highNybble b)) rest).map (· + 1)

/-- A fresh R4 opcode of argument x (R177). -/
def r4Fresh (x : BitVec 5) : R4Progress := ⟨pixelCountArg x, false, none⟩

/-! ### The assembler (R90, R91) -/

/-- A colour as its two bytes in stream order (R55). -/
def colourBytes (c : Colour) : List Byte := [c.b0, c.b1]

/-- The opcode byte of an R4 codec (R82). -/
def r4OpcodeByte (n : Bpp) (x : BitVec 5) : Byte :=
  match n with
  | .one => 0b011#3 ++ x
  | .two => 0b100#3 ++ x
  | .four => 0b101#3 ++ x

/-- A mask byte and its literals. -/
def maskGroupBytes (g : MaskGroup) : List Byte := g.mask :: g.literals.flatMap colourBytes

/-- The bytes of a whole instruction (R90). -/
def assemble (a : Asm) : List Byte :=
  match a with
  | .lut1 i c => (0b0000#4 ++ i) :: colourBytes c
  | .lut16 vec cs => 0x20#8 :: vec.extractLsb' 0 8 :: vec.extractLsb' 8 8 :: cs.flatMap colourBytes
  | .tileP0 i => [0b0100#4 ++ i]
  | .tileR4 n x data => r4OpcodeByte n x :: data
  | .tileP16 x gs => (0b110#3 ++ x) :: gs.flatMap maskGroupBytes
  | .address lat1 lat2 => [0xE1#8, lat1, lat2]
  | .erase count check => [0xF5#8, count, check]
  | .reserved b => [b]
  | .bytes bs => bs

/-- Whether the operands are of the right shape and an R4 opcode's data ends where the opcode does (R86, R90). -/
def asmComplete (rows : List Config.R4Row) (a : Asm) : Bool :=
  a.wellFormed &&
    match a with
    | .tileR4 n x data => r4Count rows n (r4Fresh x) data == some data.length
    | _ => true

/-- The length of a whole instruction as R86 gives it. -/
def asmLength (a : Asm) : Nat :=
  match a with
  | .lut1 _ _ | .address _ _ | .erase _ _ => 3
  | .lut16 vec _ => 3 + 2 * popcount vec
  | .tileP0 _ | .reserved _ => 1
  | .tileR4 _ _ data => 1 + data.length
  | .tileP16 x gs => 1 + 8 * (x.toNat + 1) + 2 * (gs.map (fun g => popcount g.mask)).sum
  | .bytes bs => bs.length

/-- `ADDR a` (R91), for an address whose low byte is 0. -/
def asmAddr (a : Addr) : Asm := .address (a.extractLsb' 8 8) (a.extractLsb' 16 8)

/-- `ERASE_V count` (R91): the check is (count + lat1 + lat2 - 1) mod 256. -/
def asmEraseV (count lat1 lat2 : Byte) : Asm := .erase count (count + lat1 + lat2 - 1#8)

/-- `NOP` (R91). -/
def asmNop : Asm := .reserved 0xE0#8

/-! ### The printer (R90) -/

/-- One hexadecimal digit. -/
def hexDigit (v : Nybble) : String :=
  ["0", "1", "2", "3", "4", "5", "6", "7", "8", "9", "A", "B", "C", "D", "E", "F"].getD v.toNat ""

/-- A byte in two digits, as in a colour. -/
def hexText (b : Byte) : String := hexDigit (highNybble b) ++ hexDigit (lowNybble b)

/-- A byte as a number. -/
def byteText (b : Byte) : String := "0x" ++ hexText b

/-- A colour, `b0:b1`. -/
def colourText (c : Colour) : String := hexText c.b0 ++ ":" ++ hexText c.b1

/-- A mask and its literal colours, in stream order. -/
def maskGroupText (g : MaskGroup) : List String := ("m=" ++ byteText g.mask) :: g.literals.map colourText

/-- The mnemonic of an R4 codec. -/
def r4Mnemonic (n : Bpp) : String :=
  match n with
  | .one => "TILE_P1_R4"
  | .two => "TILE_P2_R4"
  | .four => "TILE_P4_R4"

/-- A mnemonic with its operands. -/
def opText (mnemonic : String) (operands : List String) : String :=
  mnemonic ++ " " ++ String.intercalate ", " operands

/-- A whole instruction in the syntax of R90: tile counts t = x + 1 and LUT indices in decimal, bytes in hexadecimal. -/
def printAsm (a : Asm) : String :=
  match a with
  | .lut1 i c => opText "LUT1" [Nat.repr i.toNat, colourText c]
  | .lut16 vec cs =>
    opText "LUT16" (("0x" ++ hexText (vec.extractLsb' 8 8) ++ hexText (vec.extractLsb' 0 8)) :: cs.map colourText)
  | .tileP0 i => opText "TILE_P0" [Nat.repr i.toNat]
  | .tileR4 n x data => opText (r4Mnemonic n) (Nat.repr (x.toNat + 1) :: data.map byteText)
  | .tileP16 x gs => opText "TILE_P16" (Nat.repr (x.toNat + 1) :: gs.flatMap maskGroupText)
  | .address lat1 lat2 => opText "ADDRESS" [byteText lat1, byteText lat2]
  | .erase count check => opText "ERASE" [byteText count, byteText check]
  | .reserved b => opText "RESERVED" [byteText b]
  | .bytes bs => opText ".byte" (bs.map byteText)

/-! ### Reading a whole instruction back -/

/-- `m` colours off the front of the stream. -/
def takeColours (m : Nat) (bs : List Byte) : Option (List Colour × List Byte) :=
  match m, bs with
  | 0, bs => some ([], bs)
  | m + 1, b0 :: b1 :: rest => (takeColours m rest).map (fun r => (⟨b0, b1⟩ :: r.1, r.2))
  | _ + 1, _ => none

/-- `m` mask bytes with their literals off the front of the stream (R86). -/
def takeMasks (m : Nat) (bs : List Byte) : Option (List MaskGroup × List Byte) :=
  match m, bs with
  | 0, bs => some ([], bs)
  | m + 1, mask :: rest =>
    match takeColours (popcount mask) rest with
    | some (cs, rest') => (takeMasks m rest').map (fun r => (⟨mask, cs⟩ :: r.1, r.2))
    | none => none
  | _ + 1, [] => none

/-- The data of an R4 opcode off the front of the stream. -/
def takeR4 (rows : List Config.R4Row) (n : Bpp) (x : BitVec 5) (bs : List Byte) : Option (Asm × List Byte) :=
  (r4Count rows n (r4Fresh x) bs).map (fun k => (.tileR4 n x (bs.take k), bs.drop k))

/-- One whole instruction off the front of the stream; none if the stream ends inside it. The spellings R90 gives no
syntax (LUT1 and TILE_P0 with x >= 16, LUT16 with x not 0) come back as bytes. -/
def disassemble (rows : List Config.R4Row) (bs : List Byte) : Option (Asm × List Byte) :=
  match bs with
  | [] => none
  | b :: rest =>
    match decodeOpcode b, rest with
    | .lut1 x, b0 :: b1 :: rest' =>
      some (if x.toNat < 16 then .lut1 (x.extractLsb' 0 4) ⟨b0, b1⟩ else .bytes [b, b0, b1], rest')
    | .lut16 x, v0 :: v1 :: rest' =>
      (takeColours (popcount (v1 ++ v0)) rest').map (fun r =>
        (if x = 0#5 then .lut16 (v1 ++ v0) r.1 else .bytes (b :: v0 :: v1 :: r.1.flatMap colourBytes), r.2))
    | .tileP0 x, rest' => some (if x.toNat < 16 then .tileP0 (x.extractLsb' 0 4) else .bytes [b], rest')
    | .tileP1R4 x, rest' => takeR4 rows .one x rest'
    | .tileP2R4 x, rest' => takeR4 rows .two x rest'
    | .tileP4R4 x, rest' => takeR4 rows .four x rest'
    | .tileP16 x, rest' => (takeMasks (8 * (x.toNat + 1)) rest').map (fun r => (.tileP16 x r.1, r.2))
    | .address, l1 :: l2 :: rest' => some (.address l1 l2, rest')
    | .erase, c :: k :: rest' => some (.erase c k, rest')
    | .reserved b, rest' => some (.reserved b, rest')
    | _, _ => none

end Sys2Proof.Machine
end

