-- ==== Sys2Proof/Safety.lean ====
section
/-! DEFINITION. The terms claims are stated in: runs and their ends (spec/70 R262), what a tile needs of the flash
(R253), what emission leaves, and the invariants of the machine (R39 among them). -/

namespace Sys2Proof.Safety

open Sys2Proof.Machine

/-! ### Runs (R111, R262) -/

/-- No fault is recorded and the decoder does not hang. -/
def running (s : State) : Bool := s.fault.isNone && !s.hung

/-- The end of a run (R262). -/
def ended (s : State) : Bool :=
  s.script.isEmpty && s.head != s.params.headReset && s.head == s.tail && running s

/-- The run ends cleanly (R262). -/
def endsCleanly (s : State) : Bool := ended s && s.state == .opcode

/-- What is observed of a run's end (R262): flash, ack, the address register with addr_valid, the LUT. -/
structure Observation where
  flash : List Host.Cell
  ack : Nat
  low : Cell Byte
  lat1 : Cell Byte
  lat2 : Cell Byte
  addrValid : Bool
  lut : Vector LutEntry 16
  deriving DecidableEq, Repr

def observe (s : State) : Observation := ⟨s.flash, s.ack, s.low, s.lat1, s.lat2, s.addrValid, s.lut⟩

/-- The decoder takes the next step: its turn by the schedule, or past the schedule's end while it is enabled. -/
def decodersTurn (s : State) : Bool :=
  match s.schedule with
  | .decoder :: _ => true
  | .producer :: _ => false
  | [] => decoderEnabled s

/-- The step takes a byte from the FIFO (R111, R112). -/
def takesByte (s : State) : Bool :=
  decodersTurn s && !s.hung && s.head != s.params.headReset && s.head != s.tail

/-- The step is the reset step (R116, R117). -/
def takesReset (s : State) : Bool := decodersTurn s && !s.hung && s.head == s.params.headReset

/-! ### Emission (R170, R253) -/

/-- The bytes of pixels, in the order they are programmed (R171). -/
def pixelBytes (cs : List Colour) : List Byte := cs.flatMap colourBytes

/-- No byte asks a 0 bit of the flash to become 1 (R253 item 3, R202). -/
def noZeroToOne (m : List Host.Cell) (a : Nat) (bs : List Byte) : Prop :=
  ∀ k, (h : k < bs.length) → bs[k] &&& ~~~(Memory.read m (a + k)) = 0#8

/-- The address is known and the bytes lie in the flash, with no 0-to-1 program. -/
def canEmit (s : State) (bs : List Byte) : Prop :=
  s.addrValid = true ∧ (latchAddr s).toNat + bs.length ≤ s.params.flashBytes
    ∧ s.params.flashBytes ≤ Config.maxFlashBytes ∧ noZeroToOne s.flash (latchAddr s).toNat bs

/-- The state after a nonempty list of bytes has been programmed from the present address on; nothing for no bytes. -/
def emitted (bs : List Byte) (s : State) : State :=
  if bs = [] then s
  else setAddr (latchAddr s + BitVec.ofNat 24 bs.length)
    { s with flash := Memory.writeList s.flash (latchAddr s).toNat bs }

/-- Why emission stopped: a fault, or the hang. -/
inductive StopRecord where
  | fault (code : Fault)
  | hang
  deriving DecidableEq, Repr

/-- The record that a stop leaves in a state (R221, R222). -/
def StopRecord.mark (r : StopRecord) (s : State) : State :=
  match r with
  | .fault code => { s with fault := some code }
  | .hang => { s with hung := true }

/-- Byte `k` of `bs` is the first that cannot be programmed from the present address on, and why, in the order of R227:
no known address (which stops the first byte), then an address past the flash, then a 0 bit asked to become 1. -/
def stopsAt (s : State) (bs : List Byte) (k : Nat) (r : StopRecord) : Prop :=
  match r with
  | .fault .addrUnset => k = 0 ∧ s.addrValid = false
  | .fault .flashRange =>
    s.addrValid = true ∧ (k = 0 ∨ canEmit s (bs.take k)) ∧ s.params.flashBytes ≤ (latchAddr s).toNat + k
      ∧ (latchAddr s).toNat + k < 2 ^ 24
  | .hang =>
    s.addrValid = true ∧ (k = 0 ∨ canEmit s (bs.take k)) ∧ (latchAddr s).toNat + k < s.params.flashBytes
      ∧ bs.getD k 0 &&& ~~~(Memory.read s.flash ((latchAddr s).toNat + k)) ≠ 0#8
  | .fault _ => False

/-- The state after pixels of an R4 or P16 opcode have been emitted (R174). -/
def emittedPixels (cs : List Colour) (s : State) : State :=
  { emitted (pixelBytes cs) s with pix := s.pix - cs.length }

/-- The LUT holds a colour for every index of the list, and these are the colours. -/
def lutColours (s : State) (is : List Nybble) : Option (List Colour) :=
  is.mapM (fun i => (lutEntry s i).colour?)

/-! ### What an R4 byte emits, without the flash (R173, R176, R177) -/

/-- The pixel indices of one group. -/
def groupIndices (n : Bpp) (g : Nybble) : List Nybble := (List.range (pixelsPerGroup n)).map (groupPixel n g)

/-- The indices one nybble emits: those of its groups, cut off where `pix` reaches 0. -/
def nybbleIndices (rows : List Config.R4Row) (n : Bpp) (p : R4Progress) (v : Nybble) : List Nybble :=
  if p.pix = 0 then []
  else ((r4Decide rows n p.run p.prev v).emit.flatMap (groupIndices n)).take p.pix

/-- The R4 part of a state. -/
def r4Progress (s : State) : R4Progress := ⟨s.pix, s.rleRun, s.rlePrev⟩

/-- What is left of an R4 opcode after one data byte. -/
def byteProgress (rows : List Config.R4Row) (n : Bpp) (p : R4Progress) (b : Byte) : R4Progress :=
  r4Advance rows n (r4Advance rows n p (lowNybble b)) (highNybble b)

/-- The indices one data byte emits. -/
def byteIndices (rows : List Config.R4Row) (n : Bpp) (p : R4Progress) (b : Byte) : List Nybble :=
  nybbleIndices rows n p (lowNybble b) ++ nybbleIndices rows n (r4Advance rows n p (lowNybble b)) (highNybble b)

/-- The indices a list of data bytes emits, one byte after another. -/
def streamIndices (rows : List Config.R4Row) (n : Bpp) (p : R4Progress) (data : List Byte) : List Nybble :=
  match data with
  | [] => []
  | b :: rest => byteIndices rows n p b ++ streamIndices rows n (byteProgress rows n p b) rest

/-- The run state an R4 opcode is left with where a data byte's emission stops after `done` pixels: the low nybble has
changed it only once all its pixels are out (R176, R223). -/
def stoppedRun (rows : List Config.R4Row) (n : Bpp) (p : R4Progress) (b : Byte) (done : Nat) : R4Progress :=
  if done < (nybbleIndices rows n p (lowNybble b)).length then p else r4Advance rows n p (lowNybble b)

/-! ### What a P16 mask emits (R184) -/

/-- How many of the next `bits` mask bits are 0 before the first 1. -/
def zeroRun (mask : Byte) (bits : Nat) : Nat :=
  match bits with
  | 0 => 0
  | bits + 1 => if mask.getLsbD 0 then 0 else zeroRun (mask >>> 1) bits + 1

/-- Where P16Advance ends once `z` of the `bits` mask bits are used up. -/
def p16Settled (z bits : Nat) (s : State) : State :=
  { s with
    pix := s.pix - z
    p16Mask := if z = 0 then s.p16Mask else .val (p16MaskOf s >>> z)
    p16Bits := bits - z
    state := if z = bits then (if s.pix - z = 0 then .opcode else .tileP16Mask) else .tileP16Low }

/-- Where a P16 step's emission of `bs` stops before byte `k`: `k / 2` pixels are out, and each used one bit of `mask`,
of which `bits` were left (R184, R223). -/
def p16Stopped (bs : List Byte) (k : Nat) (mask : Byte) (bits : Nat) (s : State) : State :=
  { emitted (bs.take k) s with
    p16Mask := .val (mask >>> (k / 2)), p16Bits := bits - k / 2, pix := s.pix - k / 2 }

/-- The colours of one mask group, bit 0 first: a 1 takes the next literal, a 0 repeats the last colour; with the
colour it ends on. None where a colour is missing. -/
def maskPixels (mask : Byte) (bits : Nat) (last : Option Colour) (lits : List Colour) :
    Option (List Colour × Option Colour) :=
  match bits with
  | 0 => some ([], last)
  | bits + 1 =>
    if mask.getLsbD 0 then
      match lits with
      | [] => none
      | c :: rest => (maskPixels (mask >>> 1) bits (some c) rest).map (fun r => (c :: r.1, r.2))
    else
      match last with
      | none => none
      | some c => (maskPixels (mask >>> 1) bits last lits).map (fun r => (c :: r.1, r.2))

/-- The colours of a TILE_P16's mask groups (R183, R187). -/
def p16Pixels (groups : List MaskGroup) (last : Option Colour) : Option (List Colour) :=
  match groups with
  | [] => some []
  | g :: rest =>
    match maskPixels g.mask 8 last g.literals with
    | none => none
    | some (cs, last') => (p16Pixels rest last').map (fun ds => cs ++ ds)

/-! ### Kinds of instructions and answers -/

/-- The instruction of a data byte of the n bpp codec. -/
def r4DataInstr (n : Bpp) (b : Byte) : Instr :=
  match n with
  | .one => .tileP1R4Data b
  | .two => .tileP2R4Data b
  | .four => .tileP4R4Data b

/-- The instructions that may touch flash: the tile codecs' emitting bytes and the ERASE check byte. -/
def touchesFlash : Instr → Bool
  | .tileP0 _ | .tileP1R4Data _ | .tileP2R4Data _ | .tileP4R4Data _ | .tileP16Mask _ | .tileP16High _
  | .eraseCheck _ => true
  | .lut1 _ | .lut16 _ | .tileP1R4 _ | .tileP2R4 _ | .tileP4R4 _ | .tileP16 _ | .address | .erase | .reserved _
  | .lut1Color1 _ | .lut1Color2 _ | .lut16Vec1 _ | .lut16Vec2 _ | .lut16Color1 _ | .lut16Color2 _
  | .tileP16Low _ | .addrLow _ | .addrHigh _ | .eraseCount _ => false

/-- The whole instructions of R61 and R261: everything but an ERASE, and no loose bytes. -/
def replayable : Asm → Bool
  | .lut1 _ _ | .lut16 _ _ | .tileP0 _ | .tileR4 _ _ _ | .tileP16 _ _ | .address _ _ | .reserved _ => true
  | .erase _ _ | .bytes _ => false

/-- What a step answers, but for the opcode register. -/
def forgetOpcode (o : Host.Outcome State Fault Refusal) : Host.Outcome State Fault Refusal :=
  match o with
  | .next s => .next { s with opcode := .unset }
  | .fault r => .fault r
  | .refused r => .refused r

/-! ### Invariants -/

/-- R39: the fields that are live in each decoder state. Two clauses are more than R39 lists: in ADDR_HIGH, R131 has
written `lat1`; and in TILE_P16, `pix` and `p16_bits` keep step, since a mask covers eight pixels (R184). -/
def live (s : State) : Bool :=
  match s.state with
  | .opcode | .addrLow | .eraseCount | .lut16Vec1 => true
  | .addrHigh => s.lat1.isSet
  | .eraseCheck => s.eraseCount.isSet
  | .lut1Color1 | .lut1Color2 => s.lutIndex.isSet && decide (lutIndexOf s < 16)
  | .lut16Vec2 => s.lutVecLo.isSet
  | .lut16Color1 | .lut16Color2 =>
    s.lutVecLo.isSet && s.lutVecHi.isSet && s.lutIndex.isSet && decide (lutIndexOf s < 16)
      && (lutVec s).getLsbD (lutIndexOf s)
  | .tileP1R4 | .tileP2R4 | .tileP4R4 => decide (0 < s.pix) && (!s.rleRun || s.rlePrev.isSome)
  | .tileP16Mask =>
    decide (0 < s.pix) && decide (s.pix % 8 = 0) && decide (s.p16Bits = 0) && (!s.p16HaveLast || s.p16Last.isSet)
  | .tileP16Low =>
    decide (0 < s.pix) && decide (1 ≤ s.p16Bits) && decide (s.p16Bits ≤ 8) && decide (s.pix % 8 = s.p16Bits % 8)
      && s.p16Mask.isSet && (p16MaskOf s).getLsbD 0 && (!s.p16HaveLast || s.p16Last.isSet)
  | .tileP16High =>
    decide (0 < s.pix) && decide (1 ≤ s.p16Bits) && decide (s.p16Bits ≤ 8) && decide (s.pix % 8 = s.p16Bits % 8)
      && s.p16Mask.isSet && (p16MaskOf s).getLsbD 0 && (!s.p16HaveLast || s.p16Last.isSet) && s.p16B0.isSet

/-- While the decoder can still step, the fields its state needs are live (R39). -/
def LiveFields (s : State) : Prop := running s = true → live s = true

/-- The registers stay in their ranges (R26, R27, R29). -/
def RangesOk (s : State) : Prop :=
  s.pix ≤ 2048 ∧ s.p16Bits ≤ 8 ∧ (s.lutIndex.isSet = true → lutIndexOf s ≤ 16)

/-- A known address has three written bytes (R25), and between two bytes of the stream a pixel boundary is an even
address (R57). -/
def AddressOk (s : State) : Prop :=
  (s.addrValid = true → s.low.isSet = true ∧ s.lat1.isSet = true ∧ s.lat2.isSet = true) ∧
    (running s = true → s.addrValid = true → (latchAddr s).getLsbD 0 = false)

/-- The flash list is canonical and names only addresses that exist (R51). -/
def FlashOk (s : State) : Prop :=
  Memory.wf s.flash = true ∧ ∀ c ∈ s.flash, c.1 < s.params.flashBytes

/-- The port: indices in range or the sentinel (R31), `ack` in its width (R32), and every slot from tail up to head
holds a byte (R67). -/
def PortOk (s : State) : Prop :=
  s.tail < s.params.fifoSize ∧ (s.head < s.params.fifoSize ∨ s.head = s.params.headReset) ∧ s.ack < 2 ^ s.params.ackBits
    ∧ Memory.sorted s.ring = true ∧ (∀ c ∈ s.ring, c.1 < s.params.fifoSize)
    ∧ (s.head ≠ s.params.headReset →
        ∀ k < occupancy s, (Memory.find s.ring ((s.tail + k) % s.params.fifoSize)).isSome = true)

/-- Everything at once, with well-formed parameters (R5). -/
def MachineInv (s : State) : Prop :=
  s.params.wellFormed = true ∧ LiveFields s ∧ RangesOk s ∧ AddressOk s ∧ FlashOk s ∧ PortOk s

end Sys2Proof.Safety
end

