-- ==== Sys2Proof/Certificates/Slice0/Obligations.lean ====
section
/-! DEFINITION. The statements for the provers, from the numbered rules of spec/. -/

open Sys2Proof Sys2Proof.Machine Sys2Proof.Safety

/-! ### Encoding -/

/-- R84, R87: the byte of a well-formed instruction, read in the state that reads it, is that instruction. Rests on
the spec's own inference R87 and on R84's table (decisions D9, D11, D12, D14). -/
def Obligations.DecodeOfEncodeIsTheInstruction : Prop :=
  ∀ i : Instr, i.wellFormed = true → decode i.readIn (encode i) = i

/-- R84, R87, R89: every byte decodes in every state, to a well-formed instruction of that state with that byte. Rests
on the spec's own inference R87 and on R84's table. -/
def Obligations.EncodeOfDecodeIsTheByte : Prop :=
  ∀ (st : DecoderState) (b : Byte),
    (decode st b).wellFormed = true ∧ (decode st b).readIn = st ∧ encode (decode st b) = b

/-- R82, R83: some bytes of the spec's tables and examples, with the instructions they stand for. -/
def Obligations.ExampleBytesDecode : Prop :=
  decode .opcode 0x1F#8 = .lut1 31#5 ∧ decode .opcode 0x20#8 = .lut16 0#5 ∧ decode .opcode 0x4F#8 = .tileP0 15#5
    ∧ decode .opcode 0x61#8 = .tileP1R4 1#5 ∧ decode .opcode 0x9F#8 = .tileP2R4 31#5
    ∧ decode .opcode 0xA0#8 = .tileP4R4 0#5 ∧ decode .opcode 0xC1#8 = .tileP16 1#5 ∧ decode .opcode 0xE1#8 = .address
    ∧ decode .opcode 0xF5#8 = .erase ∧ decode .opcode 0xE7#8 = .reserved 0xE7#8
    ∧ decode .addrLow 0xE1#8 = .addrLow 0xE1#8 ∧ decode .tileP1R4 0xFF#8 = .tileP1R4Data 0xFF#8

/-- R82, R83: the opcode map, by ranges of the byte. Rests on the spec's own inference R87. -/
def Obligations.OpcodeMapByRanges : Prop :=
  ∀ b : Byte, decode .opcode b =
    if b.toNat < 0x20 then .lut1 (b.extractLsb' 0 5)
    else if b.toNat < 0x40 then .lut16 (b.extractLsb' 0 5)
    else if b.toNat < 0x60 then .tileP0 (b.extractLsb' 0 5)
    else if b.toNat < 0x80 then .tileP1R4 (b.extractLsb' 0 5)
    else if b.toNat < 0xA0 then .tileP2R4 (b.extractLsb' 0 5)
    else if b.toNat < 0xC0 then .tileP4R4 (b.extractLsb' 0 5)
    else if b.toNat < 0xE0 then .tileP16 (b.extractLsb' 0 5)
    else if b.toNat = 0xE1 then .address
    else if b.toNat = 0xF5 then .erase
    else .reserved b

/-- R80, R86, R90: a whole instruction, assembled in front of any stream, is read back whole, with the stream left.
Rests on the spec's own syntax (D26), its inference R86, and the model's RLE4 rows (log entry 10). -/
def Obligations.ReadingBackAWholeInstruction : Prop :=
  ∀ (rows : List Config.R4Row) (a : Asm) (rest : List Byte),
    asmComplete rows a = true → (∀ bs, a ≠ .bytes bs) → disassemble rows (assemble a ++ rest) = some (a, rest)

/-- R86: the length of each instruction. Rests on the spec's own inference R86 and syntax (D26). -/
def Obligations.WholeInstructionLengths : Prop :=
  ∀ (rows : List Config.R4Row) (a : Asm), asmComplete rows a = true → (assemble a).length = asmLength a

/-- R86: under the run decoder of R176, an n bpp opcode of x + 1 tiles consumes 1 to 12 * n * (x + 1) data bytes.
Rests on the spec's own inference (the R4 bound) and its decisions D11, D13. -/
def Obligations.R4DataLengthIsBounded : Prop :=
  ∀ (n : Bpp) (x : BitVec 5) (data : List Byte) (k : Nat),
    r4Count [] n (r4Fresh x) data = some k → 1 ≤ k ∧ k ≤ 12 * n.bits * (x.toNat + 1)

/-! ### The step and the port -/

/-- R110, R112, R115: with a byte in the FIFO, the decoder's step takes it, advances tail and ack, and runs the
instruction the byte is in the present state. The schedule is the model's own field (log entry 8); the wrapping ack
and the atomic step are the spec's decisions D21, D22. -/
def Obligations.StepRunsTheDecodedByte : Prop :=
  ∀ (s : State) (b : Byte),
    s.fault = none → s.hung = false → decodersTurn s = true → s.head ≠ s.params.headReset → s.head ≠ s.tail →
    Memory.find s.ring s.tail = some b →
    step s = exec (decode s.state b)
      { s with
        tail := (s.tail + 1) % s.params.fifoSize
        ack := (s.ack + 1) % 2 ^ s.params.ackBits
        schedule := s.schedule.tail }

/-- The word the host places is the one the next step runs (log entry 9, the model's own convention). -/
def Obligations.StepRunsThePlacedByte : Prop :=
  ∀ (s : State) (nbits w : Nat),
    2 ≤ s.params.fifoSize → s.tail < s.params.fifoSize → s.params.fifoSize ≤ s.params.headReset →
    (s.head < s.params.fifoSize ∨ s.head = s.params.headReset) →
    ∃ t, step (s.withFetchWord nbits w) = exec (decode .opcode (BitVec.ofNat 8 w)) t ∧
      t.state = .opcode ∧ t.fault = none ∧ t.hung = false ∧ t.lut = s.lut ∧ t.flash = s.flash ∧
      t.addrValid = s.addrValid ∧ latchAddr t = latchAddr s

/-- R38, R116, R117: while the sentinel stands, the decoder's step is the reset step; it changes nothing else but the
schedule, which with the decoder's turn in it is the model's own field (log entry 8). The values, head, tail and ack,
and the check before every byte are the spec's decisions D5, D7, D18, D19. -/
def Obligations.SentinelResetsTheDecoder : Prop :=
  ∀ s : State,
    s.fault = none → s.hung = false → decodersTurn s = true → s.head = s.params.headReset →
    step s = .next
      { s with
        state := .opcode, opcode := .unset, lut := Vector.replicate 16 ⟨.unset, .unset⟩
        low := .unset, lat1 := .unset, lat2 := .unset, addrValid := false, pix := 0
        lutIndex := .unset, lutVecLo := .unset, lutVecHi := .unset, eraseCount := .unset
        rlePrev := none, rleRun := false
        p16Mask := .unset, p16Bits := 0, p16B0 := .unset, p16Last := .unset, p16HaveLast := false
        ring := [], head := 0, tail := 0, schedule := s.schedule.tail }

/-- R221: once a fault is recorded every step stops with it, and nothing else ever stops a step. The record is the
spec's decision D27; how a step reports it is the model's choice (log entry 5). -/
def Obligations.StepStopsExactlyOnARecordedFault : Prop :=
  ∀ s : State, (∀ c, step s = .fault c ↔ s.fault = some c) ∧ (∀ r, step s ≠ .refused r)

/-- R222, R224: a hung decoder stays hung and nothing of it changes; only the producer's side of the port can. Rests
on the spec's decisions D23, D27 and the model's choice of log entry 6. -/
def Obligations.HungDecoderNeverMovesAgain : Prop :=
  ∀ s t : State, s.hung = true → step s = .next t →
    t = { s with
      ring := t.ring, head := t.head, fault := t.fault, script := t.script, schedule := t.schedule }

/-- R111: with an empty FIFO the decoder's turn changes nothing but the schedule (the model's way to show an idle
decoder: log entry 7). -/
def Obligations.IdleDecoderChangesNothing : Prop :=
  ∀ (s : State) (rest : List Agent),
    s.fault = none → s.hung = false → s.head ≠ s.params.headReset → s.head = s.tail → s.schedule = .decoder :: rest →
    step s = .next { s with schedule := rest }

/-- R118, R120, R121: what a push does, in the order of its checks. Rests on the spec's decisions D17, D20, D22. -/
def Obligations.PushChecksThenStores : Prop :=
  ∀ (s : State) (v : Byte), push v s =
    if s.head = s.params.headReset then .stop { s with fault := some .pushDuringReset }
    else if (s.head + s.params.fifoSize - s.tail) % s.params.fifoSize = s.params.fifoSize - 1 then
      .stop { s with fault := some .fifoOverflow }
    else .go
      { s with ring := Memory.put s.ring s.head v, head := (s.head + 1) % s.params.fifoSize }

/-- R118, R119, R222, R262: the producer's turn performs the next action of its script, whether or not the decoder
hangs. Whose turn it is (by the schedule, or past its end while the decoder has no step) is the model's own (log entry
8), and so is that a producer with no action left has a turn that changes nothing but the schedule, where the spec
gives it no step (log entry 7); the script is the spec's decision D28. -/
def Obligations.ProducerFollowsItsScript : Prop :=
  ∀ (s : State) (turns : List Agent) (rest : List Action),
    s.fault = none →
    (s.schedule = .producer :: turns ∨ (s.schedule = [] ∧ turns = [] ∧ decoderEnabled s = false)) →
    (∀ v, s.script = .push v :: rest →
      step s = .next (push v { s with schedule := turns, script := rest }).state) ∧
    (s.script = .requestReset :: rest →
      step s = .next { s with schedule := turns, script := rest, head := s.params.headReset }) ∧
    (s.script = [] → step s = .next { s with schedule := turns })

/-- R256: FIFO_CAPACITY pushes into an empty FIFO all succeed and lie in the ring in order; the next push faults.
Rests on the spec's decision D17. -/
def Obligations.FifoHoldsExactlyItsCapacity : Prop :=
  ∀ (s : State) (bs : List Byte),
    s.params.wellFormed = true → PortOk s → s.head ≠ s.params.headReset → s.head = s.tail →
    bs.length = s.params.fifoSize - 1 →
    ∃ t, pushAll bs s = .go t ∧ t.fault = s.fault ∧ t.tail = s.tail ∧
      (∀ k, (h : k < bs.length) → Memory.find t.ring ((s.tail + k) % s.params.fifoSize) = some bs[k]) ∧
      ∀ v, push v t = .stop { t with fault := some .fifoOverflow }

/-- R38, R250, R251: the power-on state of a launch. The values are the spec's decisions D5, D7, D18, D25. -/
def Obligations.PowerOnLeavesTheResetTable : Prop :=
  ∀ (p : Config.Params) (flash : List Host.Cell) (script : List Action) (s : State),
    s = State.powerOn p flash script →
    s.state = .opcode ∧ s.opcode = .unset ∧ (∀ i : Nybble, lutEntry s i = ⟨.unset, .unset⟩) ∧
    s.low = .unset ∧ s.lat1 = .unset ∧ s.lat2 = .unset ∧ s.addrValid = false ∧ s.pix = 0 ∧
    s.lutIndex = .unset ∧ s.lutVecLo = .unset ∧ s.lutVecHi = .unset ∧ s.eraseCount = .unset ∧
    s.rlePrev = none ∧ s.rleRun = false ∧
    s.p16Mask = .unset ∧ s.p16B0 = .unset ∧ s.p16Last = .unset ∧ s.p16Bits = 0 ∧ s.p16HaveLast = false ∧
    s.head = 0 ∧ s.tail = 0 ∧ (∀ k, Memory.find s.ring k = none) ∧ s.ack = 0 ∧ s.flash = flash ∧
    s.fault = none ∧ s.hung = false ∧ powerOnReset s = s

/-! ### Bytes that set registers -/

/-- R114, R130, R150: what a RESERVED byte and the opcode bytes of ADDRESS and LUT1 do; nothing else changes. -/
def Obligations.AddressLut1AndReservedOpcodeBytes : Prop :=
  ∀ (s : State) (x : BitVec 5) (b : Byte),
    exec (.lut1 x) s = .next
      { s with opcode := .val (0b000#3 ++ x), lutIndex := .val (x.toNat % 16), state := .lut1Color1 } ∧
    exec .address s = .next { s with opcode := .val 0xE1#8, state := .addrLow } ∧
    exec (.reserved b) s = .next { s with opcode := .val b, state := .opcode }

/-- R134, R153, R177, R182: what the opcode byte of each other multi-byte opcode does; nothing else changes. Rests on
the spec's decisions D6, D9, D10, D11, D14. -/
def Obligations.OpcodeBytesStartTheirOpcodes : Prop :=
  ∀ (s : State) (x : BitVec 5),
    exec (.lut16 x) s = .next { s with opcode := .val (0b001#3 ++ x), state := .lut16Vec1 } ∧
    exec (.tileP1R4 x) s = .next
      { s with
        opcode := .val (0b011#3 ++ x), pix := (x.toNat + 1) * 64, rlePrev := none, rleRun := false
        state := .tileP1R4 } ∧
    exec (.tileP2R4 x) s = .next
      { s with
        opcode := .val (0b100#3 ++ x), pix := (x.toNat + 1) * 64, rlePrev := none, rleRun := false
        state := .tileP2R4 } ∧
    exec (.tileP4R4 x) s = .next
      { s with
        opcode := .val (0b101#3 ++ x), pix := (x.toNat + 1) * 64, rlePrev := none, rleRun := false
        state := .tileP4R4 } ∧
    exec (.tileP16 x) s = .next
      { s with
        opcode := .val (0b110#3 ++ x), pix := (x.toNat + 1) * 64, p16Bits := 0, p16HaveLast := false
        state := .tileP16Mask } ∧
    exec .erase s = .next { s with opcode := .val 0xF5#8, state := .eraseCount }

/-- R135, R152: the count byte of ERASE and the second colour byte of LUT1. -/
def Obligations.EraseCountAndSecondLut1ColourByte : Prop :=
  ∀ (s : State) (b : Byte),
    exec (.eraseCount b) s = .next { s with eraseCount := .val b, state := .eraseCheck } ∧
    ∀ (i : Nat) (h : i < 16), s.lutIndex = .val i →
      exec (.lut1Color2 b) s = .next { s with lut := s.lut.set i ⟨(s.lut[i]).b0, .val b⟩, state := .opcode }

/-- R131, R132, R154, R185: the continuation bytes that are stored as they come. Rests on the spec's decisions D2, D5,
D9, D16. -/
def Obligations.ContinuationBytesAreStored : Prop :=
  ∀ (s : State) (b : Byte),
    exec (.addrLow b) s = .next { s with lat1 := .val b, state := .addrHigh } ∧
    exec (.addrHigh b) s = .next { s with lat2 := .val b, low := .val 0#8, addrValid := true, state := .opcode } ∧
    exec (.lut16Vec1 b) s = .next { s with lutVecLo := .val b, state := .lut16Vec2 } ∧
    exec (.tileP16Low b) s = .next { s with p16B0 := .val b, state := .tileP16High }

/-- R52, R130: the three bytes E1, l1, l2 leave the address l2 l1 00, whatever it was. Rests on the spec's decisions
D2, D5. -/
def Obligations.AddressInstructionSetsTheAddress : Prop :=
  ∀ (s : State) (l1 l2 : Byte), s.state = .opcode → running s = true →
    ∃ t, feed (assemble (.address l1 l2)) s = .next t ∧
      t = { s with
        opcode := .val 0xE1#8, low := .val 0#8, lat1 := .val l1, lat2 := .val l2, addrValid := true } ∧
      latchAddr t = l2 ++ l1 ++ 0#8

/-- R53: the address advances by one modulo 2^24, with the carries. Rests on the spec's decisions D2, D3. -/
def Obligations.AddressAdvancesByOne : Prop :=
  ∀ s : State, s.addrValid = true →
    ∃ t, advanceAddr s = .go t ∧ (latchAddr t).toNat = ((latchAddr s).toNat + 1) % 2 ^ 24 ∧
      t = { s with low := t.low, lat1 := t.lat1, lat2 := t.lat2 }

/-! ### The Color-LUT -/

/-- R151, R156: a first colour byte is stored in the entry being written. Rests on the spec's decision D16. -/
def Obligations.FirstColourBytesAreStored : Prop :=
  ∀ (s : State) (b : Byte) (i : Nat) (h : i < 16), s.lutIndex = .val i →
    exec (.lut1Color1 b) s = .next
      { s with lut := s.lut.set i ⟨.val b, (s.lut[i]).b1⟩, state := .lut1Color2 } ∧
    exec (.lut16Color1 b) s = .next
      { s with lut := s.lut.set i ⟨.val b, (s.lut[i]).b1⟩, state := .lut16Color2 }

/-- R155, R159: the second vector byte stops the walk at the lowest set bit, or ends the opcode. Rests on the spec's
decision D9. -/
def Obligations.Lut16VectorFindsItsFirstEntry : Prop :=
  ∀ (s : State) (lo b : Byte), s.lutVecLo = .val lo →
    (b ++ lo = 0#16 → exec (.lut16Vec2 b) s = .next
      { s with lutVecHi := .val b, lutIndex := .val 16, state := .opcode }) ∧
    (∀ i < 16, (b ++ lo).getLsbD i = true → (∀ j < i, (b ++ lo).getLsbD j = false) →
      exec (.lut16Vec2 b) s = .next
        { s with lutVecHi := .val b, lutIndex := .val i, state := .lut16Color1 })

/-- R157, R159: the second colour byte completes its entry and the walk goes on to the next set bit, or the opcode
ends. Rests on the spec's decision D9. -/
def Obligations.Lut16SecondColourByteWalksOn : Prop :=
  ∀ (s : State) (lo hi b : Byte) (i : Nat) (h : i < 16),
    s.lutVecLo = .val lo → s.lutVecHi = .val hi → s.lutIndex = .val i →
    ((∀ j, i < j → j < 16 → (hi ++ lo).getLsbD j = false) →
      exec (.lut16Color2 b) s = .next
        { s with lut := s.lut.set i ⟨(s.lut[i]).b0, .val b⟩, lutIndex := .val 16, state := .opcode }) ∧
    (∀ k, i < k → k < 16 → (hi ++ lo).getLsbD k = true → (∀ j, i < j → j < k → (hi ++ lo).getLsbD j = false) →
      exec (.lut16Color2 b) s = .next
        { s with lut := s.lut.set i ⟨(s.lut[i]).b0, .val b⟩, lutIndex := .val k, state := .lut16Color1 })

/-- R150, R151, R152: the three bytes of a LUT1 load its entry and nothing else. Rests on the spec's decision D16. -/
def Obligations.Lut1InstructionLoadsOneEntry : Prop :=
  ∀ (s : State) (i : Nybble) (c : Colour), s.state = .opcode → running s = true →
    feed (assemble (.lut1 i c)) s = .next
      { s with
        opcode := .val (0b0000#4 ++ i), lutIndex := .val i.toNat
        lut := s.lut.set i.toNat ⟨.val c.b0, .val c.b1⟩ i.isLt }

/-- R153: the bytes of a LUT16 load the entries of the set vector bits, in ascending order, and no other entry. Rests
on the spec's decision D9. -/
def Obligations.Lut16InstructionLoadsTheSetEntries : Prop :=
  ∀ (s : State) (vec : BitVec 16) (cs : List Colour),
    s.state = .opcode → running s = true → cs.length = popcount vec →
    ∃ t, feed (assemble (.lut16 vec cs)) s = .next t ∧
      t = { s with
        opcode := .val 0x20#8, lut := t.lut, lutIndex := .val 16
        lutVecLo := .val (vec.extractLsb' 0 8), lutVecHi := .val (vec.extractLsb' 8 8) } ∧
      ∀ i : Nybble,
        if vec.getLsbD i.toNat = true then
          (lutEntry t i).colour? = cs[(List.range i.toNat).countP (fun j => vec.getLsbD j)]?
        else lutEntry t i = lutEntry s i

/-! ### ERASE -/

/-- R137: the expected check byte is (count + lat1 + lat2 - 1) mod 256. It is the spec's own inference. -/
def Obligations.EraseChecksumIdentity : Prop :=
  ∀ count lat1 lat2 : Byte,
    (eraseExpected count lat1 lat2).toNat = (count.toNat + lat1.toNat + lat2.toNat + 255) % 256

/-- R136, R203: the check byte of an ERASE. With no known address it faults; a wrong check is a no-op; a right one
erases count + 1 whole blocks from the one that holds the address, and the address is unknown after it; where a block
reaches past the flash, the blocks before it are erased and the fault is recorded. Rests on the spec's decisions D4,
D5, D6, D24. -/
def Obligations.EraseCheckByteCommitsOnlyOnTheChecksum : Prop :=
  ∀ (s : State) (b count l1 l2 : Byte),
    (s.addrValid = false → exec (.eraseCheck b) s = .next { s with fault := some .addrUnset }) ∧
    (s.addrValid = true → s.eraseCount = .val count → s.lat1 = .val l1 → s.lat2 = .val l2 →
      (b ≠ 0xFF#8 ^^^ (0#8 - count - l1 - l2) → exec (.eraseCheck b) s = .next { s with state := .opcode }) ∧
      (b = 0xFF#8 ^^^ (0#8 - count - l1 - l2) →
        ∀ size first : Nat, size = s.params.eraseBlockBytes → 0 < size → first = (latchAddr s).toNat / size →
        ((first + count.toNat + 1) * size ≤ s.params.flashBytes →
          ∃ t, exec (.eraseCheck b) s = .next t ∧
            t = { s with flash := t.flash, addrValid := false, state := .opcode } ∧
            ∀ a, Memory.read t.flash a =
              if first * size ≤ a ∧ a < (first + count.toNat + 1) * size then 0xFF#8 else Memory.read s.flash a) ∧
        (∀ m ≤ count.toNat, (∀ k < m, (first + k + 1) * size ≤ s.params.flashBytes) →
          s.params.flashBytes < (first + m + 1) * size →
          ∃ t, exec (.eraseCheck b) s = .next t ∧ t = { s with flash := t.flash, fault := some .flashRange } ∧
            ∀ a, Memory.read t.flash a =
              if first * size ≤ a ∧ a < (first + m) * size then 0xFF#8 else Memory.read s.flash a)))

/-! ### The flash programmer -/

/-- R201, R202: the three outcomes of programming a byte. Rests on the spec's decisions D4, D23. -/
def Obligations.FlashProgramOutcomes : Prop :=
  ∀ (a : Addr) (v : Byte) (s : State),
    (s.params.flashBytes ≤ a.toNat → flashProgram a v s = .stop { s with fault := some .flashRange }) ∧
    (a.toNat < s.params.flashBytes → v &&& ~~~(Memory.read s.flash a.toNat) ≠ 0#8 →
      flashProgram a v s = .stop { s with hung := true }) ∧
    (a.toNat < s.params.flashBytes → v &&& ~~~(Memory.read s.flash a.toNat) = 0#8 →
      ∃ t, flashProgram a v s = .go t ∧ t = { s with flash := t.flash } ∧
        ∀ a', Memory.read t.flash a' = if a' = a.toNat then v else Memory.read s.flash a')

/-- R61, R201, R261: a program that went through, done again, goes through and leaves the state as it is; and so of
several bytes written from an address on: a second time they ask for no 0-to-1 change and change nothing. It is the
spec's own inference. -/
def Obligations.ReprogrammingTheSameBytesIsSafe : Prop :=
  (∀ (a : Addr) (v : Byte) (s t : State), flashProgram a v s = .go t → flashProgram a v t = .go t) ∧
  ∀ (m : List Host.Cell) (a : Nat) (bs : List Byte), Memory.wf m = true →
    noZeroToOne (Memory.writeList m a bs) a bs ∧
      Memory.writeList (Memory.writeList m a bs) a bs = Memory.writeList m a bs

/-- R61, R261: an ADDRESS and then any whole instruction but an ERASE, where they ran to their end without a fault or a
hang, run again to their end and leave the state as the first run left it. It is the spec's own inference; the flash
list is in the model's canonical form (log entry 4), which every step keeps. -/
def Obligations.ReplayingAnInstructionIsSafe : Prop :=
  ∀ (s t : State) (l1 l2 : Byte) (a : Asm),
    s.state = .opcode → running s = true → Memory.wf s.flash = true →
    replayable a = true → asmComplete s.params.rle4 a = true →
    feed (assemble (.address l1 l2) ++ assemble a) s = .next t → running t = true →
    feed (assemble (.address l1 l2) ++ assemble a) t = .next t

/-- R202, R204: a program the transaction level completes ends its poll on the bus, and a program whose poll never
ends hangs, whichever bit is polled; the polled bit of an erased byte ends an erase. Rests on the spec's decisions
D23, D33; the polled bit is any (log entry 13). -/
def Obligations.BusPollAgreesWithTheTransaction : Prop :=
  ∀ (a : Addr) (v : Byte) (s : State) (bit : Fin 8), a.toNat < s.params.flashBytes →
    (∀ t, flashProgram a v s = .go t → busProgramEnds bit (Memory.read s.flash a.toNat) v = true) ∧
    (busProgramEnds bit (Memory.read s.flash a.toNat) v = false → flashProgram a v s = .stop { s with hung := true }) ∧
    pollEnds erasedByte bit true = true

/-! ### TILE_P0 -/

/-- R171, R172: TILE_P0. The index and the LUT are checked before anything is programmed; then one tile of the entry's
colour goes to the 128 bytes from the address on, b0 first, and the address advances by 128. Rests on the spec's
decisions D2 to D5, D7, D8, D15, D23. -/
def Obligations.TileP0ProgramsOneSolidTile : Prop :=
  ∀ (s : State) (x : BitVec 5),
    (16 ≤ x.toNat → exec (.tileP0 x) s = .next
      { s with opcode := .val (0b010#3 ++ x), fault := some .lutIndexRange }) ∧
    (x.toNat < 16 → (lutEntry s (x.extractLsb' 0 4)).colour? = none →
      exec (.tileP0 x) s = .next { s with opcode := .val (0b010#3 ++ x), fault := some .lutUnset }) ∧
    (∀ c, x.toNat < 16 → (lutEntry s (x.extractLsb' 0 4)).colour? = some c → s.addrValid = false →
      exec (.tileP0 x) s = .next { s with opcode := .val (0b010#3 ++ x), fault := some .addrUnset }) ∧
    (∀ c, x.toNat < 16 → (lutEntry s (x.extractLsb' 0 4)).colour? = some c →
      canEmit s (pixelBytes (List.replicate 64 c)) →
      ∃ t, exec (.tileP0 x) s = .next t ∧
        t = { s with
          opcode := .val (0b010#3 ++ x), state := .opcode
          flash := t.flash, low := t.low, lat1 := t.lat1, lat2 := t.lat2 } ∧
        latchAddr t = latchAddr s + 128#24 ∧
        (∀ k < 64, Memory.read t.flash ((latchAddr s).toNat + 2 * k) = c.b0 ∧
          Memory.read t.flash ((latchAddr s).toNat + 2 * k + 1) = c.b1) ∧
        (∀ a, a < (latchAddr s).toNat ∨ (latchAddr s).toNat + 128 ≤ a →
          Memory.read t.flash a = Memory.read s.flash a))

/-- R59, R202, R223, R227: a tile stops at its first byte that cannot be programmed (no known address; an address past
the flash, be it the tile's first; a 0 bit asked to become 1), with the record that says why: every byte before it stays
programmed, the address stands at it, and no later byte is touched. Rests on the spec's decisions D4, D5, D16, D22, D23,
D27. -/
def Obligations.TileP0StopsAtTheFirstBadByte : Prop :=
  ∀ (s : State) (x : BitVec 5) (c : Colour) (k : Nat) (r : StopRecord),
    x.toNat < 16 → (lutEntry s (x.extractLsb' 0 4)).colour? = some c → k < 128 →
    stopsAt s (pixelBytes (List.replicate 64 c)) k r →
    exec (.tileP0 x) s = .next (r.mark
      { emitted ((pixelBytes (List.replicate 64 c)).take k) s with opcode := .val (0b010#3 ++ x) })

/-! ### The R4 codecs -/

/-- R173, D12: the pixels of one nybble, low bits first. The order is the spec's decision D12. -/
def Obligations.NybblePixelsLowBitsFirst : Prop :=
  ∀ g : Nybble,
    groupIndices .one g = [0, 1, 2, 3].map (fun k => if g.getLsbD k then 1#4 else 0#4) ∧
    groupIndices .two g = [BitVec.ofNat 4 (g.toNat % 4), BitVec.ofNat 4 (g.toNat / 4)] ∧
    groupIndices .four g = [g]

/-- R176: the run decoder. The run decoder is the spec's reading (decisions D11, D13); see log entry 10 for RLE4. -/
def Obligations.R4NybbleFollowsTheRunRule : Prop :=
  ∀ (n : Bpp) (v : Nybble) (s : State), s.params.rle4 = [] →
    (s.pix = 0 → r4Nybble n v s = .go s) ∧
    (∀ g, 0 < s.pix → s.rleRun = true → s.rlePrev = some g →
      r4Nybble n v s = (repeatFlow v.toNat (emitGroup n g) s).andThen
        (fun u => .go { u with rleRun := false, rlePrev := none })) ∧
    (0 < s.pix → s.rleRun = false → s.rlePrev = some v →
      r4Nybble n v s = (emitGroup n v s).andThen (fun u => .go { u with rleRun := true })) ∧
    (0 < s.pix → s.rleRun = false → s.rlePrev ≠ some v →
      r4Nybble n v s = (emitGroup n v s).andThen (fun u => .go { u with rlePrev := some v }))

/-- R177 to R180: a data byte emits the pixels of its low nybble and then of its high nybble, up to the end of the
opcode, and leaves the run state; at the end of the opcode the state returns to OPCODE. Rests on the spec's decisions
D11, D12, D13 and log entry 10. -/
def Obligations.R4DataByteEmitsItsPixels : Prop :=
  ∀ (n : Bpp) (b : Byte) (s : State) (cs : List Colour),
    lutColours s (byteIndices s.params.rle4 n (r4Progress s) b) = some cs →
    (cs = [] ∨ canEmit s (pixelBytes cs)) →
    exec (r4DataInstr n b) s = .next
      { emittedPixels cs s with
        rleRun := (byteProgress s.params.rle4 n (r4Progress s) b).run
        rlePrev := (byteProgress s.params.rle4 n (r4Progress s) b).prev
        state := if s.pix - cs.length = 0 then .opcode else s.state }

/-- R158, R223: a data byte whose pixel reads an Unset LUT entry has programmed exactly the pixels before it and counted
them, and leaves the run state of the nybbles that were done. Rests on the spec's decisions D7, D11, D12, D27 and log
entry 10. -/
def Obligations.R4DataByteStopsAtAnUnsetEntry : Prop :=
  ∀ (n : Bpp) (b : Byte) (s : State) (before after : List Nybble) (i : Nybble) (cs : List Colour) (q : R4Progress),
    byteIndices s.params.rle4 n (r4Progress s) b = before ++ i :: after →
    lutColours s before = some cs → (lutEntry s i).colour? = none → (cs = [] ∨ canEmit s (pixelBytes cs)) →
    q = stoppedRun s.params.rle4 n (r4Progress s) b before.length →
    exec (r4DataInstr n b) s = .next
      { emittedPixels cs s with rleRun := q.run, rlePrev := q.prev, fault := some .lutUnset }

/-- R223, R227: a data byte stops at the first byte of its pixels that cannot be programmed, with the record that says
why. Every byte before it stays programmed and the address stands at it; the pixels before its own are counted, and the
run state is that of the nybbles that were done. Rests on the spec's decisions D4, D5, D11, D12, D16, D23, D27 and log
entry 10. -/
def Obligations.R4DataByteStopsAtTheFirstBadByte : Prop :=
  ∀ (n : Bpp) (b : Byte) (s : State) (before after : List Nybble) (i : Nybble) (cs : List Colour) (k : Nat)
    (r : StopRecord) (q : R4Progress),
    byteIndices s.params.rle4 n (r4Progress s) b = before ++ i :: after →
    lutColours s (before ++ [i]) = some cs → 2 * before.length ≤ k → k < 2 * (before.length + 1) →
    stopsAt s (pixelBytes cs) k r → q = stoppedRun s.params.rle4 n (r4Progress s) b before.length →
    exec (r4DataInstr n b) s = .next (r.mark
      { emitted ((pixelBytes cs).take k) s with
        pix := s.pix - before.length, rleRun := q.run, rlePrev := q.prev })

/-- R263: under the run decoder of R176 one data byte emits at most 64 pixels. The bound is the spec's own inference
from its decision D11. -/
def Obligations.R4DataByteEmitsAtMostSixtyFourPixels : Prop :=
  ∀ (n : Bpp) (b : Byte) (s t : State), s.params.rle4 = [] →
    exec (r4DataInstr n b) s = .next t → t.pix ≤ s.pix ∧ s.pix ≤ t.pix + 64

/-- R175, R177, R181: the whole of an R4 opcode, its data ending where its pixels do, programs its x + 1 tiles and
returns to OPCODE. Rests on the spec's decisions D10, D11, D12, D13 and log entry 10. -/
def Obligations.R4InstructionProgramsItsTiles : Prop :=
  ∀ (s : State) (n : Bpp) (x : BitVec 5) (data : List Byte) (cs : List Colour),
    s.state = .opcode → running s = true →
    r4Count s.params.rle4 n (r4Fresh x) data = some data.length →
    lutColours s (streamIndices s.params.rle4 n (r4Fresh x) data) = some cs →
    canEmit s (pixelBytes cs) →
    cs.length = 64 * (x.toNat + 1) ∧
      ∃ t, feed (assemble (.tileR4 n x data)) s = .next t ∧ t.state = .opcode ∧ t.pix = 0 ∧
        t.fault = none ∧ t.hung = false ∧ t.lut = s.lut ∧
        t.flash = Memory.writeList s.flash (latchAddr s).toNat (pixelBytes cs) ∧
        latchAddr t = latchAddr s + BitVec.ofNat 24 (128 * (x.toNat + 1))

/-! ### TILE_P16 -/

/-- R183, R184: a mask byte. A 0 bit before the opcode's first literal faults; else the 0 bits up to the first 1
repeat the last colour, and then a literal is awaited, or the mask is spent. Rests on the spec's decision D14. -/
def Obligations.P16MaskByteRepeatsThenWaits : Prop :=
  ∀ (s : State) (b : Byte) (z : Nat), z = zeroRun b 8 →
    (0 < z → s.p16HaveLast = false → exec (.tileP16Mask b) s = .next
      { s with p16Mask := .val b, p16Bits := 8, fault := some .p16NoColor }) ∧
    (z = 0 → exec (.tileP16Mask b) s = .next
      { s with p16Mask := .val b, p16Bits := 8, state := .tileP16Low }) ∧
    (∀ c, 0 < z → s.p16HaveLast = true → s.p16Last = .val c → canEmit s (pixelBytes (List.replicate z c)) →
      exec (.tileP16Mask b) s = .next
        (p16Settled z 8 (emitted (pixelBytes (List.replicate z c)) { s with p16Mask := .val b, p16Bits := 8 })))

/-- R184, R186: the second byte of a literal emits it, makes it the last colour, and repeats it for the 0 bits that
follow. Rests on the spec's decision D14. -/
def Obligations.P16LiteralIsEmittedAndRepeated : Prop :=
  ∀ (s : State) (b b0 mask : Byte) (z : Nat) (c : Colour),
    s.p16B0 = .val b0 → s.p16Mask = .val mask → c = ⟨b0, b⟩ → z = zeroRun (mask >>> 1) (s.p16Bits - 1) →
    canEmit s (pixelBytes (List.replicate (z + 1) c)) →
    exec (.tileP16High b) s = .next
      (p16Settled z (s.p16Bits - 1) (emitted (pixelBytes (List.replicate (z + 1) c))
        { s with
          p16Last := .val c, p16HaveLast := true, pix := s.pix - 1
          p16Mask := .val (mask >>> 1), p16Bits := s.p16Bits - 1 }))

/-- R184, R223, R227: a TILE_P16 step stops at the first byte of its pixels that cannot be programmed, with the record
that says why. Every byte before it stays programmed and the address stands at it, and the mask bits of the pixels
before its own are used up. Rests on the spec's decisions D4, D5, D14, D16, D23, D27. -/
def Obligations.P16ByteStopsAtTheFirstBadByte : Prop :=
  (∀ (s : State) (b : Byte) (z k : Nat) (c : Colour) (r : StopRecord),
    z = zeroRun b 8 → k < 2 * z → s.p16HaveLast = true → s.p16Last = .val c →
    stopsAt s (pixelBytes (List.replicate z c)) k r →
    exec (.tileP16Mask b) s = .next (r.mark (p16Stopped (pixelBytes (List.replicate z c)) k b 8 s))) ∧
  ∀ (s : State) (b b0 mask : Byte) (z k : Nat) (c : Colour) (r : StopRecord),
    s.p16B0 = .val b0 → s.p16Mask = .val mask → c = ⟨b0, b⟩ → z = zeroRun (mask >>> 1) (s.p16Bits - 1) →
    k < 2 * (z + 1) → stopsAt s (pixelBytes (List.replicate (z + 1) c)) k r →
    exec (.tileP16High b) s = .next (r.mark
      (p16Stopped (pixelBytes (List.replicate (z + 1) c)) k mask s.p16Bits
        { s with p16Last := .val c, p16HaveLast := true }))

/-- R182 to R187: the whole of a TILE_P16 programs its x + 1 tiles of literals and repeats and returns to OPCODE.
Rests on the spec's decisions D10, D14. -/
def Obligations.P16InstructionProgramsItsTiles : Prop :=
  ∀ (s : State) (x : BitVec 5) (groups : List MaskGroup) (cs : List Colour),
    s.state = .opcode → running s = true → (Asm.tileP16 x groups).wellFormed = true →
    p16Pixels groups none = some cs → canEmit s (pixelBytes cs) →
    cs.length = 64 * (x.toNat + 1) ∧
      ∃ t, feed (assemble (.tileP16 x groups)) s = .next t ∧ t.state = .opcode ∧ t.pix = 0 ∧
        t.fault = none ∧ t.hung = false ∧ t.lut = s.lut ∧
        t.flash = Memory.writeList s.flash (latchAddr s).toNat (pixelBytes cs) ∧
        latchAddr t = latchAddr s + BitVec.ofNat 24 (128 * (x.toNat + 1))

/-! ### Frames -/

/-- R51, R263 (the table of each step's work): every other instruction leaves all of flash as it is, records no fault and
no hang, and no instruction changes the parameters, the port, the script or the schedule. Rests on the flash space as
the spec decides it (D2, D4) and on its inference R263. -/
def Obligations.OtherInstructionsLeaveFlashAlone : Prop :=
  ∀ (i : Instr) (s t : State), exec i s = .next t →
    (touchesFlash i = false → t.flash = s.flash ∧ t.fault = s.fault ∧ t.hung = s.hung) ∧
      t.params = s.params ∧ t.ring = s.ring ∧ t.head = s.head ∧ t.tail = s.tail ∧ t.ack = s.ack ∧
      t.script = s.script ∧ t.schedule = s.schedule

/-- TILE_P0's frame (R161, R172): the opcode register, the decoder state, the address bytes, 128 bytes of flash from
the address on, and the records. Rests on the spec's decisions D2, D3, D8. -/
def Obligations.TileP0Frame : Prop :=
  ∀ (x : BitVec 5) (s t : State), exec (.tileP0 x) s = .next t →
    t = { s with
      opcode := t.opcode, state := t.state, flash := t.flash, low := t.low, lat1 := t.lat1, lat2 := t.lat2
      fault := t.fault, hung := t.hung } ∧
    ∀ a, (∀ k < 128, a ≠ (latchAddr s + BitVec.ofNat 24 k).toNat) →
      Memory.read t.flash a = Memory.read s.flash a

/-- The R4 data bytes' frame (R161, R181): the decoder state, `pix`, the run state, the address bytes, at most the 2 *
pix bytes of flash from the address on, and the records. Rests on the spec's decisions D2, D3, D13. -/
def Obligations.R4DataByteFrame : Prop :=
  ∀ (n : Bpp) (b : Byte) (s t : State), exec (r4DataInstr n b) s = .next t →
    t = { s with
      state := t.state, pix := t.pix, rlePrev := t.rlePrev, rleRun := t.rleRun
      flash := t.flash, low := t.low, lat1 := t.lat1, lat2 := t.lat2, fault := t.fault, hung := t.hung } ∧
    ∀ a, (∀ k < 2 * s.pix, a ≠ (latchAddr s + BitVec.ofNat 24 k).toNat) →
      Memory.read t.flash a = Memory.read s.flash a

/-- The frame of TILE_P16's emitting bytes (R182, R187): the decoder state, `pix`, the P16 scratch, the address bytes,
at most 16 bytes of flash from the address on (a mask covers eight pixels), and the records. Rests on the spec's
decisions D2, D3, D14. -/
def Obligations.P16ByteFrame : Prop :=
  ∀ (i : Instr) (b : Byte) (s t : State), i = .tileP16Mask b ∨ (i = .tileP16High b ∧ s.p16Bits ≤ 8) →
    exec i s = .next t →
    t = { s with
      state := t.state, pix := t.pix, p16Mask := t.p16Mask, p16Bits := t.p16Bits, p16Last := t.p16Last
      p16HaveLast := t.p16HaveLast, flash := t.flash, low := t.low, lat1 := t.lat1, lat2 := t.lat2
      fault := t.fault, hung := t.hung } ∧
    ∀ a, (∀ k < 16, a ≠ (latchAddr s + BitVec.ofNat 24 k).toNat) →
      Memory.read t.flash a = Memory.read s.flash a

/-! ### Whole-machine rules -/

/-- R39 and the ranges of R25 to R32: the invariant holds after power-on, with any well-formed parameters and any
canonical flash contents, and at State.reset. The live fields are the spec's own inference, but for `lat1` in
ADDR_HIGH, which R131 writes; the canonical flash is the model's form (log entry 4) and State.reset's parameters are log
entry 3. -/
def Obligations.InvariantHoldsAtPowerOn : Prop :=
  MachineInv State.reset ∧
    ∀ (p : Config.Params) (flash : List Host.Cell) (script : List Action),
      p.wellFormed = true → FlashOk (State.powerOn p flash script) → MachineInv (State.powerOn p flash script)

/-- R39 and the ranges of R25 to R32: every step keeps the invariant. The live fields and the even address are the
spec's own inferences (that `lat1` is written in ADDR_HIGH is R131's); the ranges are its decision D29; the canonical
flash is the model's form (log entry 4). -/
def Obligations.EveryStepKeepsTheInvariant : Prop :=
  ∀ s t : State, MachineInv s → step s = .next t → MachineInv t

/-- R51: every step keeps the flash canonical and inside FLASH_BYTES, from any state in which it is. The canonical
list is the model's form (log entry 4); the bound is the spec's decision D4. -/
def Obligations.EveryStepKeepsTheFlashCanonical : Prop :=
  ∀ s t : State, FlashOk s → step s = .next t → FlashOk t ∧ t.params = s.params

/-- R31, R67: every step keeps the port's indices in range and every slot between tail and head written. Rests on the
spec's decisions D17, D18, D21, D22. -/
def Obligations.EveryStepKeepsThePort : Prop :=
  ∀ s t : State, s.params.wellFormed = true → PortOk s → step s = .next t → PortOk t

/-- R51, R54, R138: a flash bit becomes 1 in no step but one that takes an ERASE check byte with a known address and the
right checksum. It is the spec's own inference (checksum rejection), for the whole machine; whose turn it is follows the
model's schedule (log entry 8). -/
def Obligations.OnlyACommittedEraseSetsBits : Prop :=
  ∀ (s t : State) (a j : Nat), step s = .next t →
    (Memory.read s.flash a).getLsbD j = false → (Memory.read t.flash a).getLsbD j = true →
    takesByte s = true ∧ s.state = .eraseCheck ∧ s.addrValid = true ∧ tailByte s = eraseExpectedOf s

/-- R161, with the bytes written as R151, R152, R156, R157 say: a LUT entry changes in no step but one that takes a
colour byte of LUT1 or LUT16 for it, which becomes its b0 or its b1, or the reset step, which leaves it Unset. Rests on
the spec's decisions D7, D9, D16, D18 (log entry 18); whose turn it is follows the model's schedule (log entry 8). -/
def Obligations.OnlyLutOpcodesWriteTheLut : Prop :=
  ∀ (s t : State) (i : Nybble), step s = .next t → lutEntry t i ≠ lutEntry s i →
    (takesReset s = true ∧ lutEntry t i = ⟨.unset, .unset⟩) ∨
    (takesByte s = true ∧ lutIndexOf s = i.toNat ∧
      ((s.state = .lut1Color1 ∨ s.state = .lut16Color1) ∧ lutEntry t i = ⟨.val (tailByte s), (lutEntry s i).b1⟩ ∨
        (s.state = .lut1Color2 ∨ s.state = .lut16Color2) ∧ lutEntry t i = ⟨(lutEntry s i).b0, .val (tailByte s)⟩))

/-- R35, R112, R116: a step that takes a byte moves the stream position by exactly one slot and counts the byte; the
reset step returns it to 0 and keeps the count; every other step leaves both. What the reset step does is the spec's
decision D18, the wrapping ack D21; whose turn it is follows the model's schedule (log entry 8). -/
def Obligations.StreamPositionMovesByOneSlot : Prop :=
  ∀ s t : State, step s = .next t →
    if takesByte s = true then
      t.tail = (s.tail + 1) % s.params.fifoSize ∧ t.ack = (s.ack + 1) % 2 ^ s.params.ackBits
    else if takesReset s = true then t.head = 0 ∧ t.tail = 0 ∧ t.ack = s.ack
    else t.tail = s.tail ∧ t.ack = s.ack

/-- R60: the decoder reads the flash for no result. Two states that differ in their flash contents alone, if neither
step hangs, answer next states that differ in their flash contents alone. The hang is the spec's decision D23. -/
def Obligations.FlashContentsSteerNothing : Prop :=
  ∀ (s t u : State) (m : List Host.Cell),
    step s = .next t → step { s with flash := m } = .next u → t.hung = false → u.hung = false →
    u = { t with flash := u.flash }

/-- R23: no rule reads the opcode register: two states that differ in it alone answer the same step but for it. -/
def Obligations.OpcodeRegisterIsNeverRead : Prop :=
  ∀ (s : State) (c : Cell Byte), forgetOpcode (step { s with opcode := c }) = forgetOpcode (step s)
end

