-- ==== Sys2Proof/Laws/Operands.lean ====
section
/-! SUPPORT. What the operand forms give: the LUT16 walk, the run decoder, sizes. -/

namespace Sys2Proof.Machine

/-- Where the walk of R159 ends: nothing but clear bits lie before it, and it ends on a set bit or past its fuel. -/
theorem lut16Walk_spec (vec : BitVec 16) (fuel i : Nat) :
    i ≤ lut16Walk vec fuel i ∧ lut16Walk vec fuel i ≤ i + fuel ∧
      (∀ j, i ≤ j → j < lut16Walk vec fuel i → vec.getLsbD j = false) ∧
      (lut16Walk vec fuel i < i + fuel → vec.getLsbD (lut16Walk vec fuel i) = true) := by
  induction fuel generalizing i with
  | zero => exact ⟨le_refl _, le_refl _, fun j h1 h2 => by simp [lut16Walk] at h2; omega, fun h => by simp [lut16Walk] at h⟩
  | succ fuel ih =>
    cases hb : vec.getLsbD i
    · obtain ⟨h1, h2, h3, h4⟩ := ih (i + 1)
      simp only [lut16Walk, hb, Bool.false_eq_true, if_false]
      refine ⟨by omega, by omega, fun j hj hj' => ?_, fun h => h4 (by omega)⟩
      rcases Nat.eq_or_lt_of_le hj with rfl | hlt
      · exact hb
      · exact h3 j hlt hj'
    · simp only [lut16Walk, hb, if_true]
      exact ⟨le_refl _, by omega, fun j h1 h2 => by omega, fun _ => by simp⟩

/-- The walk from an entry within the LUT ends within 0..16. -/
theorem lut16Target_le (vec : BitVec 16) (i : Nat) (h : i ≤ 16) : lut16Target vec i ≤ 16 := by
  have := (lut16Walk_spec vec (16 - i) i).2.1
  simp only [lut16Target, Config.lutEntries]
  omega

/-- With no row of RLE4 the run decoder is rule R176. -/
@[simp] theorem r4Decide_nil (n : Bpp) (run : Bool) (prev : Option Nybble) (v : Nybble) :
    r4Decide [] n run prev v = r4Default run prev v := rfl

/-- A group has 4, 2 or 1 pixels. -/
theorem pixelsPerGroup_bits (n : Bpp) : pixelsPerGroup n * n.bits = 4 := by cases n <;> rfl

end Sys2Proof.Machine
end

