-- ==== Sys2Proof/Laws/Memory.lean ====
section
/-! SUPPORT. Sparse byte memories: what a read gives after a write, and that every operation keeps the canonical
form. -/

namespace Sys2Proof.Machine.Memory

/-! ### Reading after writing -/

@[simp] theorem find_put (m : List Host.Cell) (a a' : Nat) (b : Byte) :
    find (put m a b) a' = if a' = a then some b else find m a' := by
  induction m with
  | nil =>
    by_cases h : a' = a
    · subst h; simp [put, find]
    · simp [put, find, h, Ne.symm h]
  | cons c rest ih =>
    by_cases h : a' = a
    · subst h
      unfold put
      by_cases h1 : a' < c.1
      · simp [h1, find]
      · by_cases h2 : c.1 = a'
        · simp [h2, find]
        · simp [h1, h2, find, ih]
    · have h' : ¬a = a' := Ne.symm h
      unfold put
      by_cases h1 : a < c.1
      · simp [h1, find, h, h']
      · by_cases h2 : c.1 = a
        · simp [h2, find, h, h']
        · simp [h1, h2, find, ih, h]

@[simp] theorem find_clear (m : List Host.Cell) (lo hi a : Nat) :
    find (clear m lo hi) a = if lo ≤ a ∧ a < hi then none else find m a := by
  induction m with
  | nil => simp [clear, find]
  | cons c rest ih =>
    simp only [clear, List.filter_cons] at ih ⊢
    by_cases hc : lo ≤ c.1 ∧ c.1 < hi
    · simp only [hc, decide_true, Bool.and_self, Bool.not_true, Bool.false_eq_true, if_false, ih, find]
      by_cases ha : c.1 = a
      · subst ha; simp [hc]
      · simp [ha]
    · have hk : (!(decide (lo ≤ c.1) && decide (c.1 < hi))) = true := by simp; omega
      simp only [hk, if_true, find, ih]
      by_cases ha : c.1 = a
      · subst ha; simp [hc]
      · simp [ha]

@[simp] theorem read_write (m : List Host.Cell) (a a' : Nat) (b : Byte) :
    read (write m a b) a' = if a' = a then b else read m a' := by
  unfold read write
  by_cases h : b = unlistedFlash
  · simp only [h, if_true, find_clear]
    by_cases ha : a' = a
    · subst ha; simp
    · rw [if_neg (show ¬(a ≤ a' ∧ a' < a + 1) by omega), if_neg ha]
  · simp only [h, if_false, find_put]
    by_cases ha : a' = a <;> simp [ha]

theorem read_clear (m : List Host.Cell) (lo hi a : Nat) :
    read (clear m lo hi) a = if lo ≤ a ∧ a < hi then erasedByte else read m a := by
  unfold read
  rw [find_clear]
  split <;> simp [unlistedFlash]

theorem read_writeList (m : List Host.Cell) (a : Nat) (bs : List Byte) (a' : Nat) :
    read (writeList m a bs) a' =
      if h : a ≤ a' ∧ a' - a < bs.length then bs[a' - a]'h.2 else read m a' := by
  induction bs generalizing m a with
  | nil => simp [writeList]
  | cons b rest ih =>
    simp only [writeList, ih, read_write, List.length_cons]
    by_cases h1 : a' = a
    · subst h1; simp
    · by_cases h2 : a + 1 ≤ a' ∧ a' - (a + 1) < rest.length
      · have h3 : a ≤ a' ∧ a' - a < rest.length + 1 := by omega
        have h4 : a' - a = (a' - (a + 1)) + 1 := by omega
        simp only [h2, h3, dif_pos, and_self]
        simp only [h4, List.getElem_cons_succ]
      · have h3 : ¬(a ≤ a' ∧ a' - a < rest.length + 1) := by omega
        rw [dif_neg h2, dif_neg h3, if_neg h1]

theorem writeList_append (m : List Host.Cell) (a : Nat) (bs cs : List Byte) :
    writeList m a (bs ++ cs) = writeList (writeList m a bs) (a + bs.length) cs := by
  induction bs generalizing m a with
  | nil => simp [writeList]
  | cons b rest ih => simp [writeList, ih, Nat.add_assoc, Nat.add_comm 1]

/-! ### The canonical form -/

/-- Listing a byte twice is listing it once, in any list. -/
@[simp] theorem put_put (m : List Host.Cell) (a : Nat) (b : Byte) : put (put m a b) a b = put m a b := by
  induction m with
  | nil => simp [put]
  | cons c rest ih =>
    rw [put]
    split_ifs with h1 h2
    · simp [put]
    · simp [put]
    · rw [put, if_neg h1, if_neg h2, ih]

@[simp] theorem clear_clear (m : List Host.Cell) (lo hi : Nat) : clear (clear m lo hi) lo hi = clear m lo hi := by
  simp [clear, List.filter_filter]

/-- Writing a byte twice is writing it once. -/
@[simp] theorem write_write (m : List Host.Cell) (a : Nat) (b : Byte) : write (write m a b) a b = write m a b := by
  unfold write
  split_ifs <;> simp

theorem mem_put {m : List Host.Cell} {a : Nat} {b : Byte} {c : Host.Cell} (h : c ∈ put m a b) :
    c = (a, b) ∨ c ∈ m := by
  induction m with
  | nil => simpa [put] using h
  | cons d rest ih =>
    simp only [put] at h
    split_ifs at h
    · simpa using h
    · rcases List.mem_cons.1 h with h | h
      · exact .inl h
      · exact .inr (List.mem_cons_of_mem _ h)
    · rcases List.mem_cons.1 h with h | h
      · exact .inr (h ▸ List.mem_cons_self)
      · exact (ih h).imp id (List.mem_cons_of_mem _)

theorem sorted_cons {c : Host.Cell} {m : List Host.Cell} :
    sorted (c :: m) = true ↔ (∀ d ∈ m, c.1 < d.1) ∧ sorted m = true := by
  simp [sorted]

theorem sorted_put {m : List Host.Cell} (hm : sorted m = true) (a : Nat) (b : Byte) : sorted (put m a b) = true := by
  induction m with
  | nil => simp [put, sorted]
  | cons c rest ih =>
    obtain ⟨hc, hr⟩ := sorted_cons.1 hm
    simp only [put]
    split_ifs with h1 h2
    · refine sorted_cons.2 ⟨fun d hd => ?_, hm⟩
      rcases List.mem_cons.1 hd with rfl | hd
      · exact h1
      · exact h1.trans (hc d hd)
    · exact sorted_cons.2 ⟨fun d hd => h2 ▸ hc d hd, hr⟩
    · refine sorted_cons.2 ⟨fun d hd => ?_, ih hr⟩
      rcases mem_put hd with rfl | hd
      · simp only; omega
      · exact hc d hd

theorem mem_clear {m : List Host.Cell} {lo hi : Nat} {c : Host.Cell} (h : c ∈ clear m lo hi) : c ∈ m :=
  List.mem_of_mem_filter h

theorem sorted_clear {m : List Host.Cell} (hm : sorted m = true) (lo hi : Nat) : sorted (clear m lo hi) = true := by
  induction m with
  | nil => simp [clear, sorted]
  | cons c rest ih =>
    obtain ⟨hc, hr⟩ := sorted_cons.1 hm
    have ih := ih hr
    simp only [clear, List.filter_cons] at ih ⊢
    split_ifs
    · exact sorted_cons.2 ⟨fun d hd => hc d (List.mem_of_mem_filter hd), ih⟩
    · exact ih

theorem wf_iff {m : List Host.Cell} :
    wf m = true ↔ sorted m = true ∧ ∀ c ∈ m, c.2 ≠ unlistedFlash := by
  simp [wf]

theorem wf_clear {m : List Host.Cell} (hm : wf m = true) (lo hi : Nat) : wf (clear m lo hi) = true := by
  obtain ⟨hs, hv⟩ := wf_iff.1 hm
  exact wf_iff.2 ⟨sorted_clear hs lo hi, fun c hc => hv c (mem_clear hc)⟩

theorem wf_write {m : List Host.Cell} (hm : wf m = true) (a : Nat) (b : Byte) : wf (write m a b) = true := by
  unfold write
  split_ifs with h
  · exact wf_clear hm _ _
  · obtain ⟨hs, hv⟩ := wf_iff.1 hm
    refine wf_iff.2 ⟨sorted_put hs a b, fun c hc => ?_⟩
    rcases mem_put hc with rfl | hc
    · exact h
    · exact hv c hc

theorem wf_writeList {m : List Host.Cell} (hm : wf m = true) (a : Nat) (bs : List Byte) :
    wf (writeList m a bs) = true := by
  induction bs generalizing m a with
  | nil => exact hm
  | cons b rest ih => exact ih (wf_write hm a b) (a + 1)

/-- A write lists no address but its own. -/
theorem mem_write {m : List Host.Cell} {a : Nat} {b : Byte} {c : Host.Cell} (h : c ∈ write m a b) :
    c.1 = a ∨ c ∈ m := by
  unfold write at h
  split_ifs at h
  · exact .inr (mem_clear h)
  · exact (mem_put h).imp (congrArg Prod.fst) id

theorem reset_flash_wf : wf State.reset.flash = true := by decide

end Sys2Proof.Machine.Memory
end

