-- ==== Sys2Proof/Laws/State.lean ====
section
/-! SUPPORT. One lemma per field for each named state update, so that no later proof unfolds a record update. -/

namespace Sys2Proof.Machine

/-! ### latchOpcode -/

@[simp] theorem latchOpcode_params (b : Byte) (s : State) : (latchOpcode b s).params = s.params := rfl
@[simp] theorem latchOpcode_state (b : Byte) (s : State) : (latchOpcode b s).state = s.state := rfl
@[simp] theorem latchOpcode_opcode (b : Byte) (s : State) : (latchOpcode b s).opcode = .val b := rfl
@[simp] theorem latchOpcode_lut (b : Byte) (s : State) : (latchOpcode b s).lut = s.lut := rfl
@[simp] theorem latchOpcode_low (b : Byte) (s : State) : (latchOpcode b s).low = s.low := rfl
@[simp] theorem latchOpcode_lat1 (b : Byte) (s : State) : (latchOpcode b s).lat1 = s.lat1 := rfl
@[simp] theorem latchOpcode_lat2 (b : Byte) (s : State) : (latchOpcode b s).lat2 = s.lat2 := rfl
@[simp] theorem latchOpcode_addrValid (b : Byte) (s : State) : (latchOpcode b s).addrValid = s.addrValid := rfl
@[simp] theorem latchOpcode_pix (b : Byte) (s : State) : (latchOpcode b s).pix = s.pix := rfl
@[simp] theorem latchOpcode_lutIndex (b : Byte) (s : State) : (latchOpcode b s).lutIndex = s.lutIndex := rfl
@[simp] theorem latchOpcode_lutVecLo (b : Byte) (s : State) : (latchOpcode b s).lutVecLo = s.lutVecLo := rfl
@[simp] theorem latchOpcode_lutVecHi (b : Byte) (s : State) : (latchOpcode b s).lutVecHi = s.lutVecHi := rfl
@[simp] theorem latchOpcode_eraseCount (b : Byte) (s : State) : (latchOpcode b s).eraseCount = s.eraseCount := rfl
@[simp] theorem latchOpcode_rlePrev (b : Byte) (s : State) : (latchOpcode b s).rlePrev = s.rlePrev := rfl
@[simp] theorem latchOpcode_rleRun (b : Byte) (s : State) : (latchOpcode b s).rleRun = s.rleRun := rfl
@[simp] theorem latchOpcode_p16Mask (b : Byte) (s : State) : (latchOpcode b s).p16Mask = s.p16Mask := rfl
@[simp] theorem latchOpcode_p16Bits (b : Byte) (s : State) : (latchOpcode b s).p16Bits = s.p16Bits := rfl
@[simp] theorem latchOpcode_p16B0 (b : Byte) (s : State) : (latchOpcode b s).p16B0 = s.p16B0 := rfl
@[simp] theorem latchOpcode_p16Last (b : Byte) (s : State) : (latchOpcode b s).p16Last = s.p16Last := rfl
@[simp] theorem latchOpcode_p16HaveLast (b : Byte) (s : State) : (latchOpcode b s).p16HaveLast = s.p16HaveLast := rfl
@[simp] theorem latchOpcode_ring (b : Byte) (s : State) : (latchOpcode b s).ring = s.ring := rfl
@[simp] theorem latchOpcode_head (b : Byte) (s : State) : (latchOpcode b s).head = s.head := rfl
@[simp] theorem latchOpcode_tail (b : Byte) (s : State) : (latchOpcode b s).tail = s.tail := rfl
@[simp] theorem latchOpcode_ack (b : Byte) (s : State) : (latchOpcode b s).ack = s.ack := rfl
@[simp] theorem latchOpcode_flash (b : Byte) (s : State) : (latchOpcode b s).flash = s.flash := rfl
@[simp] theorem latchOpcode_fault (b : Byte) (s : State) : (latchOpcode b s).fault = s.fault := rfl
@[simp] theorem latchOpcode_hung (b : Byte) (s : State) : (latchOpcode b s).hung = s.hung := rfl
@[simp] theorem latchOpcode_script (b : Byte) (s : State) : (latchOpcode b s).script = s.script := rfl
@[simp] theorem latchOpcode_schedule (b : Byte) (s : State) : (latchOpcode b s).schedule = s.schedule := rfl

/-! ### setAddr -/

@[simp] theorem setAddr_params (a : Addr) (s : State) : (setAddr a s).params = s.params := rfl
@[simp] theorem setAddr_state (a : Addr) (s : State) : (setAddr a s).state = s.state := rfl
@[simp] theorem setAddr_opcode (a : Addr) (s : State) : (setAddr a s).opcode = s.opcode := rfl
@[simp] theorem setAddr_lut (a : Addr) (s : State) : (setAddr a s).lut = s.lut := rfl
@[simp] theorem setAddr_low (a : Addr) (s : State) : (setAddr a s).low = .val (a.extractLsb' 0 8) := rfl
@[simp] theorem setAddr_lat1 (a : Addr) (s : State) : (setAddr a s).lat1 = .val (a.extractLsb' 8 8) := rfl
@[simp] theorem setAddr_lat2 (a : Addr) (s : State) : (setAddr a s).lat2 = .val (a.extractLsb' 16 8) := rfl
@[simp] theorem setAddr_addrValid (a : Addr) (s : State) : (setAddr a s).addrValid = s.addrValid := rfl
@[simp] theorem setAddr_pix (a : Addr) (s : State) : (setAddr a s).pix = s.pix := rfl
@[simp] theorem setAddr_lutIndex (a : Addr) (s : State) : (setAddr a s).lutIndex = s.lutIndex := rfl
@[simp] theorem setAddr_lutVecLo (a : Addr) (s : State) : (setAddr a s).lutVecLo = s.lutVecLo := rfl
@[simp] theorem setAddr_lutVecHi (a : Addr) (s : State) : (setAddr a s).lutVecHi = s.lutVecHi := rfl
@[simp] theorem setAddr_eraseCount (a : Addr) (s : State) : (setAddr a s).eraseCount = s.eraseCount := rfl
@[simp] theorem setAddr_rlePrev (a : Addr) (s : State) : (setAddr a s).rlePrev = s.rlePrev := rfl
@[simp] theorem setAddr_rleRun (a : Addr) (s : State) : (setAddr a s).rleRun = s.rleRun := rfl
@[simp] theorem setAddr_p16Mask (a : Addr) (s : State) : (setAddr a s).p16Mask = s.p16Mask := rfl
@[simp] theorem setAddr_p16Bits (a : Addr) (s : State) : (setAddr a s).p16Bits = s.p16Bits := rfl
@[simp] theorem setAddr_p16B0 (a : Addr) (s : State) : (setAddr a s).p16B0 = s.p16B0 := rfl
@[simp] theorem setAddr_p16Last (a : Addr) (s : State) : (setAddr a s).p16Last = s.p16Last := rfl
@[simp] theorem setAddr_p16HaveLast (a : Addr) (s : State) : (setAddr a s).p16HaveLast = s.p16HaveLast := rfl
@[simp] theorem setAddr_ring (a : Addr) (s : State) : (setAddr a s).ring = s.ring := rfl
@[simp] theorem setAddr_head (a : Addr) (s : State) : (setAddr a s).head = s.head := rfl
@[simp] theorem setAddr_tail (a : Addr) (s : State) : (setAddr a s).tail = s.tail := rfl
@[simp] theorem setAddr_ack (a : Addr) (s : State) : (setAddr a s).ack = s.ack := rfl
@[simp] theorem setAddr_flash (a : Addr) (s : State) : (setAddr a s).flash = s.flash := rfl
@[simp] theorem setAddr_fault (a : Addr) (s : State) : (setAddr a s).fault = s.fault := rfl
@[simp] theorem setAddr_hung (a : Addr) (s : State) : (setAddr a s).hung = s.hung := rfl
@[simp] theorem setAddr_script (a : Addr) (s : State) : (setAddr a s).script = s.script := rfl
@[simp] theorem setAddr_schedule (a : Addr) (s : State) : (setAddr a s).schedule = s.schedule := rfl

/-! ### popTail -/

@[simp] theorem popTail_params (s : State) : (popTail s).params = s.params := rfl
@[simp] theorem popTail_state (s : State) : (popTail s).state = s.state := rfl
@[simp] theorem popTail_opcode (s : State) : (popTail s).opcode = s.opcode := rfl
@[simp] theorem popTail_lut (s : State) : (popTail s).lut = s.lut := rfl
@[simp] theorem popTail_low (s : State) : (popTail s).low = s.low := rfl
@[simp] theorem popTail_lat1 (s : State) : (popTail s).lat1 = s.lat1 := rfl
@[simp] theorem popTail_lat2 (s : State) : (popTail s).lat2 = s.lat2 := rfl
@[simp] theorem popTail_addrValid (s : State) : (popTail s).addrValid = s.addrValid := rfl
@[simp] theorem popTail_pix (s : State) : (popTail s).pix = s.pix := rfl
@[simp] theorem popTail_lutIndex (s : State) : (popTail s).lutIndex = s.lutIndex := rfl
@[simp] theorem popTail_lutVecLo (s : State) : (popTail s).lutVecLo = s.lutVecLo := rfl
@[simp] theorem popTail_lutVecHi (s : State) : (popTail s).lutVecHi = s.lutVecHi := rfl
@[simp] theorem popTail_eraseCount (s : State) : (popTail s).eraseCount = s.eraseCount := rfl
@[simp] theorem popTail_rlePrev (s : State) : (popTail s).rlePrev = s.rlePrev := rfl
@[simp] theorem popTail_rleRun (s : State) : (popTail s).rleRun = s.rleRun := rfl
@[simp] theorem popTail_p16Mask (s : State) : (popTail s).p16Mask = s.p16Mask := rfl
@[simp] theorem popTail_p16Bits (s : State) : (popTail s).p16Bits = s.p16Bits := rfl
@[simp] theorem popTail_p16B0 (s : State) : (popTail s).p16B0 = s.p16B0 := rfl
@[simp] theorem popTail_p16Last (s : State) : (popTail s).p16Last = s.p16Last := rfl
@[simp] theorem popTail_p16HaveLast (s : State) : (popTail s).p16HaveLast = s.p16HaveLast := rfl
@[simp] theorem popTail_ring (s : State) : (popTail s).ring = s.ring := rfl
@[simp] theorem popTail_head (s : State) : (popTail s).head = s.head := rfl
@[simp] theorem popTail_tail (s : State) : (popTail s).tail = nextSlot s.params s.tail := rfl
@[simp] theorem popTail_ack (s : State) : (popTail s).ack = (s.ack + 1) % 2 ^ s.params.ackBits := rfl
@[simp] theorem popTail_flash (s : State) : (popTail s).flash = s.flash := rfl
@[simp] theorem popTail_fault (s : State) : (popTail s).fault = s.fault := rfl
@[simp] theorem popTail_hung (s : State) : (popTail s).hung = s.hung := rfl
@[simp] theorem popTail_script (s : State) : (popTail s).script = s.script := rfl
@[simp] theorem popTail_schedule (s : State) : (popTail s).schedule = s.schedule := rfl

/-! ### useMaskBit -/

@[simp] theorem useMaskBit_params (s : State) : (useMaskBit s).params = s.params := rfl
@[simp] theorem useMaskBit_state (s : State) : (useMaskBit s).state = s.state := rfl
@[simp] theorem useMaskBit_opcode (s : State) : (useMaskBit s).opcode = s.opcode := rfl
@[simp] theorem useMaskBit_lut (s : State) : (useMaskBit s).lut = s.lut := rfl
@[simp] theorem useMaskBit_low (s : State) : (useMaskBit s).low = s.low := rfl
@[simp] theorem useMaskBit_lat1 (s : State) : (useMaskBit s).lat1 = s.lat1 := rfl
@[simp] theorem useMaskBit_lat2 (s : State) : (useMaskBit s).lat2 = s.lat2 := rfl
@[simp] theorem useMaskBit_addrValid (s : State) : (useMaskBit s).addrValid = s.addrValid := rfl
@[simp] theorem useMaskBit_pix (s : State) : (useMaskBit s).pix = s.pix := rfl
@[simp] theorem useMaskBit_lutIndex (s : State) : (useMaskBit s).lutIndex = s.lutIndex := rfl
@[simp] theorem useMaskBit_lutVecLo (s : State) : (useMaskBit s).lutVecLo = s.lutVecLo := rfl
@[simp] theorem useMaskBit_lutVecHi (s : State) : (useMaskBit s).lutVecHi = s.lutVecHi := rfl
@[simp] theorem useMaskBit_eraseCount (s : State) : (useMaskBit s).eraseCount = s.eraseCount := rfl
@[simp] theorem useMaskBit_rlePrev (s : State) : (useMaskBit s).rlePrev = s.rlePrev := rfl
@[simp] theorem useMaskBit_rleRun (s : State) : (useMaskBit s).rleRun = s.rleRun := rfl
@[simp] theorem useMaskBit_p16Mask (s : State) : (useMaskBit s).p16Mask = .val (p16MaskOf s >>> 1) := rfl
@[simp] theorem useMaskBit_p16Bits (s : State) : (useMaskBit s).p16Bits = s.p16Bits - 1 := rfl
@[simp] theorem useMaskBit_p16B0 (s : State) : (useMaskBit s).p16B0 = s.p16B0 := rfl
@[simp] theorem useMaskBit_p16Last (s : State) : (useMaskBit s).p16Last = s.p16Last := rfl
@[simp] theorem useMaskBit_p16HaveLast (s : State) : (useMaskBit s).p16HaveLast = s.p16HaveLast := rfl
@[simp] theorem useMaskBit_ring (s : State) : (useMaskBit s).ring = s.ring := rfl
@[simp] theorem useMaskBit_head (s : State) : (useMaskBit s).head = s.head := rfl
@[simp] theorem useMaskBit_tail (s : State) : (useMaskBit s).tail = s.tail := rfl
@[simp] theorem useMaskBit_ack (s : State) : (useMaskBit s).ack = s.ack := rfl
@[simp] theorem useMaskBit_flash (s : State) : (useMaskBit s).flash = s.flash := rfl
@[simp] theorem useMaskBit_fault (s : State) : (useMaskBit s).fault = s.fault := rfl
@[simp] theorem useMaskBit_hung (s : State) : (useMaskBit s).hung = s.hung := rfl
@[simp] theorem useMaskBit_script (s : State) : (useMaskBit s).script = s.script := rfl
@[simp] theorem useMaskBit_schedule (s : State) : (useMaskBit s).schedule = s.schedule := rfl

/-! ### eraseBlock -/

@[simp] theorem eraseBlock_params (blk : Nat) (s : State) : (eraseBlock blk s).params = s.params := rfl
@[simp] theorem eraseBlock_state (blk : Nat) (s : State) : (eraseBlock blk s).state = s.state := rfl
@[simp] theorem eraseBlock_opcode (blk : Nat) (s : State) : (eraseBlock blk s).opcode = s.opcode := rfl
@[simp] theorem eraseBlock_lut (blk : Nat) (s : State) : (eraseBlock blk s).lut = s.lut := rfl
@[simp] theorem eraseBlock_low (blk : Nat) (s : State) : (eraseBlock blk s).low = s.low := rfl
@[simp] theorem eraseBlock_lat1 (blk : Nat) (s : State) : (eraseBlock blk s).lat1 = s.lat1 := rfl
@[simp] theorem eraseBlock_lat2 (blk : Nat) (s : State) : (eraseBlock blk s).lat2 = s.lat2 := rfl
@[simp] theorem eraseBlock_addrValid (blk : Nat) (s : State) : (eraseBlock blk s).addrValid = s.addrValid := rfl
@[simp] theorem eraseBlock_pix (blk : Nat) (s : State) : (eraseBlock blk s).pix = s.pix := rfl
@[simp] theorem eraseBlock_lutIndex (blk : Nat) (s : State) : (eraseBlock blk s).lutIndex = s.lutIndex := rfl
@[simp] theorem eraseBlock_lutVecLo (blk : Nat) (s : State) : (eraseBlock blk s).lutVecLo = s.lutVecLo := rfl
@[simp] theorem eraseBlock_lutVecHi (blk : Nat) (s : State) : (eraseBlock blk s).lutVecHi = s.lutVecHi := rfl
@[simp] theorem eraseBlock_eraseCount (blk : Nat) (s : State) : (eraseBlock blk s).eraseCount = s.eraseCount := rfl
@[simp] theorem eraseBlock_rlePrev (blk : Nat) (s : State) : (eraseBlock blk s).rlePrev = s.rlePrev := rfl
@[simp] theorem eraseBlock_rleRun (blk : Nat) (s : State) : (eraseBlock blk s).rleRun = s.rleRun := rfl
@[simp] theorem eraseBlock_p16Mask (blk : Nat) (s : State) : (eraseBlock blk s).p16Mask = s.p16Mask := rfl
@[simp] theorem eraseBlock_p16Bits (blk : Nat) (s : State) : (eraseBlock blk s).p16Bits = s.p16Bits := rfl
@[simp] theorem eraseBlock_p16B0 (blk : Nat) (s : State) : (eraseBlock blk s).p16B0 = s.p16B0 := rfl
@[simp] theorem eraseBlock_p16Last (blk : Nat) (s : State) : (eraseBlock blk s).p16Last = s.p16Last := rfl
@[simp] theorem eraseBlock_p16HaveLast (blk : Nat) (s : State) : (eraseBlock blk s).p16HaveLast = s.p16HaveLast := rfl
@[simp] theorem eraseBlock_ring (blk : Nat) (s : State) : (eraseBlock blk s).ring = s.ring := rfl
@[simp] theorem eraseBlock_head (blk : Nat) (s : State) : (eraseBlock blk s).head = s.head := rfl
@[simp] theorem eraseBlock_tail (blk : Nat) (s : State) : (eraseBlock blk s).tail = s.tail := rfl
@[simp] theorem eraseBlock_ack (blk : Nat) (s : State) : (eraseBlock blk s).ack = s.ack := rfl
@[simp] theorem eraseBlock_flash (blk : Nat) (s : State) : (eraseBlock blk s).flash = Memory.clear s.flash (blk * s.params.eraseBlockBytes) ((blk + 1) * s.params.eraseBlockBytes) := rfl
@[simp] theorem eraseBlock_fault (blk : Nat) (s : State) : (eraseBlock blk s).fault = s.fault := rfl
@[simp] theorem eraseBlock_hung (blk : Nat) (s : State) : (eraseBlock blk s).hung = s.hung := rfl
@[simp] theorem eraseBlock_script (blk : Nat) (s : State) : (eraseBlock blk s).script = s.script := rfl
@[simp] theorem eraseBlock_schedule (blk : Nat) (s : State) : (eraseBlock blk s).schedule = s.schedule := rfl

/-! ### r4Start -/

@[simp] theorem r4Start_params (x : BitVec 5) (st : DecoderState) (s : State) : (r4Start x st s).params = s.params := rfl
@[simp] theorem r4Start_state (x : BitVec 5) (st : DecoderState) (s : State) : (r4Start x st s).state = st := rfl
@[simp] theorem r4Start_opcode (x : BitVec 5) (st : DecoderState) (s : State) : (r4Start x st s).opcode = s.opcode := rfl
@[simp] theorem r4Start_lut (x : BitVec 5) (st : DecoderState) (s : State) : (r4Start x st s).lut = s.lut := rfl
@[simp] theorem r4Start_low (x : BitVec 5) (st : DecoderState) (s : State) : (r4Start x st s).low = s.low := rfl
@[simp] theorem r4Start_lat1 (x : BitVec 5) (st : DecoderState) (s : State) : (r4Start x st s).lat1 = s.lat1 := rfl
@[simp] theorem r4Start_lat2 (x : BitVec 5) (st : DecoderState) (s : State) : (r4Start x st s).lat2 = s.lat2 := rfl
@[simp] theorem r4Start_addrValid (x : BitVec 5) (st : DecoderState) (s : State) : (r4Start x st s).addrValid = s.addrValid := rfl
@[simp] theorem r4Start_pix (x : BitVec 5) (st : DecoderState) (s : State) : (r4Start x st s).pix = pixelCountArg x := rfl
@[simp] theorem r4Start_lutIndex (x : BitVec 5) (st : DecoderState) (s : State) : (r4Start x st s).lutIndex = s.lutIndex := rfl
@[simp] theorem r4Start_lutVecLo (x : BitVec 5) (st : DecoderState) (s : State) : (r4Start x st s).lutVecLo = s.lutVecLo := rfl
@[simp] theorem r4Start_lutVecHi (x : BitVec 5) (st : DecoderState) (s : State) : (r4Start x st s).lutVecHi = s.lutVecHi := rfl
@[simp] theorem r4Start_eraseCount (x : BitVec 5) (st : DecoderState) (s : State) : (r4Start x st s).eraseCount = s.eraseCount := rfl
@[simp] theorem r4Start_rlePrev (x : BitVec 5) (st : DecoderState) (s : State) : (r4Start x st s).rlePrev = none := rfl
@[simp] theorem r4Start_rleRun (x : BitVec 5) (st : DecoderState) (s : State) : (r4Start x st s).rleRun = false := rfl
@[simp] theorem r4Start_p16Mask (x : BitVec 5) (st : DecoderState) (s : State) : (r4Start x st s).p16Mask = s.p16Mask := rfl
@[simp] theorem r4Start_p16Bits (x : BitVec 5) (st : DecoderState) (s : State) : (r4Start x st s).p16Bits = s.p16Bits := rfl
@[simp] theorem r4Start_p16B0 (x : BitVec 5) (st : DecoderState) (s : State) : (r4Start x st s).p16B0 = s.p16B0 := rfl
@[simp] theorem r4Start_p16Last (x : BitVec 5) (st : DecoderState) (s : State) : (r4Start x st s).p16Last = s.p16Last := rfl
@[simp] theorem r4Start_p16HaveLast (x : BitVec 5) (st : DecoderState) (s : State) : (r4Start x st s).p16HaveLast = s.p16HaveLast := rfl
@[simp] theorem r4Start_ring (x : BitVec 5) (st : DecoderState) (s : State) : (r4Start x st s).ring = s.ring := rfl
@[simp] theorem r4Start_head (x : BitVec 5) (st : DecoderState) (s : State) : (r4Start x st s).head = s.head := rfl
@[simp] theorem r4Start_tail (x : BitVec 5) (st : DecoderState) (s : State) : (r4Start x st s).tail = s.tail := rfl
@[simp] theorem r4Start_ack (x : BitVec 5) (st : DecoderState) (s : State) : (r4Start x st s).ack = s.ack := rfl
@[simp] theorem r4Start_flash (x : BitVec 5) (st : DecoderState) (s : State) : (r4Start x st s).flash = s.flash := rfl
@[simp] theorem r4Start_fault (x : BitVec 5) (st : DecoderState) (s : State) : (r4Start x st s).fault = s.fault := rfl
@[simp] theorem r4Start_hung (x : BitVec 5) (st : DecoderState) (s : State) : (r4Start x st s).hung = s.hung := rfl
@[simp] theorem r4Start_script (x : BitVec 5) (st : DecoderState) (s : State) : (r4Start x st s).script = s.script := rfl
@[simp] theorem r4Start_schedule (x : BitVec 5) (st : DecoderState) (s : State) : (r4Start x st s).schedule = s.schedule := rfl

/-! ### requestReset -/

@[simp] theorem requestReset_params (s : State) : (requestReset s).params = s.params := rfl
@[simp] theorem requestReset_state (s : State) : (requestReset s).state = s.state := rfl
@[simp] theorem requestReset_opcode (s : State) : (requestReset s).opcode = s.opcode := rfl
@[simp] theorem requestReset_lut (s : State) : (requestReset s).lut = s.lut := rfl
@[simp] theorem requestReset_low (s : State) : (requestReset s).low = s.low := rfl
@[simp] theorem requestReset_lat1 (s : State) : (requestReset s).lat1 = s.lat1 := rfl
@[simp] theorem requestReset_lat2 (s : State) : (requestReset s).lat2 = s.lat2 := rfl
@[simp] theorem requestReset_addrValid (s : State) : (requestReset s).addrValid = s.addrValid := rfl
@[simp] theorem requestReset_pix (s : State) : (requestReset s).pix = s.pix := rfl
@[simp] theorem requestReset_lutIndex (s : State) : (requestReset s).lutIndex = s.lutIndex := rfl
@[simp] theorem requestReset_lutVecLo (s : State) : (requestReset s).lutVecLo = s.lutVecLo := rfl
@[simp] theorem requestReset_lutVecHi (s : State) : (requestReset s).lutVecHi = s.lutVecHi := rfl
@[simp] theorem requestReset_eraseCount (s : State) : (requestReset s).eraseCount = s.eraseCount := rfl
@[simp] theorem requestReset_rlePrev (s : State) : (requestReset s).rlePrev = s.rlePrev := rfl
@[simp] theorem requestReset_rleRun (s : State) : (requestReset s).rleRun = s.rleRun := rfl
@[simp] theorem requestReset_p16Mask (s : State) : (requestReset s).p16Mask = s.p16Mask := rfl
@[simp] theorem requestReset_p16Bits (s : State) : (requestReset s).p16Bits = s.p16Bits := rfl
@[simp] theorem requestReset_p16B0 (s : State) : (requestReset s).p16B0 = s.p16B0 := rfl
@[simp] theorem requestReset_p16Last (s : State) : (requestReset s).p16Last = s.p16Last := rfl
@[simp] theorem requestReset_p16HaveLast (s : State) : (requestReset s).p16HaveLast = s.p16HaveLast := rfl
@[simp] theorem requestReset_ring (s : State) : (requestReset s).ring = s.ring := rfl
@[simp] theorem requestReset_head (s : State) : (requestReset s).head = s.params.headReset := rfl
@[simp] theorem requestReset_tail (s : State) : (requestReset s).tail = s.tail := rfl
@[simp] theorem requestReset_ack (s : State) : (requestReset s).ack = s.ack := rfl
@[simp] theorem requestReset_flash (s : State) : (requestReset s).flash = s.flash := rfl
@[simp] theorem requestReset_fault (s : State) : (requestReset s).fault = s.fault := rfl
@[simp] theorem requestReset_hung (s : State) : (requestReset s).hung = s.hung := rfl
@[simp] theorem requestReset_script (s : State) : (requestReset s).script = s.script := rfl
@[simp] theorem requestReset_schedule (s : State) : (requestReset s).schedule = s.schedule := rfl

/-! ### lutWrite0 -/

@[simp] theorem lutWrite0_params (i : Nat) (b : Byte) (s : State) : (lutWrite0 i b s).params = s.params := by
  unfold lutWrite0; split <;> rfl
@[simp] theorem lutWrite0_state (i : Nat) (b : Byte) (s : State) : (lutWrite0 i b s).state = s.state := by
  unfold lutWrite0; split <;> rfl
@[simp] theorem lutWrite0_opcode (i : Nat) (b : Byte) (s : State) : (lutWrite0 i b s).opcode = s.opcode := by
  unfold lutWrite0; split <;> rfl
@[simp] theorem lutWrite0_low (i : Nat) (b : Byte) (s : State) : (lutWrite0 i b s).low = s.low := by
  unfold lutWrite0; split <;> rfl
@[simp] theorem lutWrite0_lat1 (i : Nat) (b : Byte) (s : State) : (lutWrite0 i b s).lat1 = s.lat1 := by
  unfold lutWrite0; split <;> rfl
@[simp] theorem lutWrite0_lat2 (i : Nat) (b : Byte) (s : State) : (lutWrite0 i b s).lat2 = s.lat2 := by
  unfold lutWrite0; split <;> rfl
@[simp] theorem lutWrite0_addrValid (i : Nat) (b : Byte) (s : State) : (lutWrite0 i b s).addrValid = s.addrValid := by
  unfold lutWrite0; split <;> rfl
@[simp] theorem lutWrite0_pix (i : Nat) (b : Byte) (s : State) : (lutWrite0 i b s).pix = s.pix := by
  unfold lutWrite0; split <;> rfl
@[simp] theorem lutWrite0_lutIndex (i : Nat) (b : Byte) (s : State) : (lutWrite0 i b s).lutIndex = s.lutIndex := by
  unfold lutWrite0; split <;> rfl
@[simp] theorem lutWrite0_lutVecLo (i : Nat) (b : Byte) (s : State) : (lutWrite0 i b s).lutVecLo = s.lutVecLo := by
  unfold lutWrite0; split <;> rfl
@[simp] theorem lutWrite0_lutVecHi (i : Nat) (b : Byte) (s : State) : (lutWrite0 i b s).lutVecHi = s.lutVecHi := by
  unfold lutWrite0; split <;> rfl
@[simp] theorem lutWrite0_eraseCount (i : Nat) (b : Byte) (s : State) : (lutWrite0 i b s).eraseCount = s.eraseCount := by
  unfold lutWrite0; split <;> rfl
@[simp] theorem lutWrite0_rlePrev (i : Nat) (b : Byte) (s : State) : (lutWrite0 i b s).rlePrev = s.rlePrev := by
  unfold lutWrite0; split <;> rfl
@[simp] theorem lutWrite0_rleRun (i : Nat) (b : Byte) (s : State) : (lutWrite0 i b s).rleRun = s.rleRun := by
  unfold lutWrite0; split <;> rfl
@[simp] theorem lutWrite0_p16Mask (i : Nat) (b : Byte) (s : State) : (lutWrite0 i b s).p16Mask = s.p16Mask := by
  unfold lutWrite0; split <;> rfl
@[simp] theorem lutWrite0_p16Bits (i : Nat) (b : Byte) (s : State) : (lutWrite0 i b s).p16Bits = s.p16Bits := by
  unfold lutWrite0; split <;> rfl
@[simp] theorem lutWrite0_p16B0 (i : Nat) (b : Byte) (s : State) : (lutWrite0 i b s).p16B0 = s.p16B0 := by
  unfold lutWrite0; split <;> rfl
@[simp] theorem lutWrite0_p16Last (i : Nat) (b : Byte) (s : State) : (lutWrite0 i b s).p16Last = s.p16Last := by
  unfold lutWrite0; split <;> rfl
@[simp] theorem lutWrite0_p16HaveLast (i : Nat) (b : Byte) (s : State) : (lutWrite0 i b s).p16HaveLast = s.p16HaveLast := by
  unfold lutWrite0; split <;> rfl
@[simp] theorem lutWrite0_ring (i : Nat) (b : Byte) (s : State) : (lutWrite0 i b s).ring = s.ring := by
  unfold lutWrite0; split <;> rfl
@[simp] theorem lutWrite0_head (i : Nat) (b : Byte) (s : State) : (lutWrite0 i b s).head = s.head := by
  unfold lutWrite0; split <;> rfl
@[simp] theorem lutWrite0_tail (i : Nat) (b : Byte) (s : State) : (lutWrite0 i b s).tail = s.tail := by
  unfold lutWrite0; split <;> rfl
@[simp] theorem lutWrite0_ack (i : Nat) (b : Byte) (s : State) : (lutWrite0 i b s).ack = s.ack := by
  unfold lutWrite0; split <;> rfl
@[simp] theorem lutWrite0_flash (i : Nat) (b : Byte) (s : State) : (lutWrite0 i b s).flash = s.flash := by
  unfold lutWrite0; split <;> rfl
@[simp] theorem lutWrite0_fault (i : Nat) (b : Byte) (s : State) : (lutWrite0 i b s).fault = s.fault := by
  unfold lutWrite0; split <;> rfl
@[simp] theorem lutWrite0_hung (i : Nat) (b : Byte) (s : State) : (lutWrite0 i b s).hung = s.hung := by
  unfold lutWrite0; split <;> rfl
@[simp] theorem lutWrite0_script (i : Nat) (b : Byte) (s : State) : (lutWrite0 i b s).script = s.script := by
  unfold lutWrite0; split <;> rfl
@[simp] theorem lutWrite0_schedule (i : Nat) (b : Byte) (s : State) : (lutWrite0 i b s).schedule = s.schedule := by
  unfold lutWrite0; split <;> rfl

/-! ### lutWrite1 -/

@[simp] theorem lutWrite1_params (i : Nat) (b : Byte) (s : State) : (lutWrite1 i b s).params = s.params := by
  unfold lutWrite1; split <;> rfl
@[simp] theorem lutWrite1_state (i : Nat) (b : Byte) (s : State) : (lutWrite1 i b s).state = s.state := by
  unfold lutWrite1; split <;> rfl
@[simp] theorem lutWrite1_opcode (i : Nat) (b : Byte) (s : State) : (lutWrite1 i b s).opcode = s.opcode := by
  unfold lutWrite1; split <;> rfl
@[simp] theorem lutWrite1_low (i : Nat) (b : Byte) (s : State) : (lutWrite1 i b s).low = s.low := by
  unfold lutWrite1; split <;> rfl
@[simp] theorem lutWrite1_lat1 (i : Nat) (b : Byte) (s : State) : (lutWrite1 i b s).lat1 = s.lat1 := by
  unfold lutWrite1; split <;> rfl
@[simp] theorem lutWrite1_lat2 (i : Nat) (b : Byte) (s : State) : (lutWrite1 i b s).lat2 = s.lat2 := by
  unfold lutWrite1; split <;> rfl
@[simp] theorem lutWrite1_addrValid (i : Nat) (b : Byte) (s : State) : (lutWrite1 i b s).addrValid = s.addrValid := by
  unfold lutWrite1; split <;> rfl
@[simp] theorem lutWrite1_pix (i : Nat) (b : Byte) (s : State) : (lutWrite1 i b s).pix = s.pix := by
  unfold lutWrite1; split <;> rfl
@[simp] theorem lutWrite1_lutIndex (i : Nat) (b : Byte) (s : State) : (lutWrite1 i b s).lutIndex = s.lutIndex := by
  unfold lutWrite1; split <;> rfl
@[simp] theorem lutWrite1_lutVecLo (i : Nat) (b : Byte) (s : State) : (lutWrite1 i b s).lutVecLo = s.lutVecLo := by
  unfold lutWrite1; split <;> rfl
@[simp] theorem lutWrite1_lutVecHi (i : Nat) (b : Byte) (s : State) : (lutWrite1 i b s).lutVecHi = s.lutVecHi := by
  unfold lutWrite1; split <;> rfl
@[simp] theorem lutWrite1_eraseCount (i : Nat) (b : Byte) (s : State) : (lutWrite1 i b s).eraseCount = s.eraseCount := by
  unfold lutWrite1; split <;> rfl
@[simp] theorem lutWrite1_rlePrev (i : Nat) (b : Byte) (s : State) : (lutWrite1 i b s).rlePrev = s.rlePrev := by
  unfold lutWrite1; split <;> rfl
@[simp] theorem lutWrite1_rleRun (i : Nat) (b : Byte) (s : State) : (lutWrite1 i b s).rleRun = s.rleRun := by
  unfold lutWrite1; split <;> rfl
@[simp] theorem lutWrite1_p16Mask (i : Nat) (b : Byte) (s : State) : (lutWrite1 i b s).p16Mask = s.p16Mask := by
  unfold lutWrite1; split <;> rfl
@[simp] theorem lutWrite1_p16Bits (i : Nat) (b : Byte) (s : State) : (lutWrite1 i b s).p16Bits = s.p16Bits := by
  unfold lutWrite1; split <;> rfl
@[simp] theorem lutWrite1_p16B0 (i : Nat) (b : Byte) (s : State) : (lutWrite1 i b s).p16B0 = s.p16B0 := by
  unfold lutWrite1; split <;> rfl
@[simp] theorem lutWrite1_p16Last (i : Nat) (b : Byte) (s : State) : (lutWrite1 i b s).p16Last = s.p16Last := by
  unfold lutWrite1; split <;> rfl
@[simp] theorem lutWrite1_p16HaveLast (i : Nat) (b : Byte) (s : State) : (lutWrite1 i b s).p16HaveLast = s.p16HaveLast := by
  unfold lutWrite1; split <;> rfl
@[simp] theorem lutWrite1_ring (i : Nat) (b : Byte) (s : State) : (lutWrite1 i b s).ring = s.ring := by
  unfold lutWrite1; split <;> rfl
@[simp] theorem lutWrite1_head (i : Nat) (b : Byte) (s : State) : (lutWrite1 i b s).head = s.head := by
  unfold lutWrite1; split <;> rfl
@[simp] theorem lutWrite1_tail (i : Nat) (b : Byte) (s : State) : (lutWrite1 i b s).tail = s.tail := by
  unfold lutWrite1; split <;> rfl
@[simp] theorem lutWrite1_ack (i : Nat) (b : Byte) (s : State) : (lutWrite1 i b s).ack = s.ack := by
  unfold lutWrite1; split <;> rfl
@[simp] theorem lutWrite1_flash (i : Nat) (b : Byte) (s : State) : (lutWrite1 i b s).flash = s.flash := by
  unfold lutWrite1; split <;> rfl
@[simp] theorem lutWrite1_fault (i : Nat) (b : Byte) (s : State) : (lutWrite1 i b s).fault = s.fault := by
  unfold lutWrite1; split <;> rfl
@[simp] theorem lutWrite1_hung (i : Nat) (b : Byte) (s : State) : (lutWrite1 i b s).hung = s.hung := by
  unfold lutWrite1; split <;> rfl
@[simp] theorem lutWrite1_script (i : Nat) (b : Byte) (s : State) : (lutWrite1 i b s).script = s.script := by
  unfold lutWrite1; split <;> rfl
@[simp] theorem lutWrite1_schedule (i : Nat) (b : Byte) (s : State) : (lutWrite1 i b s).schedule = s.schedule := by
  unfold lutWrite1; split <;> rfl

end Sys2Proof.Machine
end

