-- ==== Sys2Proof/Laws/Ops.lean ====
section
/-! SUPPORT. What each shared operation can do, said once: sequencing, the flash programmer, emission. -/

namespace Sys2Proof.Machine

open Sys2Proof.Safety

/-! ### Sequencing -/

@[simp] theorem Flow.andThen_go (s : State) (k : State → Flow) : (Flow.go s).andThen k = k s := rfl
@[simp] theorem Flow.andThen_stop (s : State) (k : State → Flow) : (Flow.stop s).andThen k = .stop s := rfl
@[simp] theorem Flow.state_go (s : State) : (Flow.go s).state = s := rfl
@[simp] theorem Flow.state_stop (s : State) : (Flow.stop s).state = s := rfl
@[simp] theorem Flow.outcome_go (s : State) : (Flow.go s).outcome = .next s := rfl
@[simp] theorem Flow.outcome_stop (s : State) : (Flow.stop s).outcome = .next s := rfl

theorem Flow.andThen_assoc (f : Flow) (k l : State → Flow) :
    (f.andThen k).andThen l = f.andThen (fun s => (k s).andThen l) := by
  cases f <;> rfl

@[simp] theorem StopRecord.mark_fault (c : Fault) (s : State) :
    (StopRecord.fault c).mark s = { s with fault := some c } := rfl
@[simp] theorem StopRecord.mark_hang (s : State) : StopRecord.hang.mark s = { s with hung := true } := rfl

/-! ### Bytes -/

/-- A program that asks for no 0-to-1 change stores exactly the byte asked for (R201). -/
theorem and_eq_of_noZeroToOne {old v : Byte} (h : v &&& ~~~old = 0#8) : old &&& v = v := by
  apply BitVec.eq_of_getLsbD_eq
  intro i hi
  have hb := congrArg (fun w : Byte => w.getLsbD i) h
  simp only [BitVec.getLsbD_and, BitVec.getLsbD_not, BitVec.getLsbD_zero, hi, decide_true, Bool.true_and] at hb ⊢
  cases hv : v.getLsbD i <;> simp_all

/-! ### The flash programmer -/

/-- Everything a program can do (R201, R202). -/
theorem flashProgram_cases (a : Addr) (v : Byte) (s : State) :
    (s.params.flashBytes ≤ a.toNat ∧ flashProgram a v s = raise .flashRange s) ∨
    (a.toNat < s.params.flashBytes ∧ v &&& ~~~(Memory.read s.flash a.toNat) ≠ 0#8 ∧ flashProgram a v s = hang s) ∨
    (a.toNat < s.params.flashBytes ∧ v &&& ~~~(Memory.read s.flash a.toNat) = 0#8 ∧
      flashProgram a v s = .go { s with flash := Memory.write s.flash a.toNat v }) := by
  unfold flashProgram
  split_ifs with h1 h2
  · exact .inl ⟨h1, rfl⟩
  · exact .inr (.inl ⟨not_le.1 h1, h2, rfl⟩)
  · refine .inr (.inr ⟨not_le.1 h1, not_not.1 h2, ?_⟩)
    rw [and_eq_of_noZeroToOne (not_not.1 h2)]

/-- Everything an erase run of `n` blocks from `blk` can do (R203): with all `n` in range it goes through, with the
block after `m` of them out of range it stops there; either way exactly the `m` blocks before are erased. -/
theorem eraseRun_reads (n m blk : Nat) (s : State) (hm : m ≤ n)
    (hin : ∀ k < m, (blk + k + 1) * s.params.eraseBlockBytes ≤ s.params.flashBytes)
    (hout : m < n → s.params.flashBytes < (blk + m + 1) * s.params.eraseBlockBytes) :
    ∃ f, (eraseRun n blk s = if m = n then .go { s with flash := f }
        else .stop { s with flash := f, fault := some .flashRange }) ∧
      ∀ a, Memory.read f a =
        if blk * s.params.eraseBlockBytes ≤ a ∧ a < (blk + m) * s.params.eraseBlockBytes then erasedByte
        else Memory.read s.flash a := by
  induction n generalizing m blk s with
  | zero =>
    obtain rfl : m = 0 := by omega
    exact ⟨s.flash, rfl, fun a => by rw [if_neg (by simp)]⟩
  | succ n ih =>
    rcases m with _ | m
    · refine ⟨s.flash, ?_, fun a => by rw [if_neg (by simp)]⟩
      have := hout (by omega)
      simp only [Nat.add_zero] at this
      simp [eraseRun, this, raise]
    · have h0 := hin 0 (by omega)
      simp only [Nat.add_zero] at h0
      obtain ⟨f, hf, hr⟩ := ih m (blk + 1) (eraseBlock blk s) (by omega)
        (fun k hk => by simpa [Nat.add_assoc, Nat.add_comm, Nat.add_left_comm] using hin (k + 1) (by omega))
        (fun h => by simpa [Nat.add_assoc, Nat.add_comm, Nat.add_left_comm] using hout (by omega))
      refine ⟨f, ?_, fun a => ?_⟩
      · simp only [eraseRun, not_lt.2 h0, if_false, hf, Nat.succ.injEq]
        rfl
      · rw [hr a]
        simp only [eraseBlock_params, eraseBlock_flash, Memory.read_clear]
        have e1 : (blk + 1 + m) * s.params.eraseBlockBytes = (blk + (m + 1)) * s.params.eraseBlockBytes := by
          congr 1; omega
        have e2 : blk * s.params.eraseBlockBytes ≤ (blk + 1) * s.params.eraseBlockBytes := by
          apply Nat.mul_le_mul_right; omega
        have e3 : (blk + 1) * s.params.eraseBlockBytes ≤ (blk + (m + 1)) * s.params.eraseBlockBytes := by
          apply Nat.mul_le_mul_right; omega
        rw [e1]
        split_ifs <;> first | rfl | omega

/-! ### The address register -/

@[simp] theorem latchAddr_setAddr (a : Addr) (s : State) : latchAddr (setAddr a s) = a := by
  simp only [latchAddr, setAddr, Cell.read]
  apply BitVec.eq_of_getLsbD_eq
  intro i hi
  simp only [BitVec.getLsbD_append, BitVec.getLsbD_extractLsb']
  by_cases h1 : i < 8
  · simp [h1]
  · by_cases h2 : i - 8 < 8
    · simp only [h1, h2, decide_true, Bool.true_and, if_true, if_false, decide_false]
      congr 1; omega
    · simp only [h1, h2, decide_false, if_false]
      have : i - 8 - 8 < 8 := by omega
      simp only [this, decide_true, Bool.true_and]
      congr 1; omega

/-! ### Emission -/

@[simp] theorem emitted_nil (s : State) : emitted [] s = s := by simp [emitted]

@[simp] theorem pixelBytes_nil : pixelBytes [] = [] := rfl

@[simp] theorem pixelBytes_cons (c : Colour) (cs : List Colour) :
    pixelBytes (c :: cs) = colourBytes c ++ pixelBytes cs := rfl

theorem pixelBytes_append (cs ds : List Colour) : pixelBytes (cs ++ ds) = pixelBytes cs ++ pixelBytes ds := by
  simp [pixelBytes]

@[simp] theorem pixelBytes_length (cs : List Colour) : (pixelBytes cs).length = 2 * cs.length := by
  induction cs with
  | nil => rfl
  | cons c cs ih => simp [colourBytes, ih]; omega

/-- Emission changes the flash and the address bytes, nothing else. -/
theorem emitted_frame (bs : List Byte) (s : State) :
    emitted bs s = { s with
      flash := (emitted bs s).flash, low := (emitted bs s).low, lat1 := (emitted bs s).lat1
      lat2 := (emitted bs s).lat2 } := by
  unfold emitted; split_ifs <;> rfl

theorem emitted_flash (bs : List Byte) (s : State) :
    (emitted bs s).flash = Memory.writeList s.flash (latchAddr s).toNat bs := by
  unfold emitted
  split_ifs with h
  · subst h; rfl
  · rfl

theorem emitted_latchAddr (bs : List Byte) (s : State) :
    latchAddr (emitted bs s) = latchAddr s + BitVec.ofNat 24 bs.length := by
  unfold emitted
  split_ifs with h
  · subst h; simp
  · simp

@[simp] theorem emitted_addrValid (bs : List Byte) (s : State) : (emitted bs s).addrValid = s.addrValid := by
  rw [emitted_frame]
@[simp] theorem emitted_params (bs : List Byte) (s : State) : (emitted bs s).params = s.params := by
  rw [emitted_frame]
@[simp] theorem emitted_lut (bs : List Byte) (s : State) : (emitted bs s).lut = s.lut := by
  rw [emitted_frame]
@[simp] theorem emitted_pix (bs : List Byte) (s : State) : (emitted bs s).pix = s.pix := by
  rw [emitted_frame]

theorem emitted_append {bs cs : List Byte} {s : State} (hb : canEmit s (bs ++ cs)) :
    emitted cs (emitted bs s) = emitted (bs ++ cs) s := by
  obtain ⟨_, hr, hm, _⟩ := hb
  rcases eq_or_ne cs [] with rfl | hc
  · simp
  · rcases eq_or_ne bs [] with rfl | hb'
    · simp
    · have hlen : (latchAddr s).toNat + bs.length < 2 ^ 24 := by
        have : 0 < cs.length := List.length_pos_iff.2 hc
        simp only [List.length_append, Config.maxFlashBytes] at hr hm; omega
      have ha : (latchAddr s + BitVec.ofNat 24 bs.length).toNat = (latchAddr s).toNat + bs.length := by
        rw [BitVec.toNat_add, BitVec.toNat_ofNat]; omega
      have hcat : bs ++ cs ≠ [] := by simp [hc]
      simp only [emitted, hb', hc, hcat, if_false, latchAddr_setAddr, ha, setAddr_flash, Memory.writeList_append,
        List.length_append, BitVec.ofNat_add, BitVec.add_assoc]
      rfl

theorem canEmit_left {bs cs : List Byte} {s : State} (h : canEmit s (bs ++ cs)) : canEmit s bs := by
  obtain ⟨hv, hr, hm, hz⟩ := h
  refine ⟨hv, by simp only [List.length_append] at hr; omega, hm, fun k hk => ?_⟩
  have := hz k (by simp; omega)
  rwa [List.getElem_append_left hk] at this

theorem canEmit_right {bs cs : List Byte} {s : State} (h : canEmit s (bs ++ cs)) (hc : cs ≠ []) :
    canEmit (emitted bs s) cs := by
  obtain ⟨hv, hr, hm, hz⟩ := h
  have hpos : 0 < cs.length := List.length_pos_iff.2 hc
  simp only [List.length_append, Config.maxFlashBytes] at hr hm
  have ha : (latchAddr (emitted bs s)).toNat = (latchAddr s).toNat + bs.length := by
    rw [emitted_latchAddr, BitVec.toNat_add, BitVec.toNat_ofNat]; omega
  refine ⟨by simpa using hv, by simpa [ha] using (by omega), by simpa [Config.maxFlashBytes] using hm, fun k hk => ?_⟩
  rw [ha, emitted_flash, Memory.read_writeList, dif_neg (by omega)]
  have := hz (bs.length + k) (by simp; omega)
  rw [List.getElem_append_right (by omega)] at this
  simpa [Nat.add_assoc] using this

/-- Everything emitting one byte can do (R170, R227): the address is asked for, then the range is checked, then the
bits, and only then is a byte stored and the address advanced. -/
theorem emitByte_cases (v : Byte) (s : State) :
    (s.addrValid = false ∧ emitByte v s = raise .addrUnset s) ∨
    (s.addrValid = true ∧ s.params.flashBytes ≤ (latchAddr s).toNat ∧ emitByte v s = raise .flashRange s) ∨
    (s.addrValid = true ∧ v &&& ~~~(Memory.read s.flash (latchAddr s).toNat) ≠ 0#8 ∧ emitByte v s = hang s) ∨
    (s.addrValid = true ∧ (latchAddr s).toNat < s.params.flashBytes ∧
      v &&& ~~~(Memory.read s.flash (latchAddr s).toNat) = 0#8 ∧
      emitByte v s = .go (setAddr (latchAddr s + 1)
        { s with flash := Memory.write s.flash (latchAddr s).toNat v })) := by
  cases hv : s.addrValid
  · exact .inl ⟨rfl, by simp [emitByte, withFlashAddr, hv]⟩
  · rcases flashProgram_cases (latchAddr s) v s with ⟨h1, hx⟩ | ⟨_, h1, hx⟩ | ⟨h1, h2, hx⟩
    · exact .inr (.inl ⟨rfl, h1, by simp [emitByte, withFlashAddr, hv, hx, raise]⟩)
    · exact .inr (.inr (.inl ⟨rfl, h1, by simp [emitByte, withFlashAddr, hv, hx, hang]⟩))
    · refine .inr (.inr (.inr ⟨rfl, h1, h2, ?_⟩))
      simp only [emitByte, withFlashAddr, hv, if_true, hx, Flow.andThen_go, advanceAddr]
      rfl

theorem emitByte_ok {v : Byte} {s : State} (h : canEmit s [v]) : emitByte v s = .go (emitted [v] s) := by
  obtain ⟨hv, hr, hm, hz⟩ := h
  have hz := hz 0 (by simp)
  simp only [List.getElem_cons_zero, Nat.add_zero] at hz
  simp only [List.length_singleton] at hr
  rcases emitByte_cases v s with ⟨hx, _⟩ | ⟨_, hx, _⟩ | ⟨_, hx, _⟩ | ⟨_, _, _, hx⟩
  · simp [hv] at hx
  · omega
  · exact absurd hz hx
  · rw [hx]; rfl

theorem emitColor_ok {c : Colour} {s : State} (h : canEmit s (colourBytes c)) :
    emitColor c s = .go (emitted (colourBytes c) s) := by
  have h' : canEmit s ([c.b0] ++ [c.b1]) := h
  rw [emitColor, emitByte_ok (canEmit_left h'), Flow.andThen_go, emitByte_ok (canEmit_right h' (by simp)),
    emitted_append h']
  rfl

theorem emitTilePixel_ok {c : Colour} {s : State} (h : canEmit s (colourBytes c)) :
    emitTilePixel c s = .go (emittedPixels [c] s) := by
  rw [emitTilePixel, emitColor_ok h]
  simp [emittedPixels]

/-- What emission of any kind can touch, whether it goes through or stops. -/
def OnlyEmits (s t : State) : Prop :=
  t = { s with
    flash := t.flash, low := t.low, lat1 := t.lat1, lat2 := t.lat2, pix := t.pix, fault := t.fault, hung := t.hung }

theorem OnlyEmits.refl (s : State) : OnlyEmits s s := rfl

theorem OnlyEmits.trans {s t u : State} (h1 : OnlyEmits s t) (h2 : OnlyEmits t u) : OnlyEmits s u := by
  unfold OnlyEmits at *
  rw [h2, h1]

theorem emitByte_onlyEmits (v : Byte) (s : State) : OnlyEmits s (emitByte v s).state := by
  rcases emitByte_cases v s with ⟨_, h⟩ | ⟨_, _, h⟩ | ⟨_, _, h⟩ | ⟨_, _, _, h⟩ <;> rw [h] <;> rfl

theorem Flow.andThen_onlyEmits {s : State} {f : Flow} {k : State → Flow} (hf : OnlyEmits s f.state)
    (hk : ∀ u, OnlyEmits u (k u).state) : OnlyEmits s (f.andThen k).state := by
  cases f with
  | go u => exact hf.trans (hk u)
  | stop u => exact hf

theorem emitColor_onlyEmits (c : Colour) (s : State) : OnlyEmits s (emitColor c s).state :=
  Flow.andThen_onlyEmits (emitByte_onlyEmits _ _) (emitByte_onlyEmits _)

theorem emitTilePixel_onlyEmits (c : Colour) (s : State) : OnlyEmits s (emitTilePixel c s).state :=
  Flow.andThen_onlyEmits (emitColor_onlyEmits _ _) (fun _ => rfl)

theorem withLutRead_onlyEmits (i : Nybble) (s : State) (k : Colour → Flow) (hk : ∀ c, OnlyEmits s (k c).state) :
    OnlyEmits s (withLutRead i s k).state := by
  unfold withLutRead
  split
  · exact hk _
  · rfl

theorem emitGroupFrom_onlyEmits (n : Bpp) (g : Nybble) (m k : Nat) (s : State) :
    OnlyEmits s (emitGroupFrom n g m k s).state := by
  induction m generalizing k s with
  | zero => rfl
  | succ m ih =>
    simp only [emitGroupFrom]
    split_ifs
    · rfl
    · exact Flow.andThen_onlyEmits (withLutRead_onlyEmits _ _ _ (fun c => emitTilePixel_onlyEmits c s)) (ih _)

theorem emitGroups_onlyEmits (n : Bpp) (gs : List Nybble) (s : State) : OnlyEmits s (emitGroups n gs s).state := by
  induction gs generalizing s with
  | nil => rfl
  | cons g rest ih => exact Flow.andThen_onlyEmits (emitGroupFrom_onlyEmits _ _ _ _ _) ih

end Sys2Proof.Machine
end

