-- ==== Sys2Proof/Laws/Emit.lean ====
section
/-! SUPPORT. Emission of many pixels, said once: whatever emits the pixels of a list of colours leaves
`emittedPixels`. -/

namespace Sys2Proof.Machine

open Sys2Proof.Safety

@[simp] theorem emittedPixels_nil (s : State) : emittedPixels [] s = s := by simp [emittedPixels]

@[simp] theorem emittedPixels_pix (cs : List Colour) (s : State) : (emittedPixels cs s).pix = s.pix - cs.length := rfl

@[simp] theorem emittedPixels_lut (cs : List Colour) (s : State) : (emittedPixels cs s).lut = s.lut := by
  simp [emittedPixels]

/-- Emission does not depend on `pix`. -/
theorem emitted_setPix (bs : List Byte) (s : State) (p : Nat) :
    emitted bs { s with pix := p } = { emitted bs s with pix := p } := by
  unfold emitted
  split_ifs <;> rfl

theorem canEmit_setPix {bs : List Byte} {s : State} {p : Nat} :
    canEmit { s with pix := p } bs ↔ canEmit s bs := Iff.rfl

/-- Emitting two lists of pixels, one after the other. -/
theorem emittedPixels_append {cs ds : List Colour} {s : State} (h : canEmit s (pixelBytes (cs ++ ds))) :
    emittedPixels ds (emittedPixels cs s) = emittedPixels (cs ++ ds) s := by
  rw [pixelBytes_append] at h
  unfold emittedPixels
  rw [emitted_setPix, emitted_append h, ← pixelBytes_append]
  simp [Nat.sub_sub]

theorem canEmit_pixels_right {cs ds : List Colour} {s : State} (h : canEmit s (pixelBytes (cs ++ ds)))
    (hd : ds ≠ []) : canEmit (emittedPixels cs s) (pixelBytes ds) := by
  rw [pixelBytes_append] at h
  refine canEmit_setPix.2 (canEmit_right h ?_)
  intro he
  have := congrArg List.length he
  simp only [pixelBytes_length, List.length_nil] at this
  exact hd (List.length_eq_zero_iff.1 (by omega))

theorem canEmit_pixels_left {cs ds : List Colour} {s : State} (h : canEmit s (pixelBytes (cs ++ ds))) :
    canEmit s (pixelBytes cs) := by
  rw [pixelBytes_append] at h
  exact canEmit_left h

@[simp] theorem lutColours_nil (s : State) : lutColours s [] = some [] := rfl

theorem lutColours_cons_some {s : State} {i : Nybble} {is : List Nybble} {cs : List Colour} :
    lutColours s (i :: is) = some cs ↔
      ∃ c ds, (lutEntry s i).colour? = some c ∧ lutColours s is = some ds ∧ cs = c :: ds := by
  simp only [lutColours, List.mapM_cons, Option.bind_eq_bind, Option.bind_eq_some_iff, Option.pure_def,
    Option.some.injEq]
  constructor
  · rintro ⟨c, h1, ds, h2, h3⟩; exact ⟨c, ds, h1, h2, h3.symm⟩
  · rintro ⟨c, ds, h1, h2, h3⟩; exact ⟨c, h1, ds, h2, h3.symm⟩

theorem lutColours_append_some {s : State} {is js : List Nybble} {cs : List Colour} :
    lutColours s (is ++ js) = some cs ↔
      ∃ ds es, lutColours s is = some ds ∧ lutColours s js = some es ∧ cs = ds ++ es := by
  simp only [lutColours, List.mapM_append, Option.bind_eq_bind, Option.bind_eq_some_iff, Option.pure_def,
    Option.some.injEq]
  constructor
  · rintro ⟨ds, h1, es, h2, h3⟩; exact ⟨ds, es, h1, h2, h3.symm⟩
  · rintro ⟨ds, es, h1, h2, h3⟩; exact ⟨ds, h1, es, h2, h3.symm⟩

theorem lutColours_length {s : State} {is : List Nybble} {cs : List Colour} (h : lutColours s is = some cs) :
    cs.length = is.length := by
  induction is generalizing cs with
  | nil => simp at h; simp [h]
  | cons i is ih =>
    obtain ⟨c, ds, _, h2, rfl⟩ := lutColours_cons_some.1 h
    simp [ih h2]

/-- Colours depend on the LUT alone. -/
theorem lutColours_congr {s t : State} (h : t.lut = s.lut) (is : List Nybble) : lutColours t is = lutColours s is := by
  simp [lutColours, lutEntry, h]

/-- Pixels k .. k+m-1 of a group, when their entries are loaded and the flash can take them (R173). -/
theorem emitGroupFrom_ok (n : Bpp) (g : Nybble) (m k : Nat) (s : State) (cs : List Colour)
    (hc : lutColours s (((List.range' k m).map (groupPixel n g)).take s.pix) = some cs)
    (he : cs = [] ∨ canEmit s (pixelBytes cs)) :
    emitGroupFrom n g m k s = .go (emittedPixels cs s) := by
  induction m generalizing k s cs with
  | zero => simp at hc; subst hc; simp [emitGroupFrom]
  | succ m ih =>
    rcases Nat.eq_zero_or_pos s.pix with hp | hp
    · simp [hp] at hc; subst hc; simp [emitGroupFrom, hp]
    · obtain ⟨p, hp'⟩ : ∃ p, s.pix = p + 1 := ⟨s.pix - 1, by omega⟩
      rw [List.range'_succ, List.map_cons, hp', List.take_succ_cons] at hc
      obtain ⟨c, ds, h1, h2, rfl⟩ := lutColours_cons_some.1 hc
      have he' : canEmit s (pixelBytes ([c] ++ ds)) := by simpa using he
      have hone : emitTilePixel c s = .go (emittedPixels [c] s) :=
        emitTilePixel_ok (by simpa using canEmit_pixels_left he')
      have hrest : emitGroupFrom n g m (k + 1) (emittedPixels [c] s) = .go (emittedPixels ds (emittedPixels [c] s)) := by
        apply ih
        · rw [lutColours_congr (emittedPixels_lut [c] s)]
          simpa [hp'] using h2
        · rcases eq_or_ne ds [] with hd | hd
          · exact .inl hd
          · exact .inr (canEmit_pixels_right he' hd)
      rw [emitGroupFrom, if_neg (by omega), withLutRead, h1]
      simp only [hone, Flow.andThen_go, hrest, emittedPixels_append he', List.singleton_append]

/-- The pixels of several groups, cut off where `pix` reaches 0 (R173, R176, R181). -/
theorem emitGroups_ok (n : Bpp) (gs : List Nybble) (s : State) (cs : List Colour)
    (hc : lutColours s ((gs.flatMap (groupIndices n)).take s.pix) = some cs)
    (he : cs = [] ∨ canEmit s (pixelBytes cs)) :
    emitGroups n gs s = .go (emittedPixels cs s) := by
  induction gs generalizing s cs with
  | nil => simp at hc; subst hc; simp [emitGroups]
  | cons g rest ih =>
    rw [List.flatMap_cons, List.take_append] at hc
    obtain ⟨ds, es, h1, h2, rfl⟩ := lutColours_append_some.1 hc
    have hlen : (groupIndices n g).length = pixelsPerGroup n := by simp [groupIndices]
    have hds : ds.length = min s.pix (pixelsPerGroup n) := by
      rw [lutColours_length h1, List.length_take, hlen]
    have hgroup : emitGroup n g s = .go (emittedPixels ds s) := by
      refine emitGroupFrom_ok n g (pixelsPerGroup n) 0 s ds ?_ ?_
      · rwa [groupIndices, List.range_eq_range'] at h1
      · rcases he with he | he
        · exact .inl (List.append_eq_nil_iff.1 he).1
        · exact .inr (canEmit_pixels_left he)
    rw [emitGroups, hgroup, Flow.andThen_go]
    rcases eq_or_ne es [] with hes | hes
    · subst hes
      rw [List.append_nil, ih (emittedPixels ds s) []]
      · simp
      · rw [lutColours_congr (emittedPixels_lut ds s), emittedPixels_pix, hds, ← h2, hlen]
        congr 2; omega
      · exact .inl rfl
    · have he' : canEmit s (pixelBytes (ds ++ es)) := he.resolve_left (by simp [hes])
      rw [ih (emittedPixels ds s) es, emittedPixels_append he']
      · rw [lutColours_congr (emittedPixels_lut ds s), emittedPixels_pix, hds, ← h2, hlen]
        congr 2; omega
      · exact .inr (canEmit_pixels_right he' hes)

end Sys2Proof.Machine
end

