-- ==== Sys2Proof/Laws/PerInstr.lean ====
section
/-! SUPPORT. One lemma per constructor of Instr about its row of spec/opcode_table.json. -/

namespace Sys2Proof.Laws.TableRow

/-- A well-formed opcode byte matches exactly one row of the table, the row of its mnemonic (R82, R83, R87); a
continuation byte belongs to the family of the state that reads it (R22). -/
def Statement (i : Instr) : Prop :=
  i.wellFormed = true →
    (match i.readIn.owner with
      | none => (tableMatches (encode i)).map (fun r => r.mnemonic)
      | some m => [m]) = [i.mnemonic]

theorem lut1 (x : BitVec 5) : Statement (.lut1 x) := by unfold Statement; revert x; decide

theorem lut16 (x : BitVec 5) : Statement (.lut16 x) := by unfold Statement; revert x; decide

theorem tileP0 (x : BitVec 5) : Statement (.tileP0 x) := by unfold Statement; revert x; decide

theorem tileP1R4 (x : BitVec 5) : Statement (.tileP1R4 x) := by unfold Statement; revert x; decide

theorem tileP2R4 (x : BitVec 5) : Statement (.tileP2R4 x) := by unfold Statement; revert x; decide

theorem tileP4R4 (x : BitVec 5) : Statement (.tileP4R4 x) := by unfold Statement; revert x; decide

theorem tileP16 (x : BitVec 5) : Statement (.tileP16 x) := by unfold Statement; revert x; decide

theorem address : Statement .address := by unfold Statement; decide

theorem erase : Statement .erase := by unfold Statement; decide

theorem reserved (b : Byte) : Statement (.reserved b) := by unfold Statement; revert b; decide

theorem lut1Color1 (b : Byte) : Statement (.lut1Color1 b) := fun _ => rfl

theorem lut1Color2 (b : Byte) : Statement (.lut1Color2 b) := fun _ => rfl

theorem lut16Vec1 (b : Byte) : Statement (.lut16Vec1 b) := fun _ => rfl

theorem lut16Vec2 (b : Byte) : Statement (.lut16Vec2 b) := fun _ => rfl

theorem lut16Color1 (b : Byte) : Statement (.lut16Color1 b) := fun _ => rfl

theorem lut16Color2 (b : Byte) : Statement (.lut16Color2 b) := fun _ => rfl

theorem tileP1R4Data (b : Byte) : Statement (.tileP1R4Data b) := fun _ => rfl

theorem tileP2R4Data (b : Byte) : Statement (.tileP2R4Data b) := fun _ => rfl

theorem tileP4R4Data (b : Byte) : Statement (.tileP4R4Data b) := fun _ => rfl

theorem tileP16Mask (b : Byte) : Statement (.tileP16Mask b) := fun _ => rfl

theorem tileP16Low (b : Byte) : Statement (.tileP16Low b) := fun _ => rfl

theorem tileP16High (b : Byte) : Statement (.tileP16High b) := fun _ => rfl

theorem addrLow (b : Byte) : Statement (.addrLow b) := fun _ => rfl

theorem addrHigh (b : Byte) : Statement (.addrHigh b) := fun _ => rfl

theorem eraseCount (b : Byte) : Statement (.eraseCount b) := fun _ => rfl

theorem eraseCheck (b : Byte) : Statement (.eraseCheck b) := fun _ => rfl

end Sys2Proof.Laws.TableRow
end

