-- ==== Sys2Proof/Tests/Slice0.lean ====
section
/-! SUPPORT. Tests of the model's own text: ill-formed terms refused, bytes of the spec's encodings decoded, single
steps of the vectors of spec/95_test_vectors.md, and for each statement with hypotheses a state that meets them. -/

namespace Sys2Proof.Tests

open Sys2Proof.Machine Sys2Proof.Safety

/-! ### Well-formedness refuses -/

theorem test_wf_reserved_not_special : (Instr.reserved 0xE1#8).wellFormed = false ∧
    (Instr.reserved 0xF5#8).wellFormed = false ∧ (Instr.reserved 0xDF#8).wellFormed = false ∧
    (Instr.reserved 0xE0#8).wellFormed = true := by decide
theorem test_wf_lut16_colour_count : (Asm.lut16 0x8001#16 [⟨1, 2⟩]).wellFormed = false ∧
    (Asm.lut16 0x8001#16 [⟨1, 2⟩, ⟨3, 4⟩]).wellFormed = true := by decide
theorem test_wf_p16_mask_count : (Asm.tileP16 0#5 []).wellFormed = false ∧
    (Asm.tileP16 0#5 (List.replicate 8 ⟨0x01, []⟩)).wellFormed = false := by decide
theorem test_wf_asm_reserved : (Asm.reserved 0x40#8).wellFormed = false := by decide
theorem test_complete_r4_data : asmComplete [] (.tileR4 .one 0#5 [0xFF]) = false ∧
    asmComplete [] (.tileR4 .one 0#5 [0xFF, 0x0E, 0x00]) = false ∧
    asmComplete [] (.tileR4 .one 0#5 [0xFF, 0x0E]) = true := by decide
theorem test_wf_params : Config.testParams.wellFormed = true ∧
    ({ Config.testParams with flashBytes := 2 ^ 24 + 1 }).wellFormed = false ∧
    ({ Config.testParams with eraseBlockBytes := 3 }).wellFormed = false ∧
    ({ Config.testParams with fifoSize := 65 }).wellFormed = false ∧
    ({ Config.testParams with headReset := 63 }).wellFormed = false ∧
    ({ Config.testParams with ackBits := 5 }).wellFormed = false ∧
    ({ Config.testParams with rle4 := [⟨.one, false, none, 0, [], true, none⟩] }).wellFormed = false := by decide

/-! ### Decoding, one byte of each form, from R82 to R84 -/

theorem test_decode_lut1 : decode .opcode 0b00011111#8 = .lut1 0b11111#5 := by decide
theorem test_decode_lut16 : decode .opcode 0b00111111#8 = .lut16 0b11111#5 := by decide
theorem test_decode_tile_p0 : decode .opcode 0b01001111#8 = .tileP0 0b01111#5 := by decide
theorem test_decode_tile_p1 : decode .opcode 0b01100001#8 = .tileP1R4 0b00001#5 := by decide
theorem test_decode_tile_p2 : decode .opcode 0b10011110#8 = .tileP2R4 0b11110#5 := by decide
theorem test_decode_tile_p4 : decode .opcode 0b10100010#8 = .tileP4R4 0b00010#5 := by decide
theorem test_decode_tile_p16 : decode .opcode 0b11010000#8 = .tileP16 0b10000#5 := by decide
theorem test_decode_special : decode .opcode 0xE1#8 = .address ∧ decode .opcode 0xF5#8 = .erase ∧
    decode .opcode 0xE0#8 = .reserved 0xE0#8 ∧ decode .opcode 0xF4#8 = .reserved 0xF4#8 := by decide
theorem test_decode_continuation : decode .addrLow 0xE1#8 = .addrLow 0xE1#8 ∧ decode .addrHigh 0xF5#8 = .addrHigh 0xF5#8 ∧
    decode .eraseCount 3#8 = .eraseCount 3#8 ∧ decode .eraseCheck 0x14#8 = .eraseCheck 0x14#8 ∧
    decode .lut1Color1 0x12#8 = .lut1Color1 0x12#8 ∧ decode .lut1Color2 0x34#8 = .lut1Color2 0x34#8 ∧
    decode .lut16Vec1 1#8 = .lut16Vec1 1#8 ∧ decode .lut16Vec2 0x80#8 = .lut16Vec2 0x80#8 ∧
    decode .lut16Color1 0x11#8 = .lut16Color1 0x11#8 ∧ decode .lut16Color2 0x22#8 = .lut16Color2 0x22#8 := by decide
theorem test_decode_tile_data : decode .tileP1R4 0xFF#8 = .tileP1R4Data 0xFF#8 ∧
    decode .tileP2R4 0x44#8 = .tileP2R4Data 0x44#8 ∧ decode .tileP4R4 0x10#8 = .tileP4R4Data 0x10#8 ∧
    decode .tileP16Mask 1#8 = .tileP16Mask 1#8 ∧ decode .tileP16Low 0x11#8 = .tileP16Low 0x11#8 ∧
    decode .tileP16High 0x22#8 = .tileP16High 0x22#8 := by decide
/-- The table's 17 rows cover every byte once (R87). -/
theorem test_table_rows_do_not_overlap : ∀ b : Byte, (tableMatches b).length = 1 := by decide
/-- R90, R91: the spec's spellings. -/
theorem test_assemble : assemble (.lut16 0x8001#16 [⟨0x11, 0x22⟩, ⟨0x33, 0x44⟩]) = [0x20, 0x01, 0x80, 0x11, 0x22, 0x33, 0x44] ∧
    assemble (asmAddr 0x123400#24) = [0xE1, 0x34, 0x12] ∧ assemble (asmEraseV 3 0x10 0x02) = [0xF5, 0x03, 0x14] ∧
    assemble asmNop = [0xE0] := by decide

/-- R90, program P2 of spec/95_test_vectors.md. -/
theorem test_print : printAsm (.tileR4 .one 0 [0xAA, 0x00, 0xC0]) = "TILE_P1_R4 1, 0xAA, 0x00, 0xC0" ∧
    printAsm (.tileP16 0 [⟨0x01, [⟨0x11, 0x22⟩]⟩]) = "TILE_P16 1, m=0x01, 11:22" := by decide

/-! ### The states the tests start from -/

/-- Address 0, LUT entry k = (k, 0x80 + k), as V-L9 leaves it. -/
def ready : State :=
  { State.reset with
    low := .val 0, lat1 := .val 0, lat2 := .val 0, addrValid := true
    lut := Vector.ofFn (fun k => ⟨.val (BitVec.ofNat 8 k.val), .val (BitVec.ofNat 8 (0x80 + k.val))⟩) }

/-- `ready` at another address. -/
def at' (a : Addr) : State := setAddr a ready

/-- A state with one byte in the FIFO. -/
def withByte (b : Byte) (s : State) : State := { s with ring := [(0, b)], head := 1, tail := 0 }

/-- The next state of an instruction; a stop gives the state back. -/
def after (i : Instr) (s : State) : State :=
  match exec i s with
  | .next t => t
  | _ => s

/-- The next state of a step. -/
def stepped (s : State) : State :=
  match step s with
  | .next t => t
  | _ => s

/-! ### Single steps (spec/95_test_vectors.md) -/

/-- V-D4. -/
theorem test_lut1 : (after (.lut1 31) State.reset).state = .lut1Color1 ∧
    (after (.lut1 31) State.reset).lutIndex = .val 15 := by decide
/-- V-L1. -/
theorem test_lut1_colours : (after (.lut1Color1 0x12) { State.reset with lutIndex := .val 0 }).lut[0].b0 = .val 0x12 ∧
    (after (.lut1Color2 0x34) { State.reset with lutIndex := .val 15 }).lut[15].b1 = .val 0x34 := by decide
/-- V-D5. -/
theorem test_lut16 : (after (.lut16 31) State.reset).state = .lut16Vec1 := by decide
/-- V-L7, V-L6: the walk starts at bit 0; an empty vector ends the opcode. -/
theorem test_lut16_vec2 : (after (.lut16Vec2 0x80) { State.reset with lutVecLo := .val 0x01 }).lutIndex = .val 0 ∧
    (after (.lut16Vec2 0x00) { State.reset with lutVecLo := .val 0x00 }).state = .opcode := by decide
/-- V-L8: bit 8 is VEC2 bit 0. -/
theorem test_lut16_vec2_high : (after (.lut16Vec2 0x01) { State.reset with lutVecLo := .val 0x00 }).lutIndex = .val 8 := by
  decide
/-- V-L7: bits 1..14 are skipped. -/
theorem test_lut16_color2 :
    (after (.lut16Color2 0x22) { State.reset with lutVecLo := .val 1, lutVecHi := .val 0x80, lutIndex := .val 0 }).lutIndex
      = .val 15 := by decide
/-- V-L7: after the highest set bit the opcode ends. -/
theorem test_lut16_color2_last :
    (after (.lut16Color2 0x44) { State.reset with lutVecLo := .val 1, lutVecHi := .val 0x80, lutIndex := .val 15 }).state
      = .opcode := by decide
/-- V-A1. -/
theorem test_addr_high : latchAddr (after (.addrHigh 0x12) { State.reset with lat1 := .val 0x34 }) = 0x123400#24 := by decide
/-- V-E5. -/
theorem test_erase_check_no_address : (after (.eraseCheck 0xFF) { State.reset with eraseCount := .val 0 }).fault
    = some .addrUnset := by decide
/-- V-E1, all six rows. -/
theorem test_erase_checks : eraseExpected 0 0 0 = 0xFF ∧ eraseExpected 0 0 1 = 0 ∧ eraseExpected 3 0x10 2 = 0x14 ∧
    eraseExpected 5 2 0 = 6 ∧ eraseExpected 0xFF 0xFF 0xFF = 0xFC ∧ eraseExpected 1 0 0x1F = 0x1F := by decide
/-- V-E2: the block is erased, its neighbours are not, the address is unknown after it. -/
theorem test_erase_commits :
    (after (.eraseCheck 0) { at' 0x010000 with
      eraseCount := .val 0, flash := [(0xFFFF, 0), (0x10000, 0), (0x1FFFF, 0), (0x20000, 0)] }).flash
      = [(0xFFFF, 0), (0x20000, 0)] ∧
    (after (.eraseCheck 0) { at' 0x010000 with eraseCount := .val 0 }).addrValid = false := by decide
/-- V-E6: the last block is erased, then the range faults. -/
theorem test_erase_past_the_end :
    (after (.eraseCheck 0x1F) { at' 0x1F0000 with eraseCount := .val 1, flash := [(0x1F0000, 0)] }).flash = [] ∧
    (after (.eraseCheck 0x1F) { at' 0x1F0000 with eraseCount := .val 1 }).fault = some .flashRange := by decide
/-- V-D6, V-T7. -/
theorem test_tile_p0_checks : (after (.tileP0 31) ready).fault = some .lutIndexRange ∧
    (after (.tileP0 0) State.reset).fault = some .lutUnset := by decide
/-- V-A2: two tiles from 0x00FF00; the second carries into lat2. -/
theorem test_tile_p0_carry : latchAddr (after (.tileP0 0) (at' 0x00FF80)) = 0x010000#24 := by decide +kernel
/-- V-A3: an address past the flash faults at the first byte, and nothing is programmed. -/
theorem test_tile_p0_past_the_flash : (after (.tileP0 0) (at' 0xFFFF00)).fault = some .flashRange ∧
    (after (.tileP0 0) (at' 0xFFFF00)).flash = [] := by decide
/-- V-T5: one byte, then the hang, the address advanced by one. -/
theorem test_tile_p0_hang :
    (after (.tileP0 2) { ready with flash := [(1, 0)] }).hung = true ∧
    latchAddr (after (.tileP0 2) { ready with flash := [(1, 0)] }) = 1#24 := by decide +kernel
/-- V-D7. -/
theorem test_tile_p1 : (after (.tileP1R4 31) State.reset).pix = 2048 := by decide
/-- V-R1, first data byte: two equal nybbles arm the run. -/
theorem test_tile_p1_data : (after (.tileP1R4Data 0xFF) { ready with state := .tileP1R4, pix := 64 }).pix = 56 ∧
    (after (.tileP1R4Data 0xFF) { ready with state := .tileP1R4, pix := 64 }).rleRun = true := by decide +kernel
/-- V-R8, last data byte: the literal equals the one before, the count ends the opcode. -/
theorem test_tile_p2_data :
    (after (.tileP2R4Data 0xD4) { ready with state := .tileP2R4, pix := 28, rlePrev := some 4 }).state = .opcode := by
  decide +kernel
/-- V-R11: the low nybble first. -/
theorem test_tile_p4_data :
    (after (.tileP4R4Data 0x01) { ready with state := .tileP4R4, pix := 64 }).flash = [(0, 1), (1, 0x81), (2, 0), (3, 0x80)] := by
  decide +kernel
/-- V-R7: the pixels before the Unset entry stay programmed. -/
theorem test_tile_p1_unset :
    (after (.tileP1R4Data 0x10) { ready with state := .tileP1R4, pix := 64, lut := ready.lut.set 1 ⟨.unset, .val 0⟩ }).fault
      = some .lutUnset ∧
    (after (.tileP1R4Data 0x10) { ready with state := .tileP1R4, pix := 64, lut := ready.lut.set 1 ⟨.unset, .val 0⟩ }).pix
      = 60 := by decide +kernel
/-- V-S1, V-S5. -/
theorem test_p16_no_colour : (after (.tileP16Mask 0) { ready with pix := 64 }).fault = some .p16NoColor ∧
    (after (.tileP16Mask 0x80) { ready with pix := 64 }).fault = some .p16NoColor := by decide
/-- V-S2: the literal and its seven repeats. -/
theorem test_p16_literal :
    (after (.tileP16High 0x22) { ready with state := .tileP16High, pix := 64, p16Mask := .val 1, p16Bits := 8, p16B0 := .val 0x11 }).pix
      = 56 ∧
    (after (.tileP16High 0x22) { ready with state := .tileP16High, pix := 64, p16Mask := .val 1, p16Bits := 8, p16B0 := .val 0x11 }).state
      = .tileP16Mask := by decide +kernel
/-- V-P1 to V-P7, through the programmer. -/
theorem test_flash_program : (flashProgram 0 0x10 { ready with flash := [(0, 0x12)] }).state.flash = [(0, 0x10)] ∧
    (flashProgram 0 0x0F { ready with flash := [(0, 0xF0)] }).state.hung = true ∧
    (flashProgram 0 0x00 { ready with flash := [(0, 0x00)] }).state.flash = [(0, 0x00)] ∧
    (flashProgram 0x200000 0x00 ready).state.fault = some .flashRange := by decide
/-- V-F2, V-F5, V-F8. -/
theorem test_push : (push 0 { State.reset with head := 63 }).state.fault = some .fifoOverflow ∧
    (push 0 { State.reset with head := 0xFF }).state.fault = some .pushDuringReset ∧
    (push 7 { State.reset with head := 63, tail := 62 }).state.head = 0 := by decide
/-- V-F6: the ack counter wraps. -/
theorem test_ack_wraps : (stepped { withByte 0xE0 State.reset with ack := 0xFF }).ack = 0 := by decide
/-- V-F4, V-F7: the reset step drops the ring and keeps ack. -/
theorem test_reset_step :
    (stepped { withByte 0x00 ready with head := 0xFF, ack := 9 }).lut[0] = ⟨.unset, .unset⟩ ∧
    (stepped { withByte 0x00 ready with head := 0xFF, ack := 9 }).ack = 9 := by decide
/-- R221: a recorded fault stops the next step. -/
theorem test_fault_stops : (match step { State.reset with fault := some .lutUnset } with
    | .fault c => decide (c = .lutUnset) | _ => false) = true := by decide

/-- RLE4 reads n: a row for 1 bpp changes nothing at 2 bpp (R5). -/
theorem test_rle4_row_is_per_bpp :
    r4Decide [⟨.one, false, none, 3, [1, 2], true, some 5⟩] .one false none 3 = ⟨[1, 2], true, some 5⟩ ∧
    r4Decide [⟨.one, false, none, 3, [1, 2], true, some 5⟩] .two false none 3 = ⟨[3], false, some 3⟩ := by decide
/-- R204, with made-up commands: the unlock prefix, the command, the byte, the poll of the bit written. -/
theorem test_bus_program :
    busProgram { Config.testParams with flashUnlockPrefix := [(1, 2)], flashProgramCmd := (3, 4), pollBit := 7 } 9 0x80
      = [.write (1, 2), .write (3, 4), .write (9, 0x80), .pollUntil 9 7 true] := by decide

/-! ### Witnesses: for each statement with hypotheses, a state and operands that meet them -/

theorem witness_DecodeOfEncodeIsTheInstruction : (Instr.reserved 0xFF).wellFormed = true := by decide
theorem witness_ReadingBackAWholeInstruction :
    asmComplete [] (.tileR4 .one 0 [0xFF, 0x0E]) = true ∧ ∀ bs, Asm.tileR4 .one 0 [0xFF, 0x0E] ≠ .bytes bs :=
  ⟨by decide, fun _ h => by cases h⟩
theorem witness_WholeInstructionLengths : asmComplete [] (.lut16 0xFFFF (List.replicate 16 ⟨1, 2⟩)) = true := by decide
theorem witness_R4DataLengthIsBounded : r4Count [] .one (r4Fresh 0) [0xFF, 0x0E] = some 2 ∧
    r4Count [] .one (r4Fresh 0) [0x11, 0x10, 0x01, 0x11, 0x10, 0x01, 0x11, 0x10, 0x01, 0x11, 0x10, 0x01] = some 12 := by
  decide
theorem witness_StepRunsTheDecodedByte :
    (withByte 0x40 ready).fault = none ∧ (withByte 0x40 ready).hung = false ∧ decodersTurn (withByte 0x40 ready) = true ∧
      (withByte 0x40 ready).head ≠ (withByte 0x40 ready).params.headReset ∧
      (withByte 0x40 ready).head ≠ (withByte 0x40 ready).tail ∧
      Memory.find (withByte 0x40 ready).ring (withByte 0x40 ready).tail = some 0x40 := by decide
theorem witness_StepRunsThePlacedByte :
    2 ≤ State.reset.params.fifoSize ∧ State.reset.tail < State.reset.params.fifoSize ∧
      State.reset.params.fifoSize ≤ State.reset.params.headReset ∧
      (State.reset.head < State.reset.params.fifoSize ∨ State.reset.head = State.reset.params.headReset) := by decide
theorem witness_SentinelResetsTheDecoder :
    ({ ready with head := 0xFF }).fault = none ∧ ({ ready with head := 0xFF }).hung = false ∧
      decodersTurn { ready with head := 0xFF } = true ∧ ({ ready with head := 0xFF }).head = ready.params.headReset := by
  decide
theorem witness_HungDecoderNeverMovesAgain :
    ∃ t, ({ ready with hung := true }).hung = true ∧ step { ready with hung := true } = .next t := ⟨_, rfl, rfl⟩
theorem witness_IdleDecoderChangesNothing :
    ({ ready with schedule := [.decoder] }).fault = none ∧ ({ ready with schedule := [.decoder] }).hung = false ∧
      ready.head ≠ ready.params.headReset ∧ ready.head = ready.tail := by decide
theorem witness_ProducerFollowsItsScript (script : List Action) :
    ({ ready with schedule := [.producer], script := script }).fault = none ∧
      ({ ready with schedule := [.producer], script := script }).schedule = .producer :: [] := ⟨rfl, rfl⟩
/-- The other form: past the schedule's end, with an idle decoder. -/
theorem witness_ProducerFollowsItsScript_pastTheEnd : ready.fault = none ∧
    ({ ready with script := [.push 1] }).schedule = [] ∧ decoderEnabled { ready with script := [.push 1] } = false ∧
    ({ ready with script := [.push 1] }).script = .push 1 :: [] := by decide
theorem witness_PortOk_reset : PortOk State.reset := by unfold PortOk; decide
theorem witness_FifoHoldsExactlyItsCapacity : State.reset.params.wellFormed = true ∧ PortOk State.reset ∧
    State.reset.head ≠ State.reset.params.headReset ∧ State.reset.head = State.reset.tail ∧
    (List.replicate 63 (0xE0 : Byte)).length = State.reset.params.fifoSize - 1 :=
  ⟨by decide, witness_PortOk_reset, by decide, by decide, by decide⟩
/-- For the whole-instruction statements on ADDRESS, LUT1 and LUT16. -/
theorem witness_WholeInstructions : ready.state = .opcode ∧ running ready = true ∧
    [(⟨1, 2⟩ : Colour), ⟨3, 4⟩].length = popcount 0x8001#16 := by decide
theorem witness_AddressAdvancesByOne : (at' 0xFFFFFF).addrValid = true ∧ latchAddr (at' 0xFFFFFF) = 0xFFFFFF#24 := by decide
/-- For FirstColourBytesAreStored and EraseCountAndSecondLut1ColourByte. -/
theorem witness_LutColourBytes : ({ ready with lutIndex := .val 0 }).lutIndex = .val 0 ∧
    ({ ready with lutIndex := .val 15 }).lutIndex = .val 15 := by decide
theorem witness_Lut16VectorFindsItsFirstEntry : ({ ready with lutVecLo := .val 0 }).lutVecLo = .val 0 ∧
    (0#8 ++ 0#8 : BitVec 16) = 0#16 ∧ (0x80#8 ++ 0#8 : BitVec 16).getLsbD 15 = true ∧
    (∀ j < 15, (0x80#8 ++ 0#8 : BitVec 16).getLsbD j = false) ∧ (0x80#8 ++ 1#8 : BitVec 16).getLsbD 0 = true := by decide
theorem witness_Lut16SecondColourByteWalksOn :
    (∀ j < 16, 15 < j → (0x80#8 ++ 1#8 : BitVec 16).getLsbD j = false) ∧ (0x80#8 ++ 1#8 : BitVec 16).getLsbD 15 = true ∧
      (∀ j < 15, 0 < j → (0x80#8 ++ 1#8 : BitVec 16).getLsbD j = false) ∧
      ({ ready with lutVecLo := .val 1, lutVecHi := .val 0x80, lutIndex := .val 0 }).lutIndex = .val 0 := by decide
/-- An ERASE check byte: no address; a wrong check; the last block of the flash, exactly in range; one block more. -/
theorem witness_EraseCheckByteCommitsOnlyOnTheChecksum : State.reset.addrValid = false ∧
    (at' 0x1F0000).addrValid = true ∧ (at' 0x1F0000).lat1 = .val 0 ∧ (at' 0x1F0000).lat2 = .val 0x1F ∧
    ({ at' 0x1F0000 with eraseCount := .val 0 }).eraseCount = .val 0 ∧
    (0x1F#8 ≠ 0xFF#8 ^^^ (0#8 - 0#8 - 0#8 - 0x1F#8)) ∧ (0x1E#8 = 0xFF#8 ^^^ (0#8 - 0#8 - 0#8 - 0x1F#8)) ∧
    0 < ready.params.eraseBlockBytes ∧ (latchAddr (at' 0x1F0000)).toNat / ready.params.eraseBlockBytes = 31 ∧
    (31 + 0 + 1) * ready.params.eraseBlockBytes ≤ ready.params.flashBytes ∧
    (∀ k < 1, (31 + k + 1) * ready.params.eraseBlockBytes ≤ ready.params.flashBytes) ∧
    ready.params.flashBytes < (31 + 1 + 1) * ready.params.eraseBlockBytes := by decide
/-- The first block itself out of range (m = 0). -/
theorem witness_EraseCheckByteCommitsOnlyOnTheChecksum_beyond : (latchAddr (at' 0x200000)).toNat / ready.params.eraseBlockBytes = 32 ∧
    ready.params.flashBytes < (32 + 0 + 1) * ready.params.eraseBlockBytes := by decide
theorem witness_FlashProgramOutcomes : ready.params.flashBytes ≤ (0x200000#24).toNat ∧
    (0x1FFFFF#24).toNat < ready.params.flashBytes ∧
    0x01#8 &&& ~~~(Memory.read [(0x1FFFFF, 0)] 0x1FFFFF) ≠ 0#8 ∧
    0x01#8 &&& ~~~(Memory.read ready.flash (0x1FFFFF#24).toNat) = 0#8 := by decide
theorem witness_ReprogrammingTheSameBytesIsSafe : (∃ t, flashProgram 0 0x10 { ready with flash := [(0, 0x12)] } = .go t) ∧
    Memory.wf [(0, 0x12), (7, 0)] = true := ⟨⟨_, rfl⟩, by decide⟩
/-- P1's tile, whose first run goes through. -/
theorem witness_ReplayingAnInstructionIsSafe : ready.state = .opcode ∧ running ready = true ∧
    Memory.wf ready.flash = true ∧ replayable (.tileP0 2) = true ∧ asmComplete ready.params.rle4 (.tileP0 2) = true ∧
    ∃ t, feed (assemble (.address 0 0) ++ assemble (.tileP0 2)) ready = .next t ∧ running t = true :=
  ⟨by decide, by decide, by decide, by decide, by decide, _, rfl, by decide +kernel⟩
/-- TILE_P0: an index out of range; an Unset entry; no address; the last tile of the flash. -/
theorem witness_TileP0ProgramsOneSolidTile_checks : 16 ≤ (16#5).toNat ∧ (15#5).toNat < 16 ∧
    (lutEntry State.reset ((15#5).extractLsb' 0 4)).colour? = none ∧
    (lutEntry ready ((15#5).extractLsb' 0 4)).colour? = some ⟨0x0F, 0x8F⟩ ∧
    (lutEntry { ready with addrValid := false } ((15#5).extractLsb' 0 4)).colour? = some ⟨0x0F, 0x8F⟩ ∧
    (lutEntry (at' 0x1FFF80) ((15#5).extractLsb' 0 4)).colour? = some ⟨0x0F, 0x8F⟩ := by decide
theorem witness_TileP0ProgramsOneSolidTile : canEmit (at' 0x1FFF80) (pixelBytes (List.replicate 64 ⟨0x0F, 0x8F⟩)) := by
  unfold canEmit noZeroToOne; decide +kernel
/-- A 0-to-1 byte after one good one; the end of the flash after 64; V-A3, an address past the flash at the first byte;
no address. -/
theorem witness_TileP0StopsAtTheFirstBadByte :
    stopsAt { ready with flash := [(1, 0)] } (pixelBytes (List.replicate 64 ⟨0x0F, 0x8F⟩)) 1 .hang ∧
    stopsAt (at' 0x1FFFC0) (pixelBytes (List.replicate 64 ⟨0x0F, 0x8F⟩)) 64 (.fault .flashRange) ∧
    stopsAt (at' 0xFFFF00) (pixelBytes (List.replicate 64 ⟨0x0F, 0x8F⟩)) 0 (.fault .flashRange) ∧
    stopsAt { ready with addrValid := false } (pixelBytes (List.replicate 64 ⟨0x0F, 0x8F⟩)) 0 (.fault .addrUnset) := by
  unfold stopsAt canEmit noZeroToOne; decide +kernel
theorem witness_R4NybbleFollowsTheRunRule : ready.params.rle4 = [] ∧ ready.pix = 0 ∧
    0 < ({ ready with pix := 1, rleRun := true, rlePrev := some 5 }).pix ∧
    ({ ready with pix := 1, rleRun := true, rlePrev := some 5 }).rlePrev = some 5 ∧
    ({ ready with pix := 2048, rlePrev := some 5 }).rleRun = false ∧ ready.rlePrev ≠ some 5 := by decide
/-- A data byte of each codec in the middle of an opcode: a count and a literal. -/
theorem witness_R4DataByteEmitsItsPixels (n : Bpp) :
    ∃ cs, lutColours { ready with pix := 128, rleRun := true, rlePrev := some 5 }
        (byteIndices [] n ⟨128, true, some 5⟩ 0x5F) = some cs ∧
      canEmit { ready with pix := 128, rleRun := true, rlePrev := some 5 } (pixelBytes cs) := by
  cases n <;> exact ⟨_, rfl, by unfold canEmit noZeroToOne; decide +kernel⟩
/-- V-R7. -/
theorem witness_R4DataByteStopsAtAnUnsetEntry :
    byteIndices [] .one ⟨64, false, none⟩ 0x10 = [0, 0, 0, 0] ++ 1 :: [0, 0, 0] ∧
      lutColours { ready with pix := 64, lut := ready.lut.set 1 ⟨.unset, .val 0⟩ } [0, 0, 0, 0]
        = some (List.replicate 4 ⟨0, 0x80⟩) ∧
      (lutEntry { ready with pix := 64, lut := ready.lut.set 1 ⟨.unset, .val 0⟩ } 1).colour? = none ∧
      canEmit { ready with pix := 64, lut := ready.lut.set 1 ⟨.unset, .val 0⟩ } (pixelBytes (List.replicate 4 ⟨0, 0x80⟩)) := by
  unfold canEmit noZeroToOne; decide +kernel
/-- V-R1, the whole opcode. -/
theorem witness_R4InstructionProgramsItsTiles : r4Count [] .one (r4Fresh 0) [0xFF, 0x0E] = some [0xFF, 0x0E].length ∧
    lutColours ready (streamIndices [] .one (r4Fresh 0) [0xFF, 0x0E]) = some (List.replicate 64 ⟨1, 0x81⟩) ∧
    canEmit ready (pixelBytes (List.replicate 64 ⟨1, 0x81⟩)) := by
  unfold canEmit noZeroToOne; decide +kernel
/-- A count of 15 and a literal at 1 bpp: the 64 pixels that are the most. -/
theorem witness_R4DataByteEmitsAtMostSixtyFourPixels :
    ({ ready with pix := 128, rleRun := true, rlePrev := some 5 }).params.rle4 = [] ∧
      ∃ t, exec (r4DataInstr .one 0x5F) { ready with pix := 128, rleRun := true, rlePrev := some 5 } = .next t ∧
        t.pix = 64 := ⟨rfl, _, rfl, by decide +kernel⟩
/-- Data# polling: a program that completes, and one whose poll never ends whichever bit is polled. -/
theorem witness_BusPollAgreesWithTheTransaction :
    (0#24).toNat < ready.params.flashBytes ∧ (∃ t, flashProgram 0 0x10 ready = .go t) ∧
      ∀ bit, busProgramEnds bit (Memory.read [(0, 0)] (0#24).toNat) 0xFF = false :=
  ⟨by decide, ⟨_, rfl⟩, by decide⟩
/-- A mask with no literal yet; a mask that begins with a literal; a mask of eight repeats. -/
theorem witness_P16MaskByteRepeatsThenWaits : 0 < zeroRun 0x02#8 8 ∧ ready.p16HaveLast = false ∧ zeroRun 0x01#8 8 = 0 ∧
    zeroRun 0x00#8 8 = 8 ∧ canEmit { ready with p16HaveLast := true, p16Last := .val ⟨1, 2⟩ } (pixelBytes (List.replicate 8 ⟨1, 2⟩)) := by
  unfold canEmit noZeroToOne; decide +kernel
/-- A 4 bpp byte whose high nybble's second byte meets a cleared flash byte; the end of the flash; no address. -/
theorem witness_R4DataByteStopsAtTheFirstBadByte :
    byteIndices [] .four ⟨64, false, none⟩ 0x21 = [1] ++ 2 :: [] ∧
    lutColours ready ([1] ++ [2]) = some [⟨1, 0x81⟩, ⟨2, 0x82⟩] ∧
    stopsAt { ready with flash := [(3, 0)] } (pixelBytes [⟨1, 0x81⟩, ⟨2, 0x82⟩]) 3 .hang ∧
    stopsAt (at' 0x1FFFFE) (pixelBytes [⟨1, 0x81⟩, ⟨2, 0x82⟩]) 2 (.fault .flashRange) ∧
    byteIndices [] .four ⟨64, false, none⟩ 0x21 = [] ++ 1 :: [2] ∧ lutColours ready ([] ++ [1]) = some [⟨1, 0x81⟩] ∧
    stopsAt { ready with addrValid := false } (pixelBytes [⟨1, 0x81⟩]) 0 (.fault .addrUnset) := by
  unfold stopsAt canEmit noZeroToOne; decide +kernel
/-- A repeat, and a literal with its repeats, that meet a cleared flash byte, the end of the flash, no address. -/
theorem witness_P16ByteStopsAtTheFirstBadByte :
    zeroRun 0x02#8 8 = 1 ∧ zeroRun (0x01#8 >>> 1) (8 - 1) = 7 ∧
    stopsAt { ready with p16HaveLast := true, p16Last := .val ⟨1, 2⟩, flash := [(1, 0)] }
      (pixelBytes (List.replicate 1 ⟨1, 2⟩)) 1 .hang ∧
    stopsAt { at' 0x1FFFFE with p16B0 := .val 1, p16Mask := .val 1, p16Bits := 8 }
      (pixelBytes (List.replicate (7 + 1) ⟨1, 2⟩)) 2 (.fault .flashRange) ∧
    stopsAt { ready with p16B0 := .val 1, p16Mask := .val 1, p16Bits := 8, addrValid := false }
      (pixelBytes (List.replicate (7 + 1) ⟨1, 2⟩)) 0 (.fault .addrUnset) := by
  unfold stopsAt canEmit noZeroToOne; decide +kernel
/-- V-S2's literal: one pixel and seven repeats; and a literal in the last mask bit. -/
theorem witness_P16LiteralIsEmittedAndRepeated : zeroRun (0x01#8 >>> 1) (8 - 1) = 7 ∧ zeroRun (0x01#8 >>> 1) (1 - 1) = 0 ∧
    ({ ready with p16B0 := .val 0x11, p16Mask := .val 1, p16Bits := 8 }).p16Mask = .val 1 ∧
    canEmit { ready with p16B0 := .val 0x11, p16Mask := .val 1, p16Bits := 8 }
      (pixelBytes (List.replicate (7 + 1) ⟨0x11, 0x22⟩)) := by
  unfold canEmit noZeroToOne; decide +kernel
/-- V-S2's groups. -/
theorem witness_P16InstructionProgramsItsTiles :
    (Asm.tileP16 0 (⟨1, [⟨0x11, 0x22⟩]⟩ :: List.replicate 7 ⟨0, []⟩)).wellFormed = true ∧
      p16Pixels (⟨1, [⟨0x11, 0x22⟩]⟩ :: List.replicate 7 ⟨0, []⟩) none = some (List.replicate 64 ⟨0x11, 0x22⟩) ∧
      canEmit ready (pixelBytes (List.replicate 64 ⟨0x11, 0x22⟩)) := by
  unfold canEmit noZeroToOne; decide +kernel
/-- For the frames: every instruction answers a next state. -/
theorem witness_Frames : (∃ t, exec .address ready = .next t) ∧ (∃ t, exec (.tileP0 0) ready = .next t) ∧
    (∃ t, exec (r4DataInstr .one 0xFF) { ready with pix := 64 } = .next t) ∧
    (∃ t, exec (.tileP16Mask 0) ready = .next t) ∧
    (∃ t, exec (.tileP16High 0) ready = .next t) ∧ ready.p16Bits ≤ 8 :=
  ⟨⟨_, rfl⟩, ⟨_, rfl⟩, ⟨_, rfl⟩, ⟨_, rfl⟩, ⟨_, rfl⟩, by decide⟩
theorem witness_InvariantHoldsAtPowerOn : Config.testParams.wellFormed = true ∧
    FlashOk (State.powerOn Config.testParams [(0, 0x12), (0x1FFFFF, 0)] []) := by unfold FlashOk; decide
/-- A state inside a tile, with a data byte in the FIFO, that meets the whole invariant (and so the port's part of it,
EveryStepKeepsThePort's hypotheses) and steps on. -/
theorem witness_EveryStepKeepsTheInvariant :
    MachineInv (withByte 0xFF { ready with state := .tileP1R4, pix := 64 }) ∧
      ∃ t, step (withByte 0xFF { ready with state := .tileP1R4, pix := 64 }) = .next t := by
  refine ⟨?_, _, rfl⟩
  unfold MachineInv LiveFields RangesOk AddressOk FlashOk PortOk
  decide +kernel
/-- The invariant shuts out an ADDR_HIGH that no ADDR_LOW came before. -/
theorem test_invariant_addr_high : live { State.reset with state := .addrHigh } = false ∧
    live { State.reset with state := .addrHigh, lat1 := .val 0x34 } = true := by decide
theorem witness_EveryStepKeepsTheFlashCanonical :
    FlashOk { at' 0x1FFFFE with flash := [(0x1FFFFF, 0)] } := by unfold FlashOk; decide
/-- The three movements of the tail: none, one slot (here the wrap), the reset step. -/
theorem witness_StreamPositionMovesByOneSlot :
    (stepped { ready with tail := 5, head := 5 }).tail = 5 ∧
      (stepped { ready with tail := 63, head := 1, ring := [(0, 0xE0), (63, 0xE0)] }).tail = 0 ∧
      (stepped { ready with tail := 5, head := 0xFF }).tail = 0 := by decide
/-- A data byte of a tile, over erased flash and over a flash byte already cleared. -/
theorem witness_FlashContentsSteerNothing :
    ∃ t u, step (withByte 0xFF { ready with state := .tileP1R4, pix := 64 }) = .next t ∧
      step { withByte 0xFF { ready with state := .tileP1R4, pix := 64 } with flash := [(0x1FFFFF, 0)] } = .next u ∧
      t.hung = false ∧ u.hung = false := ⟨_, _, rfl, rfl, by decide +kernel, by decide +kernel⟩
/-- A bit that becomes 1: a committed erase over a cleared byte. -/
theorem witness_OnlyACommittedEraseSetsBits :
    ∃ t, step (withByte 0 { at' 0x010000 with state := .eraseCheck, eraseCount := .val 0, flash := [(0x10000, 0)] }) = .next t ∧
      (Memory.read [(0x10000, 0)] 0x10000).getLsbD 0 = false ∧ (Memory.read t.flash 0x10000).getLsbD 0 = true :=
  ⟨_, rfl, by decide, by decide⟩
/-- Steps that change an entry: a colour byte, and the reset step. -/
theorem witness_OnlyLutOpcodesWriteTheLut :
    (∃ t, step (withByte 0x55 { ready with state := .lut1Color1, lutIndex := .val 0 }) = .next t ∧
      lutEntry t 0 ≠ lutEntry ready 0) ∧
    ∃ t, step { ready with head := 0xFF } = .next t ∧ lutEntry t 0 ≠ lutEntry ready 0 :=
  ⟨⟨_, rfl, by decide⟩, _, rfl, by decide⟩

end Sys2Proof.Tests
end

section
/-! ### The ERASE checksum (R136, R137) -/

namespace Sys2Proof.Machine

/-- R137's identity on bytes: XOR with 0xFF is the complement, and the complement of a negation is one less. -/
theorem eraseExpected_eq_sum (count lat1 lat2 : Byte) :
    eraseExpected count lat1 lat2 = count + lat1 + lat2 - 1#8 := by
  have hneg : 0#8 - count - lat1 - lat2 = -(count + lat1 + lat2) := by rw [BitVec.zero_sub]; ring
  calc eraseExpected count lat1 lat2
    _ = ~~~(0#8 - count - lat1 - lat2) := BitVec.allOnes_xor
    _ = count + lat1 + lat2 - 1#8 := by rw [hneg, BitVec.not_neg]

/-- Settles O29: the checksum identity on bytes, read as numbers. -/
theorem eraseChecksumIdentity : Obligations.EraseChecksumIdentity := by
  unfold Obligations.EraseChecksumIdentity
  intro count lat1 lat2
  rw [eraseExpected_eq_sum]
  simp only [BitVec.toNat_sub, BitVec.toNat_add, BitVec.toNat_ofNat]
  omega

end Sys2Proof.Machine
end

section
/-! ### How many data bytes an R4 opcode can take (R86)

The worst stream under R176 repeats "literal, the same literal, count 0": three nybbles for two groups. So let a group
earn three units and a nybble cost two; the run state tells how much is in hand, and every nybble can pay. -/

namespace Sys2Proof.Machine

open Sys2Proof.Safety

/-- The credit of a run state: 0 at the start and after a run count, 1 after a new group, 2 with a run armed. -/
def r4Credit (run : Bool) (prev : Option Nybble) : Nat := if run then 2 else if prev.isSome then 1 else 0

/-- Bits of pixel indices still to come. -/
def r4BitsLeft (n : Bpp) (p : R4Progress) : Nat := p.pix * n.bits

/-- Under R176 a nybble costs two credits, and each group it emits earns three. -/
theorem r4Default_credit (run : Bool) (prev : Option Nybble) (v : Nybble) :
    r4Credit (r4Default run prev v).run (r4Default run prev v).prev + 2 ≤
      3 * (r4Default run prev v).emit.length + r4Credit run prev := by
  unfold r4Default
  split_ifs with hrun hprev
  · simp [r4Credit, hrun]
  · simp [r4Credit, hrun, ← hprev]
  · simp [r4Credit]

theorem r4Advance_of_pix_zero {p : R4Progress} (h : p.pix = 0) (rows : List Config.R4Row) (n : Bpp) (v : Nybble) :
    r4Advance rows n p v = p := by simp [r4Advance, h]

/-- A nybble that does not end the opcode pays for itself out of the bits left and the credit. -/
theorem r4Advance_pays (n : Bpp) (p : R4Progress) (v : Nybble) (h : 0 < (r4Advance [] n p v).pix) :
    3 * r4BitsLeft n (r4Advance [] n p v) + 4 * r4Credit (r4Advance [] n p v).run (r4Advance [] n p v).prev + 8 ≤
      3 * r4BitsLeft n p + 4 * r4Credit p.run p.prev := by
  rcases Nat.eq_zero_or_pos p.pix with hp | hp
  · rw [r4Advance_of_pix_zero hp] at h; omega
  · have hcredit := r4Default_credit p.run p.prev v
    simp only [r4Advance, hp.ne', if_false, r4Decide_nil, r4BitsLeft] at h ⊢
    generalize (r4Default p.run p.prev v).emit.length = m at h hcredit ⊢
    have hbits : m * pixelsPerGroup n * n.bits = 4 * m := by
      rw [Nat.mul_assoc, pixelsPerGroup_bits, Nat.mul_comm]
    have hle : m * pixelsPerGroup n * n.bits ≤ p.pix * n.bits := Nat.mul_le_mul_right _ (by omega)
    rw [Nat.sub_mul]
    omega

theorem r4Count_of_pix_zero {p : R4Progress} (h : p.pix = 0) (rows : List Config.R4Row) (n : Bpp)
    (data : List Byte) : r4Count rows n p data = some 0 := by
  unfold r4Count; exact if_pos h

theorem r4Count_nil_of_pix_pos {p : R4Progress} (h : 0 < p.pix) (rows : List Config.R4Row) (n : Bpp) :
    r4Count rows n p [] = none := by
  unfold r4Count; exact if_neg h.ne'

/-- While pixels are left the next data byte is consumed, and the count goes on behind it. -/
theorem r4Count_cons_eq_some {rows : List Config.R4Row} {n : Bpp} {p : R4Progress} {b : Byte} {rest : List Byte}
    {k : Nat} (hp : 0 < p.pix) :
    r4Count rows n p (b :: rest) = some k ↔
      ∃ j, r4Count rows n (byteProgress rows n p b) rest = some j ∧ k = j + 1 := by
  rw [r4Count, if_neg hp.ne']
  simp [byteProgress, eq_comm]

/-- A data byte that does not end the opcode pays for its two nybbles. -/
theorem byteProgress_pays (n : Bpp) (p : R4Progress) (b : Byte) (h : 0 < (byteProgress [] n p b).pix) :
    3 * r4BitsLeft n (byteProgress [] n p b)
        + 4 * r4Credit (byteProgress [] n p b).run (byteProgress [] n p b).prev + 16 ≤
      3 * r4BitsLeft n p + 4 * r4Credit p.run p.prev := by
  have hlow : 0 < (r4Advance [] n p (lowNybble b)).pix := by
    by_contra hz
    rw [byteProgress, r4Advance_of_pix_zero (by omega)] at h
    exact hz h
  have h1 := r4Advance_pays n p (lowNybble b) hlow
  have h2 := r4Advance_pays n _ (highNybble b) h
  unfold byteProgress
  omega

theorem r4BitsLeft_pos {n : Bpp} {p : R4Progress} (h : 0 < p.pix) : 0 < r4BitsLeft n p :=
  Nat.mul_pos h (by cases n <;> decide)

/-- The bound for an opcode in progress: a data byte costs 16, out of 3 for each bit left and 4 for each credit. The 13
makes up what the last byte may lack, which as little as one bit left asks for. -/
theorem r4Count_le {n : Bpp} {p : R4Progress} {data : List Byte} {k : Nat} (hp : 0 < p.pix)
    (h : r4Count [] n p data = some k) : 16 * k ≤ 3 * r4BitsLeft n p + 4 * r4Credit p.run p.prev + 13 := by
  induction data generalizing p k with
  | nil => simp [r4Count_nil_of_pix_pos hp] at h
  | cons b rest ih =>
    obtain ⟨j, hj, rfl⟩ := (r4Count_cons_eq_some hp).1 h
    rcases Nat.eq_zero_or_pos (byteProgress [] n p b).pix with hq | hq
    · obtain rfl : 0 = j := by simpa [r4Count_of_pix_zero hq] using hj
      have hleft := r4BitsLeft_pos (n := n) hp
      omega
    · have hrest := ih hq hj
      have hbyte := byteProgress_pays n p b hq
      omega

theorem r4Count_pos {rows : List Config.R4Row} {n : Bpp} {p : R4Progress} {data : List Byte} {k : Nat}
    (hp : 0 < p.pix) (h : r4Count rows n p data = some k) : 0 < k := by
  cases data with
  | nil => simp [r4Count_nil_of_pix_pos hp] at h
  | cons b rest =>
    obtain ⟨j, _, rfl⟩ := (r4Count_cons_eq_some hp).1 h
    exact Nat.succ_pos j

theorem r4Fresh_pix (x : BitVec 5) : (r4Fresh x).pix = 64 * (x.toNat + 1) := Nat.mul_comm _ _

/-- Settles O7: the bound of `r4Count_le` at the start of an opcode, with no credit and all 64 * (x + 1) pixels to
come. -/
theorem r4DataLengthIsBounded : Obligations.R4DataLengthIsBounded := by
  unfold Obligations.R4DataLengthIsBounded
  intro n x data k h
  have hpos : 0 < (r4Fresh x).pix := by rw [r4Fresh_pix]; omega
  refine ⟨r4Count_pos hpos h, ?_⟩
  have hle := r4Count_le hpos h
  have hbits : r4BitsLeft n (r4Fresh x) = 64 * (n.bits * (x.toNat + 1)) := by
    rw [r4BitsLeft, r4Fresh_pix, Nat.mul_assoc, Nat.mul_comm (x.toNat + 1)]
  have hcredit : r4Credit (r4Fresh x).run (r4Fresh x).prev = 0 := rfl
  rw [Nat.mul_assoc]
  omega

end Sys2Proof.Machine
end

section
/-! ### A whole R4 opcode (R173, R175 to R181)

The run decoder of the machine follows `r4Advance`, and what it emits is `nybbleIndices`: said for a nybble, then a
byte, then the data of the whole opcode. -/

namespace Sys2Proof.Machine

open Sys2Proof.Safety

/-! #### Progress and indices -/

/-- A nybble uses up exactly the pixels it emits. -/
theorem r4Advance_pix (rows : List Config.R4Row) (n : Bpp) (p : R4Progress) (v : Nybble) :
    (r4Advance rows n p v).pix = p.pix - (nybbleIndices rows n p v).length := by
  unfold r4Advance nybbleIndices
  split_ifs with hp
  · rfl
  · have hlen : ((r4Decide rows n p.run p.prev v).emit.flatMap (groupIndices n)).length =
        (r4Decide rows n p.run p.prev v).emit.length * pixelsPerGroup n := by
      simp [List.length_flatMap, groupIndices]
    rw [List.length_take, hlen]
    dsimp only
    omega

theorem nybbleIndices_length_le (rows : List Config.R4Row) (n : Bpp) (p : R4Progress) (v : Nybble) :
    (nybbleIndices rows n p v).length ≤ p.pix := by
  unfold nybbleIndices
  split_ifs
  · exact Nat.zero_le _
  · exact List.length_take_le _ _

/-- A data byte uses up exactly the pixels it emits. -/
theorem byteProgress_pix (rows : List Config.R4Row) (n : Bpp) (p : R4Progress) (b : Byte) :
    (byteProgress rows n p b).pix = p.pix - (byteIndices rows n p b).length := by
  simp only [byteProgress, byteIndices, r4Advance_pix, List.length_append]
  omega

theorem byteIndices_length_le (rows : List Config.R4Row) (n : Bpp) (p : R4Progress) (b : Byte) :
    (byteIndices rows n p b).length ≤ p.pix := by
  have h1 := nybbleIndices_length_le rows n p (lowNybble b)
  have h2 := nybbleIndices_length_le rows n (r4Advance rows n p (lowNybble b)) (highNybble b)
  rw [r4Advance_pix] at h2
  simp only [byteIndices, List.length_append]
  omega

/-- Data that end where the opcode does emit exactly the pixels that were left. -/
theorem streamIndices_length {rows : List Config.R4Row} {n : Bpp} {p : R4Progress} {data : List Byte}
    (h : r4Count rows n p data = some data.length) : (streamIndices rows n p data).length = p.pix := by
  induction data generalizing p with
  | nil =>
    rcases Nat.eq_zero_or_pos p.pix with hp | hp
    · simp [streamIndices, hp]
    · simp [r4Count_nil_of_pix_pos hp] at h
  | cons b rest ih =>
    rcases Nat.eq_zero_or_pos p.pix with hp | hp
    · simp [r4Count_of_pix_zero hp] at h
    · obtain ⟨j, hj, hk⟩ := (r4Count_cons_eq_some hp).1 h
      obtain rfl : rest.length = j := by simpa using hk
      have hle := byteIndices_length_le rows n p b
      rw [streamIndices, List.length_append, ih hj, byteProgress_pix]
      omega

/-! #### Nybbles and bytes of the machine -/

/-- The state after an R4 opcode has emitted `cs` and its run decoder has come to `q`. -/
def r4Emitted (cs : List Colour) (q : R4Progress) (s : State) : State :=
  { emittedPixels cs s with rleRun := q.run, rlePrev := q.prev }

theorem r4Emitted_nil (s : State) : r4Emitted [] (r4Progress s) s = s := by
  simp only [r4Emitted, emittedPixels_nil, r4Progress]

@[simp] theorem r4Emitted_params (cs : List Colour) (q : R4Progress) (s : State) :
    (r4Emitted cs q s).params = s.params := emitted_params _ _
@[simp] theorem r4Emitted_lut (cs : List Colour) (q : R4Progress) (s : State) :
    (r4Emitted cs q s).lut = s.lut := emitted_lut _ _
@[simp] theorem r4Emitted_pix (cs : List Colour) (q : R4Progress) (s : State) :
    (r4Emitted cs q s).pix = s.pix - cs.length := rfl
@[simp] theorem r4Emitted_state (cs : List Colour) (q : R4Progress) (s : State) :
    (r4Emitted cs q s).state = s.state := by
  rw [r4Emitted, emittedPixels, emitted_frame]
@[simp] theorem r4Emitted_flash (cs : List Colour) (q : R4Progress) (s : State) :
    (r4Emitted cs q s).flash = Memory.writeList s.flash (latchAddr s).toNat (pixelBytes cs) := emitted_flash _ _
@[simp] theorem latchAddr_r4Emitted (cs : List Colour) (q : R4Progress) (s : State) :
    latchAddr (r4Emitted cs q s) = latchAddr s + BitVec.ofNat 24 (2 * cs.length) := by
  rw [← pixelBytes_length]
  exact emitted_latchAddr _ _
@[simp] theorem running_r4Emitted (cs : List Colour) (q : R4Progress) (s : State) :
    running (r4Emitted cs q s) = running s := by
  rw [r4Emitted, emittedPixels, emitted_frame]; rfl

/-- Emission leaves the decoder's state. -/
theorem r4Emitted_setState_self (cs : List Colour) (q : R4Progress) (s : State) :
    { r4Emitted cs q s with state := s.state } = r4Emitted cs q s := by
  rw [← r4Emitted_state cs q s]

theorem r4Progress_r4Emitted {cs : List Colour} {q : R4Progress} {s : State} (h : q.pix = s.pix - cs.length) :
    r4Progress (r4Emitted cs q s) = q := by
  rw [r4Progress, r4Emitted_pix, ← h]; rfl

/-- Emission neither reads nor writes the run state. -/
theorem emittedPixels_setRun (cs : List Colour) (run : Bool) (prev : Option Nybble) (s : State) :
    emittedPixels cs { s with rleRun := run, rlePrev := prev } =
      { emittedPixels cs s with rleRun := run, rlePrev := prev } := by
  unfold emittedPixels emitted
  split_ifs <;> rfl

/-- The flash takes the pixels of `cs`, of which there may be none. -/
def canEmitPixels (cs : List Colour) (s : State) : Prop := cs = [] ∨ canEmit s (pixelBytes cs)

theorem canEmitPixels_left {cs ds : List Colour} {s : State} (h : canEmitPixels (cs ++ ds) s) : canEmitPixels cs s :=
  h.imp (fun hnil => (List.append_eq_nil_iff.1 hnil).1) canEmit_pixels_left

theorem canEmitPixels_right {cs ds : List Colour} {q : R4Progress} {s : State} (h : canEmitPixels (cs ++ ds) s) :
    canEmitPixels ds (r4Emitted cs q s) := by
  rcases eq_or_ne ds [] with hd | hd
  · exact .inl hd
  · exact .inr (canEmit_pixels_right (h.resolve_left (by simp [hd])) hd)

/-- Emitting the pixels of two stretches of an R4 opcode, one after the other. -/
theorem r4Emitted_append {cs ds : List Colour} {q q' : R4Progress} {s : State} (h : canEmitPixels (cs ++ ds) s) :
    r4Emitted ds q' (r4Emitted cs q s) = r4Emitted (cs ++ ds) q' s := by
  rcases h with h | h
  · obtain ⟨rfl, rfl⟩ := List.append_eq_nil_iff.1 h
    simp [r4Emitted]
  · unfold r4Emitted
    rw [emittedPixels_setRun, emittedPixels_append h]

/-- A nybble whose entries are loaded and whose pixels the flash takes (R176). -/
theorem r4Nybble_ok {n : Bpp} {v : Nybble} {s : State} {cs : List Colour}
    (hc : lutColours s (nybbleIndices s.params.rle4 n (r4Progress s) v) = some cs) (he : canEmitPixels cs s) :
    r4Nybble n v s = .go (r4Emitted cs (r4Advance s.params.rle4 n (r4Progress s) v) s) := by
  rcases Nat.eq_zero_or_pos s.pix with hp | hp
  · obtain rfl : [] = cs := by simpa [nybbleIndices, r4Progress, hp] using hc
    rw [r4Nybble, if_pos hp, r4Advance_of_pix_zero hp, r4Emitted_nil]
  · have hpix : (r4Progress s).pix ≠ 0 := hp.ne'
    rw [nybbleIndices, if_neg hpix] at hc
    rw [r4Nybble, if_neg hp.ne', r4Advance, if_neg hpix]
    have hgroups : emitGroups n (r4Decide s.params.rle4 n s.rleRun s.rlePrev v).emit s = .go (emittedPixels cs s) :=
      emitGroups_ok n _ s cs hc he
    simp only [hgroups, Flow.andThen_go]
    rfl

/-- A data byte whose entries are loaded and whose pixels the flash takes (R177). -/
theorem r4Byte_ok {n : Bpp} {b : Byte} {s : State} {cs : List Colour}
    (hc : lutColours s (byteIndices s.params.rle4 n (r4Progress s) b) = some cs) (he : canEmitPixels cs s) :
    r4Byte n b s = .go
      { r4Emitted cs (byteProgress s.params.rle4 n (r4Progress s) b) s with
        state := if s.pix - cs.length = 0 then .opcode else s.state } := by
  obtain ⟨ds, es, hds, hes, rfl⟩ := lutColours_append_some.1 hc
  have hlow := r4Nybble_ok hds (canEmitPixels_left he)
  have hprogress : r4Progress (r4Emitted ds (r4Advance s.params.rle4 n (r4Progress s) (lowNybble b)) s) =
      r4Advance s.params.rle4 n (r4Progress s) (lowNybble b) :=
    r4Progress_r4Emitted (by rw [r4Advance_pix, lutColours_length hds]; rfl)
  have hhigh := r4Nybble_ok (n := n) (v := highNybble b) (cs := es)
    (s := r4Emitted ds (r4Advance s.params.rle4 n (r4Progress s) (lowNybble b)) s)
    (by rwa [hprogress, r4Emitted_params, lutColours_congr (r4Emitted_lut _ _ s)]) (canEmitPixels_right he)
  rw [hprogress, r4Emitted_params, r4Emitted_append he] at hhigh
  rw [r4Byte, hlow, Flow.andThen_go, hhigh, Flow.andThen_go, r4Emitted_pix]
  split_ifs
  · rfl
  · rw [r4Emitted_setState_self]; rfl

/-! #### The instructions of a codec, one byte after another -/

/-- The state that reads the data bytes of the n bpp codec. -/
def r4DataState (n : Bpp) : DecoderState :=
  match n with
  | .one => .tileP1R4
  | .two => .tileP2R4
  | .four => .tileP4R4

theorem exec_r4DataInstr (n : Bpp) (b : Byte) (s : State) : exec (r4DataInstr n b) s = (r4Byte n b s).outcome := by
  cases n <;> rfl

theorem stepByte_r4Data {n : Bpp} {s : State} (h : s.state = r4DataState n) (b : Byte) :
    stepByte b s = (r4Byte n b s).outcome := by
  rw [← exec_r4DataInstr, stepByte, h]
  cases n <;> rfl

/-- The instruction of the opcode byte of the n bpp codec. -/
def r4OpcodeInstr (n : Bpp) (x : BitVec 5) : Instr :=
  match n with
  | .one => .tileP1R4 x
  | .two => .tileP2R4 x
  | .four => .tileP4R4 x

theorem decodeOpcode_r4OpcodeByte (n : Bpp) (x : BitVec 5) : decodeOpcode (r4OpcodeByte n x) = r4OpcodeInstr n x := by
  cases n <;> revert x <;> decide

/-- What the opcode byte of the n bpp codec leaves: a fresh opcode of argument x (R177). -/
def r4Opened (n : Bpp) (x : BitVec 5) (s : State) : State :=
  r4Start x (r4DataState n) (latchOpcode (r4OpcodeByte n x) s)

theorem r4Progress_r4Opened (n : Bpp) (x : BitVec 5) (s : State) : r4Progress (r4Opened n x s) = r4Fresh x := rfl

theorem stepByte_r4Opcode {s : State} (h : s.state = .opcode) (n : Bpp) (x : BitVec 5) :
    stepByte (r4OpcodeByte n x) s = .next (r4Opened n x s) := by
  rw [stepByte, h, decode, decodeOpcode_r4OpcodeByte]
  cases n <;> rfl

theorem running_iff {s : State} : running s = true ↔ s.fault = none ∧ s.hung = false := by
  simp [running]

theorem feed_cons_of_running {b : Byte} {rest : List Byte} {s t : State} (hr : running s = true)
    (h : stepByte b s = .next t) : feed (b :: rest) s = feed rest t := by
  obtain ⟨hfault, hhung⟩ := running_iff.1 hr
  simp [feed, hfault, hhung, h]

/-- The data of an R4 opcode in progress, to its end (R181). -/
theorem feed_r4Data_ok {n : Bpp} {data : List Byte} {s : State} {cs : List Colour}
    (hs : s.state = r4DataState n) (hr : running s = true) (hp : 0 < s.pix)
    (hk : r4Count s.params.rle4 n (r4Progress s) data = some data.length)
    (hc : lutColours s (streamIndices s.params.rle4 n (r4Progress s) data) = some cs) (he : canEmitPixels cs s) :
    ∃ q, feed data s = .next { r4Emitted cs q s with state := .opcode } := by
  induction data generalizing s cs with
  | nil => simp [r4Count_nil_of_pix_pos (p := r4Progress s) hp] at hk
  | cons b rest ih =>
    obtain ⟨j, hrest, hj⟩ := (r4Count_cons_eq_some (p := r4Progress s) hp).1 hk
    obtain rfl : rest.length = j := by simpa using hj
    obtain ⟨ds, es, hds, hes, rfl⟩ := lutColours_append_some.1 hc
    have hstep := stepByte_r4Data hs b
    rw [r4Byte_ok hds (canEmitPixels_left he), Flow.outcome_go] at hstep
    have hpix : (byteProgress s.params.rle4 n (r4Progress s) b).pix = s.pix - ds.length := by
      rw [byteProgress_pix, lutColours_length hds]; rfl
    rw [feed_cons_of_running hr hstep]
    generalize byteProgress s.params.rle4 n (r4Progress s) b = q at *
    rcases Nat.eq_zero_or_pos (s.pix - ds.length) with hz | hz
    · have hend := r4Count_of_pix_zero (hpix.trans hz) s.params.rle4 n rest
      obtain rfl : rest = [] := by simpa [hrest] using hend
      obtain rfl : [] = es := by simpa [streamIndices] using hes
      exact ⟨q, by simp [feed, hz]⟩
    · have hgo : { r4Emitted ds q s with state := if s.pix - ds.length = 0 then .opcode else s.state } =
          r4Emitted ds q s := by
        rw [if_neg hz.ne', r4Emitted_setState_self]
      have hprogress := r4Progress_r4Emitted hpix
      obtain ⟨q', hfeed⟩ := ih (s := r4Emitted ds q s) (cs := es) (by simpa using hs) (by simpa using hr) hz
        (by rwa [hprogress, r4Emitted_params])
        (by rwa [hprogress, r4Emitted_params, lutColours_congr (r4Emitted_lut ds q s)]) (canEmitPixels_right he)
      exact ⟨q', by rw [hgo, hfeed, r4Emitted_append he]⟩

/-- Settles O43: the opcode byte starts a fresh opcode, the data run it to its end, and the pixels are as many as
were left at its start. -/
theorem r4InstructionProgramsItsTiles : Obligations.R4InstructionProgramsItsTiles := by
  unfold Obligations.R4InstructionProgramsItsTiles
  intro s n x data cs hs hr hk hc he
  have hlen : cs.length = 64 * (x.toNat + 1) := by
    rw [lutColours_length hc, streamIndices_length hk, r4Fresh_pix]
  have hpix : (r4Opened n x s).pix = 64 * (x.toNat + 1) := r4Fresh_pix x
  obtain ⟨q, hfeed⟩ := feed_r4Data_ok (s := r4Opened n x s) rfl hr (by omega)
    (by rwa [r4Progress_r4Opened]) (by rwa [r4Progress_r4Opened]) (.inr he)
  obtain ⟨hfault, hhung⟩ := running_iff.1 ((running_r4Emitted cs q (r4Opened n x s)).trans hr)
  refine ⟨hlen, _, (feed_cons_of_running hr (stepByte_r4Opcode hs n x)).trans hfeed, rfl, ?_, hfault, hhung,
    r4Emitted_lut cs q _, r4Emitted_flash cs q _, ?_⟩
  · have hsub := r4Emitted_pix cs q (r4Opened n x s)
    rwa [hpix, hlen, Nat.sub_self] at hsub
  · have haddr := latchAddr_r4Emitted cs q (r4Opened n x s)
    rwa [hlen, ← Nat.mul_assoc] at haddr

end Sys2Proof.Machine
end

section
/-! ### What a step does (R110, R111, R117, R227) -/

namespace Sys2Proof.Machine

open Sys2Proof.Safety

/-- The state once its turn is off the schedule, which is empty past its end (log entry 8). -/
def turnTaken (s : State) : State := { s with schedule := s.schedule.tail }

/-- Whose turn it is, by the schedule or past its end. -/
theorem nextMove_eq_of_turn (s : State) :
    nextMove s =
      if decodersTurn s = true then decoderMove (turnTaken s) else .settle (producerMove (turnTaken s)) := by
  unfold nextMove
  cases h : s.schedule with
  | nil =>
    have hs : turnTaken s = s := by rw [turnTaken, h, List.tail_nil, ← h]
    simp [decodersTurn, h, hs]
  | cons a rest => cases a <;> simp [decodersTurn, h, turnTaken]

/-- The moves of R111 and R117: a byte is run, else the reset step, else an idle or a hung decoder's turn, else the
producer's. -/
theorem nextMove_eq (s : State) :
    nextMove s =
      if takesByte s = true then .run (decode s.state (tailByte s)) (popTail (turnTaken s))
      else if takesReset s = true then .settle (decoderResetStep (turnTaken s))
      else if decodersTurn s = true then .settle (turnTaken s)
      else .settle (producerMove (turnTaken s)) := by
  rw [nextMove_eq_of_turn]
  by_cases hturn : decodersTurn s = true
  · have hmove : decoderMove (turnTaken s) =
        if s.hung = true then .settle (turnTaken s)
        else if s.head = s.params.headReset then .settle (decoderResetStep (turnTaken s))
        else if s.head = s.tail then .settle (turnTaken s)
        else .run (decode s.state (tailByte s)) (popTail (turnTaken s)) := rfl
    rw [if_pos hturn, hmove]
    split_ifs <;> simp_all [takesByte, takesReset]
  · simp [takesByte, takesReset, hturn]

theorem fault_eq_none_of_step {s t : State} (h : step s = .next t) : s.fault = none := by
  unfold step at h
  split at h
  · cases h
  · assumption

/-- Every step takes a byte, or is the reset step, or is an idle or hung decoder's, or is the producer's. -/
theorem step_cases {s t : State} (h : step s = .next t) :
    (takesByte s = true ∧ exec (decode s.state (tailByte s)) (popTail (turnTaken s)) = .next t) ∨
    (takesByte s = false ∧ takesReset s = true ∧ t = decoderResetStep (turnTaken s)) ∨
    (takesByte s = false ∧ takesReset s = false ∧ (t = turnTaken s ∨ t = producerMove (turnTaken s))) := by
  have hfault := fault_eq_none_of_step h
  unfold step at h
  simp only [hfault, nextMove_eq] at h
  split_ifs at h with hbyte hreset hturn
  · exact .inl ⟨hbyte, h⟩
  · exact .inr (.inl ⟨eq_false_of_ne_true hbyte, hreset, (Host.Outcome.next.inj h).symm⟩)
  · exact .inr (.inr ⟨eq_false_of_ne_true hbyte, eq_false_of_ne_true hreset, .inl (Host.Outcome.next.inj h).symm⟩)
  · exact .inr (.inr ⟨eq_false_of_ne_true hbyte, eq_false_of_ne_true hreset, .inr (Host.Outcome.next.inj h).symm⟩)

theorem takesByte_iff {s : State} :
    takesByte s = true ↔
      decodersTurn s = true ∧ s.hung = false ∧ s.head ≠ s.params.headReset ∧ s.head ≠ s.tail := by
  simp [takesByte, and_assoc]

/-! #### The producer's turn (R118, R119) -/

/-- A push changes the ring and `head`, or records a fault. -/
theorem push_frame (v : Byte) (s : State) :
    (push v s).state =
      { s with ring := (push v s).state.ring, head := (push v s).state.head, fault := (push v s).state.fault } := by
  unfold push
  split_ifs <;> rfl

/-- The producer's turn changes its own side of the port, its script and the fault record. -/
theorem producerMove_frame (s : State) :
    producerMove s = { s with
      ring := (producerMove s).ring, head := (producerMove s).head, fault := (producerMove s).fault
      script := (producerMove s).script } := by
  unfold producerMove
  split
  · rfl
  · rw [push_frame]
  · rfl

/-! #### No instruction touches the port (R35) -/

/-- What the producer and the taking of bytes see of a state. -/
structure PortSide where
  params : Config.Params
  ring : List Host.Cell
  head : Nat
  tail : Nat
  ack : Nat
  script : List Action
  schedule : List Agent

/-- The port's side of a state. -/
def portSide (s : State) : PortSide := ⟨s.params, s.ring, s.head, s.tail, s.ack, s.script, s.schedule⟩

theorem OnlyEmits.portSide_eq {s t : State} (h : OnlyEmits s t) : portSide t = portSide s := by
  rw [h]; rfl

theorem Flow.andThen_portSide {s : State} {f : Flow} {k : State → Flow} (hf : portSide f.state = portSide s)
    (hk : ∀ u, portSide (k u).state = portSide u) : portSide (f.andThen k).state = portSide s := by
  cases f with
  | go u => exact (hk u).trans hf
  | stop u => exact hf

theorem withLutRead_portSide {i : Nybble} {s : State} {k : Colour → Flow}
    (hk : ∀ c, portSide (k c).state = portSide s) : portSide (withLutRead i s k).state = portSide s := by
  unfold withLutRead
  split
  · exact hk _
  · rfl

theorem repeatFlow_portSide {act : State → Flow} (hact : ∀ u, portSide (act u).state = portSide u) (n : Nat)
    (s : State) : portSide (repeatFlow n act s).state = portSide s := by
  induction n generalizing s with
  | zero => rfl
  | succ n ih => exact Flow.andThen_portSide (hact s) ih

theorem eraseRun_portSide (n blk : Nat) (s : State) : portSide (eraseRun n blk s).state = portSide s := by
  induction n generalizing blk s with
  | zero => rfl
  | succ n ih =>
    unfold eraseRun
    split_ifs
    · rfl
    · exact ih (blk + 1) (eraseBlock blk s)

theorem eraseCheckFlow_portSide (b : Byte) (s : State) : portSide (eraseCheckFlow b s).state = portSide s := by
  unfold eraseCheckFlow withFlashAddr
  split_ifs
  · exact Flow.andThen_portSide (eraseRun_portSide _ _ _) (fun _ => rfl)
  · rfl
  · rfl

theorem tileP0Flow_portSide (x : BitVec 5) (s : State) : portSide (tileP0Flow x s).state = portSide s := by
  unfold tileP0Flow
  split_ifs
  · rfl
  · exact withLutRead_portSide (fun c => Flow.andThen_portSide
      (repeatFlow_portSide (fun u => (emitColor_onlyEmits c u).portSide_eq) _ _) (fun _ => rfl))

theorem r4Nybble_portSide (n : Bpp) (v : Nybble) (s : State) : portSide (r4Nybble n v s).state = portSide s := by
  unfold r4Nybble
  split_ifs
  · rfl
  · exact Flow.andThen_portSide (emitGroups_onlyEmits _ _ _).portSide_eq (fun _ => rfl)

theorem r4Byte_portSide (n : Bpp) (b : Byte) (s : State) : portSide (r4Byte n b s).state = portSide s := by
  refine Flow.andThen_portSide (Flow.andThen_portSide (r4Nybble_portSide _ _ _) (r4Nybble_portSide _ _)) (fun u => ?_)
  split_ifs <;> rfl

theorem p16Loop_portSide (fuel : Nat) (s : State) : portSide (p16Loop fuel s).state = portSide s := by
  induction fuel generalizing s with
  | zero => rfl
  | succ fuel ih =>
    unfold p16Loop
    split_ifs
    · rfl
    · exact Flow.andThen_portSide (emitTilePixel_onlyEmits _ _).portSide_eq (fun u => ih (useMaskBit u))
    · rfl

theorem p16Literal_portSide (c : Colour) (s : State) : portSide (p16Literal c s).state = portSide s :=
  Flow.andThen_portSide (emitTilePixel_onlyEmits c { s with p16Last := .val c, p16HaveLast := true }).portSide_eq
    (fun u => p16Loop_portSide _ (useMaskBit u))

theorem lutWrite0_portSide (i : Nat) (b : Byte) (s : State) : portSide (lutWrite0 i b s) = portSide s := by
  simp [portSide]

theorem lutWrite1_portSide (i : Nat) (b : Byte) (s : State) : portSide (lutWrite1 i b s) = portSide s := by
  simp [portSide]

/-- Every instruction leaves the parameters, the port, the script and the schedule. -/
theorem exec_portSide {i : Instr} {s t : State} (h : exec i s = .next t) : portSide t = portSide s := by
  cases i <;> cases h
  case tileP0 x => exact tileP0Flow_portSide x (latchOpcode _ s)
  case lut1Color1 b => exact lutWrite0_portSide _ b s
  case lut16Color1 b => exact lutWrite0_portSide _ b s
  case lut1Color2 b => exact lutWrite1_portSide _ b s
  case lut16Color2 b => exact lutWrite1_portSide _ b s
  case tileP1R4Data b => exact r4Byte_portSide _ b s
  case tileP2R4Data b => exact r4Byte_portSide _ b s
  case tileP4R4Data b => exact r4Byte_portSide _ b s
  case tileP16Mask b => exact p16Loop_portSide 8 _
  case tileP16High b => exact p16Literal_portSide _ s
  case eraseCheck b => exact eraseCheckFlow_portSide b s
  all_goals rfl

/-- Settles O58: the step's own case gives tail and ack, since no instruction touches the port. -/
theorem streamPositionMovesByOneSlot : Obligations.StreamPositionMovesByOneSlot := by
  unfold Obligations.StreamPositionMovesByOneSlot
  intro s t h
  rcases step_cases h with ⟨hbyte, hx⟩ | ⟨hbyte, hreset, rfl⟩ | ⟨hbyte, hreset, rfl | rfl⟩
  · have hport := exec_portSide hx
    rw [if_pos hbyte]
    exact ⟨congrArg PortSide.tail hport, congrArg PortSide.ack hport⟩
  · simp only [hbyte, hreset, Bool.false_eq_true, if_false, if_true]
    exact ⟨rfl, rfl, rfl⟩
  · simp only [hbyte, hreset, Bool.false_eq_true, if_false]
    exact ⟨rfl, rfl⟩
  · simp only [hbyte, hreset, Bool.false_eq_true, if_false]
    rw [producerMove_frame]
    exact ⟨rfl, rfl⟩

end Sys2Proof.Machine
end

section
/-! ### The port's invariant (R31, R32, R67) -/

namespace Sys2Proof.Machine

open Sys2Proof.Safety

theorem fifoSize_pos_of_wellFormed {p : Config.Params} (h : p.wellFormed = true) : 0 < p.fifoSize := by
  simp only [Config.Params.wellFormed, isPow2, Bool.and_eq_true, beq_iff_eq] at h
  obtain ⟨⟨⟨⟨_, hpow⟩, _⟩, _⟩, _⟩ := h
  rw [← hpow]
  positivity

/-- The slot after `i`, which wraps to 0 (R65). -/
theorem nextSlot_eq {p : Config.Params} {i : Nat} (h : i < p.fifoSize) :
    nextSlot p i = if i + 1 = p.fifoSize then 0 else i + 1 := by
  unfold nextSlot
  split_ifs with hi
  · rw [hi, Nat.mod_self]
  · exact Nat.mod_eq_of_lt (by omega)

theorem nextSlot_lt {p : Config.Params} (h : 0 < p.fifoSize) (i : Nat) : nextSlot p i < p.fifoSize :=
  Nat.mod_lt _ h

/-- How many bytes the FIFO holds, for indices in range (R31). -/
theorem occupancy_eq {s : State} (hh : s.head < s.params.fifoSize) (ht : s.tail < s.params.fifoSize) :
    occupancy s = if s.tail ≤ s.head then s.head - s.tail else s.head + s.params.fifoSize - s.tail := by
  unfold occupancy
  split_ifs with hle
  · have hsum : s.head + s.params.fifoSize - s.tail = s.head - s.tail + s.params.fifoSize := by omega
    rw [hsum, Nat.add_mod_right, Nat.mod_eq_of_lt (by omega)]
  · exact Nat.mod_eq_of_lt (by omega)

/-- The slot one past the last byte held is `head`. -/
theorem slot_occupancy {s : State} (hh : s.head < s.params.fifoSize) (ht : s.tail < s.params.fifoSize) :
    (s.tail + occupancy s) % s.params.fifoSize = s.head := by
  have hsum : s.tail + (s.head + s.params.fifoSize - s.tail) = s.head + s.params.fifoSize := by omega
  rw [occupancy, Nat.add_mod_mod, hsum, Nat.add_mod_right, Nat.mod_eq_of_lt hh]

theorem occupancy_popTail {s : State} (hh : s.head < s.params.fifoSize) (ht : s.tail < s.params.fifoSize)
    (hne : s.head ≠ s.tail) : occupancy (popTail s) + 1 = occupancy s := by
  have hnext : nextSlot s.params s.tail < s.params.fifoSize := nextSlot_lt (by omega) _
  rw [occupancy_eq (s := popTail s) hh hnext, occupancy_eq hh ht, popTail_tail, popTail_head, popTail_params,
    nextSlot_eq ht]
  split_ifs <;> omega

theorem occupancy_push {s : State} (hh : s.head < s.params.fifoSize) (ht : s.tail < s.params.fifoSize)
    (hfull : occupancy s ≠ s.params.fifoCapacity) (v : Byte) :
    occupancy { s with ring := Memory.put s.ring s.head v, head := nextSlot s.params s.head } = occupancy s + 1 := by
  have hnext := nextSlot_lt (p := s.params) (by omega) s.head
  rw [occupancy_eq hh ht, Config.Params.fifoCapacity] at hfull
  rw [occupancy_eq (s := { s with ring := _, head := nextSlot s.params s.head }) hnext ht, occupancy_eq hh ht]
  dsimp only
  rw [nextSlot_eq hh]
  split_ifs at hfull ⊢ <;> omega

/-- The port's invariant speaks of the port's side alone. -/
theorem portOk_congr {s t : State} (h : portSide t = portSide s) (hs : PortOk s) : PortOk t := by
  obtain ⟨hparams, hring, hhead, htail, hack, _⟩ := PortSide.mk.inj h
  unfold PortOk occupancy
  rwa [hparams, hring, hhead, htail, hack]

/-- Taking a byte frees the slot it lay in (R112). -/
theorem portOk_popTail {s : State} (h : PortOk s) (hreset : s.head ≠ s.params.headReset) (hne : s.head ≠ s.tail) :
    PortOk (popTail s) := by
  obtain ⟨htail, hhead, hack, hsorted, hring, hheld⟩ := h
  have hhead' := hhead.resolve_right hreset
  refine ⟨nextSlot_lt (by omega) _, hhead, Nat.mod_lt _ (by positivity), hsorted, hring, fun _ k hk => ?_⟩
  have hocc := occupancy_popTail hhead' htail hne
  have hslot := hheld hreset (k + 1) (by omega)
  rw [popTail_tail, popTail_params, nextSlot, Nat.mod_add_mod, Nat.add_assoc, Nat.add_comm 1]
  exact hslot

/-- An empty ring holds what an empty FIFO asks for. -/
theorem portOk_of_empty {s : State} (hw : s.params.wellFormed = true) (hring : s.ring = []) (hhead : s.head = 0)
    (htail : s.tail = 0) (hack : s.ack < 2 ^ s.params.ackBits) : PortOk s := by
  have hpos := fifoSize_pos_of_wellFormed hw
  have hnone : occupancy s = 0 := by rw [occupancy_eq (by omega) (by omega), hhead, htail]; rfl
  exact ⟨by omega, .inl (by omega), hack, by rw [hring]; rfl, by simp [hring], fun _ k hk => by omega⟩

theorem portOk_requestReset {s : State} (h : PortOk s) : PortOk (requestReset s) := by
  obtain ⟨htail, _, hack, hsorted, hring, _⟩ := h
  exact ⟨htail, .inr rfl, hack, hsorted, hring, fun hne => absurd rfl hne⟩

/-- A push stores its byte in the slot after the last byte held (R118). -/
theorem portOk_push {s : State} (h : PortOk s) (v : Byte) : PortOk (push v s).state := by
  unfold push
  split_ifs with hreset hfull
  · exact h
  · exact h
  · obtain ⟨htail, hhead, hack, hsorted, hring, hheld⟩ := h
    have hhead' := hhead.resolve_right hreset
    have hnext : nextSlot s.params s.head < s.params.fifoSize := nextSlot_lt (by omega) _
    refine ⟨htail, .inl hnext, hack, Memory.sorted_put hsorted _ _, fun c hc => ?_, fun _ k hk => ?_⟩
    · rcases Memory.mem_put hc with rfl | hc
      · exact hhead'
      · exact hring c hc
    · rw [Flow.state_go] at hk
      rw [Flow.state_go, Memory.find_put]
      rcases Nat.lt_or_eq_of_le (Nat.lt_succ_iff.1 (occupancy_push hhead' htail hfull v ▸ hk)) with hlt | rfl
      · split_ifs
        · rfl
        · exact hheld hreset k hlt
      · rw [if_pos (slot_occupancy hhead' htail)]
        rfl

theorem portOk_producerMove {s : State} (h : PortOk s) : PortOk (producerMove s) := by
  unfold producerMove
  cases s.script with
  | nil => exact h
  | cons a rest =>
    cases a with
    | push v => exact portOk_push (s := { s with script := rest }) h v
    | requestReset => exact portOk_requestReset (s := { s with script := rest }) h

end Sys2Proof.Machine
end

section
/-! ### The decoder's invariant: emission (R39, R57, R170 to R174)

`Ensures` is the rule of the flows: registers and flash stay sound after every byte, a flow that stops leaves the decoder
faulted or hung, and one that goes through leaves what is asked of it. An even address holds only between pixels, so it
is asked for and not built in. -/

namespace Sys2Proof.Machine

open Sys2Proof.Safety

/-- A known address has three written bytes (R25). -/
def AddressSet (s : State) : Prop :=
  s.addrValid = true → s.low.isSet = true ∧ s.lat1.isSet = true ∧ s.lat2.isSet = true

/-- A known address is even (R57). -/
def Aligned (s : State) : Prop := s.addrValid = true → (latchAddr s).getLsbD 0 = false

/-- What holds of registers and flash after every byte programmed. -/
def RegsOk (s : State) : Prop := RangesOk s ∧ AddressSet s ∧ FlashOk s

/-- The invariant but for the port: between two bytes of the stream a running decoder has its live fields, too. -/
def DecoderOk (s : State) : Prop := RegsOk s ∧ (running s = true → live s = true ∧ Aligned s)

theorem machineInv_iff {s : State} :
    MachineInv s ↔ s.params.wellFormed = true ∧ DecoderOk s ∧ PortOk s := by
  unfold MachineInv DecoderOk RegsOk LiveFields AddressOk AddressSet Aligned
  tauto

/-- In the middle of a byte's work: no stop yet. -/
def Going (s : State) : Prop := running s = true ∧ RegsOk s

/-- Where the flow goes through `P` holds, and where it stops the decoder runs no more. -/
def Flow.Ensures (P : State → Prop) (f : Flow) : Prop :=
  match f with
  | .go t => Going t ∧ P t
  | .stop t => running t = false ∧ RegsOk t

theorem Flow.Ensures.imp {P Q : State → Prop} {f : Flow} (h : f.Ensures P) (hpq : ∀ t, P t → Q t) : f.Ensures Q := by
  cases f with
  | go t => exact ⟨h.1, hpq t h.2⟩
  | stop t => exact h

theorem Flow.Ensures.andThen {P Q : State → Prop} {f : Flow} {k : State → Flow} (hf : f.Ensures P)
    (hk : ∀ t, Going t → P t → (k t).Ensures Q) : (f.andThen k).Ensures Q := by
  cases f with
  | go t => exact hk t hf.1 hf.2
  | stop t => exact hf

/-- A flow that emits also leaves all that emission leaves. -/
theorem Flow.Ensures.and_onlyEmits {P : State → Prop} {s : State} {f : Flow} (hf : f.Ensures P)
    (he : OnlyEmits s f.state) : f.Ensures (fun t => P t ∧ OnlyEmits s t) := by
  cases f with
  | go t => exact ⟨hf.1, hf.2, he⟩
  | stop t => exact hf

theorem Flow.Ensures.decoderOk {f : Flow} (h : f.Ensures (fun t => live t = true ∧ Aligned t)) :
    DecoderOk f.state := by
  cases f with
  | go t => exact ⟨h.1.2, fun _ => h.2⟩
  | stop t => exact ⟨h.2, fun hr => absurd hr (by simp [h.1])⟩

theorem raise_ensures {s : State} (h : RegsOk s) (c : Fault) (P : State → Prop) : (raise c s).Ensures P :=
  ⟨rfl, h⟩

theorem hang_ensures {s : State} (h : RegsOk s) (P : State → Prop) : (hang s).Ensures P :=
  ⟨by simp [running], h⟩

/-! #### Bytes and pixels -/

theorem flashOk_write {s : State} (h : FlashOk s) {a : Nat} (ha : a < s.params.flashBytes) (b : Byte) :
    FlashOk { s with flash := Memory.write s.flash a b } := by
  refine ⟨Memory.wf_write h.1 a b, fun c hc => ?_⟩
  rcases Memory.mem_write hc with rfl | hc
  · exact ha
  · exact h.2 c hc

/-- One byte programmed: sound registers and flash, and the address one further (R170). -/
theorem emitByte_ensures {s : State} (h : Going s) (v : Byte) :
    (emitByte v s).Ensures (fun t => latchAddr t = latchAddr s + 1 ∧ t.pix = s.pix) := by
  obtain ⟨hrun, hregs⟩ := h
  rcases emitByte_cases v s with ⟨_, hx⟩ | ⟨_, _, hx⟩ | ⟨_, _, hx⟩ | ⟨_, hin, _, hx⟩
  · exact hx ▸ raise_ensures hregs _ _
  · exact hx ▸ raise_ensures hregs _ _
  · exact hx ▸ hang_ensures hregs _
  · obtain ⟨hranges, _, hflash⟩ := hregs
    rw [hx]
    exact ⟨⟨hrun, hranges, fun _ => ⟨rfl, rfl, rfl⟩, flashOk_write hflash hin v⟩, latchAddr_setAddr _ _, rfl⟩

theorem getLsbD_zero_add_two (a : Addr) : (a + 1 + 1).getLsbD 0 = a.getLsbD 0 := by
  have hparity (x : Addr) : x.getLsbD 0 = decide (x.toNat % 2 = 1) := by
    rw [BitVec.getLsbD, Nat.testBit_zero]
  have hsum : (a + 1 + 1).toNat % 2 = a.toNat % 2 := by
    simp only [BitVec.toNat_add]
    omega
  rw [hparity, hparity, hsum]

/-- A pixel is two bytes, so an even address stays even (R57, R171). -/
theorem emitColor_ensures {s : State} (h : Going s) (ha : Aligned s) (c : Colour) :
    (emitColor c s).Ensures (fun t => Aligned t ∧ t.pix = s.pix) := by
  refine ((emitByte_ensures h c.b0).and_onlyEmits (emitByte_onlyEmits _ _)).andThen fun u hu hu' => ?_
  obtain ⟨⟨hua, hup⟩, hue⟩ := hu'
  refine ((emitByte_ensures hu c.b1).and_onlyEmits (emitByte_onlyEmits _ _)).imp fun t ht => ?_
  obtain ⟨⟨hta, htp⟩, hte⟩ := ht
  refine ⟨fun hv => ?_, htp.trans hup⟩
  rw [hta, hua, getLsbD_zero_add_two]
  rw [hue.trans hte] at hv
  exact ha hv

theorem emitTilePixel_ensures {s : State} (h : Going s) (ha : Aligned s) (c : Colour) :
    (emitTilePixel c s).Ensures (fun t => Aligned t ∧ t.pix = s.pix - 1) := by
  refine (emitColor_ensures h ha c).andThen fun t ht ht' => ?_
  obtain ⟨hrun, ⟨hpix, hbits, hindex⟩, haddr, hflash⟩ := ht
  exact ⟨⟨hrun, ⟨by dsimp only; omega, hbits, hindex⟩, haddr, hflash⟩, ht'.1, by dsimp only; rw [ht'.2]⟩

theorem withLutRead_ensures {s : State} (h : Going s) {i : Nybble} {k : Colour → Flow} {P : State → Prop}
    (hk : ∀ c, (k c).Ensures P) : (withLutRead i s k).Ensures P := by
  unfold withLutRead
  split
  · exact hk _
  · exact raise_ensures h.2 _ _

theorem emitGroupFrom_ensures {s : State} (h : Going s) (ha : Aligned s) (n : Bpp) (g : Nybble) (m k : Nat) :
    (emitGroupFrom n g m k s).Ensures Aligned := by
  induction m generalizing k s with
  | zero => exact ⟨h, ha⟩
  | succ m ih =>
    unfold emitGroupFrom
    split_ifs
    · exact ⟨h, ha⟩
    · exact (withLutRead_ensures h (emitTilePixel_ensures h ha)).andThen fun t ht ht' => ih ht ht'.1 (k + 1)

theorem emitGroups_ensures {s : State} (h : Going s) (ha : Aligned s) (n : Bpp) (gs : List Nybble) :
    (emitGroups n gs s).Ensures Aligned := by
  induction gs generalizing s with
  | nil => exact ⟨h, ha⟩
  | cons g rest ih => exact (emitGroupFrom_ensures h ha n g _ 0).andThen fun t ht ht' => ih ht ht'

theorem repeatFlow_ensures {act : State → Flow} {P : State → Prop} (hact : ∀ u, Going u → P u → (act u).Ensures P)
    (n : Nat) {s : State} (h : Going s) (hp : P s) : (repeatFlow n act s).Ensures P := by
  induction n generalizing s with
  | zero => exact ⟨h, hp⟩
  | succ n ih => exact (hact s h hp).andThen fun t ht ht' => ih ht ht'

end Sys2Proof.Machine
end

section
/-! ### The decoder's invariant: instructions (R39, R113, R115) -/

namespace Sys2Proof.Machine

open Sys2Proof.Safety

theorem live_of_opcode {s : State} (h : s.state = .opcode) : live s = true := by
  simp [live, h]

/-! #### ERASE and TILE_P0 -/

theorem flashOk_eraseBlock {s : State} (h : FlashOk s) (blk : Nat) : FlashOk (eraseBlock blk s) :=
  ⟨Memory.wf_clear h.1 _ _, fun c hc => h.2 c (Memory.mem_clear hc)⟩

theorem eraseRun_ensures {s : State} (h : Going s) (n blk : Nat) : (eraseRun n blk s).Ensures (fun _ => True) := by
  induction n generalizing blk s with
  | zero => exact ⟨h, trivial⟩
  | succ n ih =>
    obtain ⟨hrun, hranges, haddr, hflash⟩ := h
    unfold eraseRun
    split_ifs
    · exact raise_ensures ⟨hranges, haddr, hflash⟩ _ _
    · exact ih (s := eraseBlock blk s) ⟨hrun, hranges, haddr, flashOk_eraseBlock hflash blk⟩ (blk + 1)

theorem eraseCheckFlow_ensures {s : State} (h : Going s) (ha : Aligned s) (b : Byte) :
    (eraseCheckFlow b s).Ensures (fun t => live t = true ∧ Aligned t) := by
  unfold eraseCheckFlow withFlashAddr
  split_ifs
  · refine (eraseRun_ensures h _ _).andThen fun t ht _ => ?_
    obtain ⟨hrun, hranges, _, hflash⟩ := ht
    exact ⟨⟨hrun, hranges, nofun, hflash⟩, rfl, nofun⟩
  · exact ⟨h, rfl, ha⟩
  · exact raise_ensures h.2 _ _

theorem tileP0Flow_ensures {s : State} (h : Going s) (ha : Aligned s) (x : BitVec 5) :
    (tileP0Flow x s).Ensures (fun t => live t = true ∧ Aligned t) := by
  unfold tileP0Flow
  split_ifs
  · exact raise_ensures h.2 _ _
  · refine withLutRead_ensures h fun c => ?_
    have hpixel (u : State) (hu : Going u) (hu' : Aligned u) : (emitColor c u).Ensures Aligned :=
      (emitColor_ensures hu hu' c).imp fun _ ht => ht.1
    exact (repeatFlow_ensures hpixel _ h ha).andThen fun t ht ht' => ⟨ht, rfl, ht'⟩

/-! #### The R4 codecs -/

/-- An armed run has its nybble (R39). -/
def RunNamed (s : State) : Prop := s.rleRun = true → s.rlePrev.isSome = true

/-- A run is armed with a nybble to repeat: by R176 on the nybble just seen, by a row as R5 asks. -/
theorem r4Decide_run_named {p : Config.Params} (hw : p.wellFormed = true) (n : Bpp) (run : Bool)
    (prev : Option Nybble) (v : Nybble) (h : (r4Decide p.rle4 n run prev v).run = true) :
    (r4Decide p.rle4 n run prev v).prev.isSome = true := by
  unfold r4Decide at h ⊢
  split at h
  next r hr =>
    have hrows : p.rle4.all (fun r => !r.run' || r.prev'.isSome) = true := (Bool.and_eq_true _ _ ▸ hw).2
    have hrow := List.all_eq_true.1 hrows r (List.mem_of_find?_eq_some hr)
    have harmed : r.run' = true := h
    simpa [harmed] using hrow
  next =>
    unfold r4Default at h ⊢
    split_ifs at h ⊢ with hrun hprev
    rw [← hprev]; rfl

/-- What a nybble of an R4 opcode keeps. -/
def R4Ok (s t : State) : Prop := Aligned t ∧ RunNamed t ∧ t.state = s.state ∧ t.params = s.params

theorem r4Nybble_ensures {s : State} (hw : s.params.wellFormed = true) (h : Going s) (ha : Aligned s)
    (hn : RunNamed s) (n : Bpp) (v : Nybble) : (r4Nybble n v s).Ensures (R4Ok s) := by
  unfold r4Nybble
  split_ifs
  · exact ⟨h, ha, hn, rfl, rfl⟩
  · refine ((emitGroups_ensures h ha n _).and_onlyEmits (emitGroups_onlyEmits _ _ _)).andThen fun t ht ht' => ?_
    obtain ⟨hta, hte⟩ := ht'
    exact ⟨ht, hta, r4Decide_run_named hw n _ _ v, by rw [hte], by rw [hte]⟩

theorem live_r4 {s : State} (n : Bpp) (hs : s.state = r4DataState n) :
    live s = true ↔ 0 < s.pix ∧ RunNamed s := by
  cases n <;> cases hr : s.rleRun <;> simp [live, hs, r4DataState, RunNamed, hr]

theorem r4Byte_ensures {s : State} {n : Bpp} (hw : s.params.wellFormed = true) (h : Going s) (ha : Aligned s)
    (hs : s.state = r4DataState n) (hl : live s = true) (b : Byte) :
    (r4Byte n b s).Ensures (fun t => live t = true ∧ Aligned t) := by
  have hn := ((live_r4 n hs).1 hl).2
  have hboth : ((r4Nybble n (lowNybble b) s).andThen (r4Nybble n (highNybble b))).Ensures (R4Ok s) := by
    refine (r4Nybble_ensures hw h ha hn n _).andThen fun u hu hu' => ?_
    obtain ⟨hua, hun, hus, hup⟩ := hu'
    refine (r4Nybble_ensures (hup ▸ hw) hu hua hun n _).imp fun t ht => ?_
    obtain ⟨hta, htn, hts, htp⟩ := ht
    exact ⟨hta, htn, hts.trans hus, htp.trans hup⟩
  refine hboth.andThen fun t ht ht' => ?_
  obtain ⟨hta, htn, hts, _⟩ := ht'
  split_ifs with hpix
  · exact ⟨ht, rfl, hta⟩
  · exact ⟨ht, (live_r4 n (hts.trans hs)).2 ⟨Nat.pos_of_ne_zero hpix, htn⟩, hta⟩

/-! #### TILE_P16 -/

/-- A mask byte in work: `pix` keeps step with its bits, and it and the last colour, if there is one, are there (R39,
R184). -/
def P16Due (s : State) : Prop :=
  s.p16Bits ≤ 8 ∧ s.p16Bits ≤ s.pix ∧ s.pix % 8 = s.p16Bits % 8 ∧ s.p16Mask.isSet = true
    ∧ (s.p16HaveLast = true → s.p16Last.isSet = true)

/-- The next mask bit asks for a literal (R185, R186). -/
def LiteralDue (s : State) : Prop := P16Due s ∧ 1 ≤ s.p16Bits ∧ (p16MaskOf s).getLsbD 0 = true

theorem live_tileP16Mask {s : State} (hs : s.state = .tileP16Mask) :
    live s = true ↔
      0 < s.pix ∧ s.pix % 8 = 0 ∧ s.p16Bits = 0 ∧ (s.p16HaveLast = true → s.p16Last.isSet = true) := by
  cases hl : s.p16HaveLast <;> simp [live, hs, hl, and_assoc]

theorem live_tileP16Low {s : State} (hs : s.state = .tileP16Low) : live s = true ↔ LiteralDue s := by
  have hpix : (0 < s.pix ∧ 1 ≤ s.p16Bits ∧ s.p16Bits ≤ 8 ∧ s.pix % 8 = s.p16Bits % 8) ↔
      (s.p16Bits ≤ 8 ∧ s.p16Bits ≤ s.pix ∧ s.pix % 8 = s.p16Bits % 8 ∧ 1 ≤ s.p16Bits) := by omega
  unfold LiteralDue P16Due
  cases hl : s.p16HaveLast <;> simp [live, hs, hl] <;> tauto

theorem live_tileP16High {s : State} (hs : s.state = .tileP16High) :
    live s = true ↔ LiteralDue s ∧ s.p16B0.isSet = true := by
  have hlow : live { s with state := .tileP16Low } = true ↔ LiteralDue s := live_tileP16Low rfl
  rw [← hlow, ← Bool.and_eq_true, live, hs]
  rfl

/-- A pixel that uses a mask bit keeps `pix` and the bits in step. -/
theorem p16Due_useMaskBit {s t : State} (h : P16Due s) (hbits : 1 ≤ s.p16Bits) (ht : OnlyEmits s t)
    (hpix : t.pix = s.pix - 1) : P16Due (useMaskBit t) := by
  obtain ⟨hle, hlepix, hmod, _, hlast⟩ := h
  have htbits : t.p16Bits = s.p16Bits := by rw [ht]
  have htlast : t.p16HaveLast = s.p16HaveLast ∧ t.p16Last = s.p16Last := by rw [ht]; exact ⟨rfl, rfl⟩
  unfold P16Due
  simp only [useMaskBit_pix, useMaskBit_p16Bits, useMaskBit_p16Mask, useMaskBit_p16HaveLast, useMaskBit_p16Last,
    htbits, htlast, hpix]
  exact ⟨by omega, by omega, by omega, rfl, hlast⟩

theorem going_useMaskBit {s : State} (h : Going s) : Going (useMaskBit s) := by
  obtain ⟨hrun, ⟨hpix, hbits, hindex⟩, haddr, hflash⟩ := h
  exact ⟨hrun, ⟨hpix, by rw [useMaskBit_p16Bits]; omega, hindex⟩, haddr, hflash⟩

theorem p16Loop_ensures {fuel : Nat} {s : State} (h : Going s) (ha : Aligned s) (hdue : P16Due s)
    (hfuel : s.p16Bits = fuel) : (p16Loop fuel s).Ensures (fun t => live t = true ∧ Aligned t) := by
  induction fuel generalizing s with
  | zero =>
    obtain ⟨_, _, hmod, _, hlast⟩ := hdue
    refine ⟨h, ?_, ha⟩
    split_ifs with hpix
    · rfl
    · exact (live_tileP16Mask rfl).2 ⟨Nat.pos_of_ne_zero hpix, by dsimp only; omega, hfuel, hlast⟩
  | succ fuel ih =>
    have hbits : 1 ≤ s.p16Bits := by omega
    unfold p16Loop
    split_ifs with hbit hlast
    · exact ⟨h, (live_tileP16Low rfl).2 ⟨hdue, hbits, hbit⟩, ha⟩
    · refine ((emitTilePixel_ensures h ha _).and_onlyEmits (emitTilePixel_onlyEmits _ _)).andThen fun t ht ht' => ?_
      obtain ⟨⟨hta, htp⟩, hte⟩ := ht'
      refine ih (going_useMaskBit ht) hta (p16Due_useMaskBit hdue hbits hte htp) ?_
      have htbits : t.p16Bits = s.p16Bits := by rw [hte]
      rw [useMaskBit_p16Bits, htbits, hfuel, Nat.add_sub_cancel]
    · exact raise_ensures h.2 _ _

/-- A mask byte in TILE_P16_MASK covers eight of the pixels left (R183). -/
theorem p16Mask_ensures {s : State} (h : Going s) (ha : Aligned s) (hs : s.state = .tileP16Mask)
    (hl : live s = true) (b : Byte) :
    (p16Advance { s with p16Mask := .val b, p16Bits := 8 }).Ensures (fun t => live t = true ∧ Aligned t) := by
  obtain ⟨hpos, hmod, _, hlast⟩ := (live_tileP16Mask hs).1 hl
  obtain ⟨hrun, ⟨hpix, _, hindex⟩, haddr, hflash⟩ := h
  exact p16Loop_ensures (s := { s with p16Mask := .val b, p16Bits := 8 })
    ⟨hrun, ⟨hpix, le_refl 8, hindex⟩, haddr, hflash⟩ ha
    ⟨le_refl 8, by dsimp only; omega, by dsimp only; omega, rfl, hlast⟩ rfl

theorem p16Literal_ensures {s : State} (h : Going s) (ha : Aligned s) (hdue : P16Due s) (hbits : 1 ≤ s.p16Bits)
    (c : Colour) : (p16Literal c s).Ensures (fun t => live t = true ∧ Aligned t) := by
  obtain ⟨hle, hlepix, hmod, hmask, _⟩ := hdue
  have hdue' : P16Due { s with p16Last := .val c, p16HaveLast := true } := ⟨hle, hlepix, hmod, hmask, fun _ => rfl⟩
  refine ((emitTilePixel_ensures (s := { s with p16Last := .val c, p16HaveLast := true }) h ha c).and_onlyEmits
    (emitTilePixel_onlyEmits _ _)).andThen fun t ht ht' => ?_
  obtain ⟨⟨hta, htp⟩, hte⟩ := ht'
  exact p16Loop_ensures (going_useMaskBit ht) hta (p16Due_useMaskBit hdue' hbits hte htp) rfl

/-! #### The LUT engine -/

theorem live_lut1 {s : State} (hs : s.state = .lut1Color1 ∨ s.state = .lut1Color2) :
    live s = true ↔ s.lutIndex.isSet = true ∧ lutIndexOf s < 16 := by
  rcases hs with hs | hs <;> simp [live, hs]

theorem live_lut16 {s : State} (hs : s.state = .lut16Color1 ∨ s.state = .lut16Color2) :
    live s = true ↔
      s.lutVecLo.isSet = true ∧ s.lutVecHi.isSet = true ∧ s.lutIndex.isSet = true ∧ lutIndexOf s < 16 ∧
        (lutVec s).getLsbD (lutIndexOf s) = true := by
  rcases hs with hs | hs <;> simp [live, hs, and_assoc]

/-- The walk stops on a set bit of the vector, or ends the opcode (R159). -/
theorem lut16Next_live {s : State} (hlo : s.lutVecLo.isSet = true) (hhi : s.lutVecHi.isSet = true) {i : Nat}
    (hi : i ≤ 16) : live (lut16Next i s) = true := by
  rcases Nat.lt_or_eq_of_le (lut16Target_le (lutVec s) i hi) with hlt | heq
  · obtain ⟨_, _, _, hstop⟩ := lut16Walk_spec (lutVec s) (16 - i) i
    have hbit : (lutVec s).getLsbD (lut16Target (lutVec s) i) = true := hstop (lt_of_lt_of_eq hlt (by omega))
    exact (live_lut16 (.inl (if_neg hlt.ne))).2 ⟨hlo, hhi, rfl, hlt, hbit⟩
  · exact live_of_opcode (if_pos heq)

theorem lut16Next_decoderOk {s : State} (h : RegsOk s) (ha : Aligned s) (hlo : s.lutVecLo.isSet = true)
    (hhi : s.lutVecHi.isSet = true) {i : Nat} (hi : i ≤ 16) : DecoderOk (lut16Next i s) := by
  obtain ⟨⟨hpix, hbits, _⟩, haddr, hflash⟩ := h
  exact ⟨⟨⟨hpix, hbits, fun _ => lut16Target_le (lutVec s) i hi⟩, haddr, hflash⟩,
    fun _ => ⟨lut16Next_live hlo hhi hi, ha⟩⟩

end Sys2Proof.Machine
end

section
/-! ### Every step keeps the invariant (R22, R39) -/

namespace Sys2Proof.Machine

open Sys2Proof.Safety

/-- A byte is read by the state it was decoded in (R84, R113). -/
theorem decode_readIn (st : DecoderState) (b : Byte) : (decode st b).readIn = st := by
  cases st with
  | opcode =>
    change (decodeOpcode b).readIn = .opcode
    unfold decodeOpcode
    split
    case h_8 => unfold decodeSpecial; split_ifs <;> rfl
    all_goals rfl
  | _ => rfl

theorem pixelCountArg_le (x : BitVec 5) : pixelCountArg x ≤ 2048 := by
  have hx := x.isLt
  rw [pixelCountArg, Config.tilePixels]
  omega

theorem pixelCountArg_pos (x : BitVec 5) : 0 < pixelCountArg x := Nat.mul_pos (Nat.succ_pos _) (by decide)

theorem lutWrite0_frame (i : Nat) (b : Byte) (s : State) :
    lutWrite0 i b s = { s with lut := (lutWrite0 i b s).lut } := by
  unfold lutWrite0; split <;> rfl

theorem lutWrite1_frame (i : Nat) (b : Byte) (s : State) :
    lutWrite1 i b s = { s with lut := (lutWrite1 i b s).lut } := by
  unfold lutWrite1; split <;> rfl

/-- The opcode byte of an R4 codec starts a fresh opcode (R177). -/
theorem decoderOk_r4Opened {s : State} (h : RegsOk s) (ha : Aligned s) (n : Bpp) (x : BitVec 5) :
    DecoderOk (r4Opened n x s) := by
  obtain ⟨⟨_, hbits, hindex⟩, haddr, hflash⟩ := h
  exact ⟨⟨⟨pixelCountArg_le x, hbits, hindex⟩, haddr, hflash⟩,
    fun _ => ⟨(live_r4 n rfl).2 ⟨pixelCountArg_pos x, nofun⟩, ha⟩⟩

/-- The opcode bytes (R113). -/
theorem exec_decoderOk_of_opcode {i : Instr} {s t : State} (hread : i.readIn = .opcode) (h : Going s)
    (ha : Aligned s) (hx : exec i s = .next t) : DecoderOk t := by
  have ⟨_, ⟨hpix, hbits, hindex⟩, haddr, hflash⟩ := h
  cases i with
  | lut1 x =>
    cases hx
    have hlt : lutIndexArg x < 16 := (x.extractLsb' 0 4).isLt
    exact ⟨⟨⟨hpix, hbits, fun _ => hlt.le⟩, haddr, hflash⟩, fun _ => ⟨(live_lut1 (.inl rfl)).2 ⟨rfl, hlt⟩, ha⟩⟩
  | tileP0 x => cases hx; exact (tileP0Flow_ensures (s := latchOpcode _ s) h ha x).decoderOk
  | tileP1R4 x => cases hx; exact decoderOk_r4Opened h.2 ha .one x
  | tileP2R4 x => cases hx; exact decoderOk_r4Opened h.2 ha .two x
  | tileP4R4 x => cases hx; exact decoderOk_r4Opened h.2 ha .four x
  | tileP16 x =>
    cases hx
    have hmod : pixelCountArg x % 8 = 0 := by rw [pixelCountArg, Config.tilePixels]; omega
    exact ⟨⟨⟨pixelCountArg_le x, Nat.zero_le _, hindex⟩, haddr, hflash⟩,
      fun _ => ⟨(live_tileP16Mask rfl).2 ⟨pixelCountArg_pos x, hmod, rfl, nofun⟩, ha⟩⟩
  | lut16 _ | address | erase | reserved _ =>
    cases hx
    exact ⟨h.2, fun _ => ⟨rfl, ha⟩⟩
  | _ => cases hread

/-- Whether a known address is even is for its low byte alone to say (R52). -/
theorem latchAddr_getLsbD_zero (s : State) :
    (latchAddr s).getLsbD 0 = (s.low.read (Config.unsetByte .low)).getLsbD 0 := by
  rw [latchAddr, BitVec.getLsbD_append, if_pos (by decide)]

/-- The continuation bytes (R115). -/
theorem exec_decoderOk_of_continuation {i : Instr} {s t : State} (hw : s.params.wellFormed = true)
    (hread : i.readIn = s.state) (hop : s.state ≠ .opcode) (h : Going s) (hlive : live s = true) (ha : Aligned s)
    (hx : exec i s = .next t) : DecoderOk t := by
  have ⟨_, hranges, haddr, hflash⟩ := h
  cases i with
  | lut1Color1 b =>
    cases hx
    have hindex := (live_lut1 (.inl hread.symm)).1 hlive
    rw [lutWrite0_frame]
    exact ⟨h.2, fun _ => ⟨(live_lut1 (.inr rfl)).2 hindex, ha⟩⟩
  | lut1Color2 b =>
    cases hx
    rw [lutWrite1_frame]
    exact ⟨h.2, fun _ => ⟨rfl, ha⟩⟩
  | lut16Vec1 b | eraseCount b =>
    cases hx
    exact ⟨h.2, fun _ => ⟨rfl, ha⟩⟩
  | lut16Vec2 b =>
    cases hx
    have hlo : s.lutVecLo.isSet = true := by rwa [live, ← hread] at hlive
    exact lut16Next_decoderOk (s := { s with lutVecHi := .val b }) h.2 ha hlo rfl (Nat.zero_le 16)
  | lut16Color1 b =>
    cases hx
    have hvec := (live_lut16 (.inl hread.symm)).1 hlive
    rw [lutWrite0_frame]
    exact ⟨h.2, fun _ => ⟨(live_lut16 (.inr rfl)).2 hvec, ha⟩⟩
  | lut16Color2 b =>
    cases hx
    obtain ⟨hlo, hhi, _, hlt, _⟩ := (live_lut16 (.inr hread.symm)).1 hlive
    rw [lutWrite1_frame]
    exact lut16Next_decoderOk (s := { s with lut := _ }) h.2 ha hlo hhi hlt
  | tileP1R4Data b => cases hx; exact (r4Byte_ensures (n := .one) hw h ha hread.symm hlive b).decoderOk
  | tileP2R4Data b => cases hx; exact (r4Byte_ensures (n := .two) hw h ha hread.symm hlive b).decoderOk
  | tileP4R4Data b => cases hx; exact (r4Byte_ensures (n := .four) hw h ha hread.symm hlive b).decoderOk
  | tileP16Mask b => cases hx; exact (p16Mask_ensures h ha hread.symm hlive b).decoderOk
  | tileP16Low b =>
    cases hx
    have hdue := (live_tileP16Low hread.symm).1 hlive
    exact ⟨h.2, fun _ => ⟨(live_tileP16High rfl).2 ⟨hdue, rfl⟩, ha⟩⟩
  | tileP16High b =>
    cases hx
    obtain ⟨⟨hdue, hbits, _⟩, _⟩ := (live_tileP16High hread.symm).1 hlive
    exact (p16Literal_ensures h ha hdue hbits _).decoderOk
  | addrLow b =>
    cases hx
    refine ⟨⟨hranges, fun hv => ⟨(haddr hv).1, rfl, (haddr hv).2.2⟩, hflash⟩, fun _ => ⟨rfl, fun hv => ?_⟩⟩
    rw [latchAddr_getLsbD_zero, ← ha hv, latchAddr_getLsbD_zero]
  | addrHigh b =>
    cases hx
    have hlat1 : s.lat1.isSet = true := by rwa [live, ← hread] at hlive
    refine ⟨⟨hranges, fun _ => ⟨rfl, hlat1, rfl⟩, hflash⟩, fun _ => ⟨rfl, fun _ => ?_⟩⟩
    rw [latchAddr_getLsbD_zero]
    exact BitVec.getLsbD_zero
  | eraseCheck b => cases hx; exact (eraseCheckFlow_ensures h ha b).decoderOk
  | _ => exact absurd hread.symm hop

/-- A byte taken by a running decoder keeps the invariant (R39). -/
theorem exec_decode_decoderOk {s t : State} {b : Byte} (hw : s.params.wellFormed = true) (hrun : running s = true)
    (h : DecoderOk s) (hx : exec (decode s.state b) s = .next t) : DecoderOk t := by
  obtain ⟨hregs, hbetween⟩ := h
  obtain ⟨hlive, ha⟩ := hbetween hrun
  by_cases hop : s.state = .opcode
  · exact exec_decoderOk_of_opcode ((decode_readIn _ b).trans hop) ⟨hrun, hregs⟩ ha hx
  · exact exec_decoderOk_of_continuation hw (decode_readIn _ b) hop ⟨hrun, hregs⟩ hlive ha hx

/-- A reset decoder over sound flash (R38). -/
theorem decoderOk_decoderReset {s : State} (h : FlashOk s) : DecoderOk (decoderReset s) :=
  ⟨⟨⟨Nat.zero_le _, Nat.zero_le _, nofun⟩, nofun, h⟩, fun _ => ⟨rfl, nofun⟩⟩

theorem decoderOk_producerMove {s : State} (h : DecoderOk s) (hf : s.fault = none) : DecoderOk (producerMove s) := by
  obtain ⟨hregs, hbetween⟩ := h
  rw [producerMove_frame]
  exact ⟨hregs, fun hr => hbetween (running_iff.2 ⟨hf, (running_iff.1 hr).2⟩)⟩

/-- Settles O53: the kinds of step, with the decoder's and the port's part of the invariant apart. -/
theorem everyStepKeepsTheInvariant : Obligations.EveryStepKeepsTheInvariant := by
  unfold Obligations.EveryStepKeepsTheInvariant
  intro s t h hstep
  obtain ⟨hw, hdec, hport⟩ := machineInv_iff.1 h
  have hfault := fault_eq_none_of_step hstep
  refine machineInv_iff.2 ?_
  rcases step_cases hstep with ⟨hbyte, hx⟩ | ⟨_, _, rfl⟩ | ⟨_, _, rfl | rfl⟩
  · obtain ⟨_, hhung, hreset, hne⟩ := takesByte_iff.1 hbyte
    have hkept := exec_portSide hx
    have hparams : t.params = s.params := congrArg PortSide.params hkept
    exact ⟨hparams ▸ hw, exec_decode_decoderOk (s := popTail (turnTaken s)) hw (running_iff.2 ⟨hfault, hhung⟩) hdec hx,
      portOk_congr hkept (portOk_popTail (s := turnTaken s) hport hreset hne)⟩
  · obtain ⟨_, _, hack, _⟩ := hport
    obtain ⟨⟨_, _, hflash⟩, _⟩ := hdec
    exact ⟨hw, decoderOk_decoderReset (s := turnTaken s) hflash, portOk_of_empty hw rfl rfl rfl hack⟩
  · exact ⟨hw, hdec, hport⟩
  · have hparams : (producerMove (turnTaken s)).params = s.params := by rw [producerMove_frame]; rfl
    exact ⟨hparams ▸ hw, decoderOk_producerMove (s := turnTaken s) hdec hfault,
      portOk_producerMove (s := turnTaken s) hport⟩

theorem machineInv_powerOn {p : Config.Params} {flash : List Host.Cell} {script : List Action}
    (hw : p.wellFormed = true) (hflash : FlashOk (State.powerOn p flash script)) :
    MachineInv (State.powerOn p flash script) :=
  machineInv_iff.2 ⟨hw, decoderOk_decoderReset (s := State.powerOn p flash script) hflash,
    portOk_of_empty hw rfl rfl rfl (Nat.two_pow_pos _)⟩

/-- Settles O52: State.reset is the power-on state of the test parameters with nothing in flash. -/
theorem invariantHoldsAtPowerOn : Obligations.InvariantHoldsAtPowerOn := by
  unfold Obligations.InvariantHoldsAtPowerOn
  have hreset : FlashOk State.reset := ⟨Memory.reset_flash_wf, nofun⟩
  exact ⟨machineInv_powerOn (by decide) hreset, fun p flash script hw hflash => machineInv_powerOn hw hflash⟩

end Sys2Proof.Machine
end

section
/-! ### What the flash holds steers nothing but a hang (R60, R202, R206)

Two flows agree when they differ in their flash contents alone, or one of them ends in the hang of R222, which is where
the flash is read. -/

namespace Sys2Proof.Machine

open Sys2Proof.Safety

/-- A state over other flash contents. -/
def setFlash (m : List Host.Cell) (s : State) : State := { s with flash := m }

section
variable (m : List Host.Cell) (s : State)

@[simp] theorem setFlash_params : (setFlash m s).params = s.params := rfl
@[simp] theorem setFlash_addrValid : (setFlash m s).addrValid = s.addrValid := rfl
@[simp] theorem setFlash_pix : (setFlash m s).pix = s.pix := rfl
@[simp] theorem setFlash_p16HaveLast : (setFlash m s).p16HaveLast = s.p16HaveLast := rfl
@[simp] theorem setFlash_head : (setFlash m s).head = s.head := rfl
@[simp] theorem setFlash_fault : (setFlash m s).fault = s.fault := rfl
@[simp] theorem setFlash_script : (setFlash m s).script = s.script := rfl
@[simp] theorem lutEntry_setFlash (i : Nybble) : lutEntry (setFlash m s) i = lutEntry s i := rfl
@[simp] theorem p16MaskOf_setFlash : p16MaskOf (setFlash m s) = p16MaskOf s := rfl
@[simp] theorem eraseExpectedOf_setFlash : eraseExpectedOf (setFlash m s) = eraseExpectedOf s := rfl
@[simp] theorem occupancy_setFlash : occupancy (setFlash m s) = occupancy s := rfl
@[simp] theorem takesByte_setFlash : takesByte (setFlash m s) = takesByte s := rfl
@[simp] theorem takesReset_setFlash : takesReset (setFlash m s) = takesReset s := rfl
@[simp] theorem decodersTurn_setFlash : decodersTurn (setFlash m s) = decodersTurn s := rfl

end

/-- Two flows that a difference in flash contents does not tell apart, but by a hang. -/
inductive Flow.AgreesButFlash : Flow → Flow → Prop where
  | go (s : State) (m : List Host.Cell) : AgreesButFlash (.go s) (.go (setFlash m s))
  | stop (s : State) (m : List Host.Cell) : AgreesButFlash (.stop s) (.stop (setFlash m s))
  | hungLeft {s : State} (g : Flow) (h : s.hung = true) : AgreesButFlash (.stop s) g
  | hungRight {s : State} (f : Flow) (h : s.hung = true) : AgreesButFlash f (.stop s)

theorem Flow.AgreesButFlash.state_eq {f g : Flow} (h : f.AgreesButFlash g) (hf : f.state.hung = false)
    (hg : g.state.hung = false) : g.state = { f.state with flash := g.state.flash } := by
  cases h with
  | go s m => rfl
  | stop s m => rfl
  | hungLeft g h => exact absurd h (ne_true_of_eq_false hf)
  | hungRight f h => exact absurd h (ne_true_of_eq_false hg)

theorem Flow.AgreesButFlash.andThen {f g : Flow} {k l : State → Flow} (h : f.AgreesButFlash g)
    (hk : ∀ s m, (k s).AgreesButFlash (l (setFlash m s))) : (f.andThen k).AgreesButFlash (g.andThen l) := by
  cases h with
  | go s m => exact hk s m
  | stop s m => exact .stop s m
  | hungLeft g h => exact .hungLeft _ h
  | hungRight f h => exact .hungRight _ h

/-! #### The shared operations -/

theorem withFlashAddr_agreesButFlash {s : State} (m : List Host.Cell) {k l : Addr → Flow}
    (hk : ∀ a, (k a).AgreesButFlash (l a)) :
    (withFlashAddr s k).AgreesButFlash (withFlashAddr (setFlash m s) l) := by
  unfold withFlashAddr
  rw [setFlash_addrValid]
  split
  · exact hk _
  · exact .stop _ m

theorem withLutRead_agreesButFlash {s : State} (m : List Host.Cell) {i : Nybble} {k l : Colour → Flow}
    (hk : ∀ c, (k c).AgreesButFlash (l c)) :
    (withLutRead i s k).AgreesButFlash (withLutRead i (setFlash m s) l) := by
  unfold withLutRead
  rw [lutEntry_setFlash]
  split
  · exact hk _
  · exact .stop _ m

/-- The one place where flash contents are read: over either contents the program goes through or hangs (R201, R202). -/
theorem flashProgram_agreesButFlash (a : Addr) (v : Byte) (s : State) (m : List Host.Cell) :
    (flashProgram a v s).AgreesButFlash (flashProgram a v (setFlash m s)) := by
  unfold flashProgram
  rw [setFlash_params]
  split_ifs
  · exact .stop _ m
  · exact .hungLeft _ rfl
  · exact .hungLeft _ rfl
  · exact .hungRight _ rfl
  · exact .go _ _

theorem eraseRun_agreesButFlash (n blk : Nat) (s : State) (m : List Host.Cell) :
    (eraseRun n blk s).AgreesButFlash (eraseRun n blk (setFlash m s)) := by
  induction n generalizing blk s m with
  | zero => exact .go s m
  | succ n ih =>
    unfold eraseRun
    rw [setFlash_params]
    split
    · exact .stop _ m
    · exact ih (blk + 1) (eraseBlock blk s) _

theorem repeatFlow_agreesButFlash {act : State → Flow}
    (hact : ∀ s m, (act s).AgreesButFlash (act (setFlash m s))) (n : Nat) (s : State) (m : List Host.Cell) :
    (repeatFlow n act s).AgreesButFlash (repeatFlow n act (setFlash m s)) := by
  induction n generalizing s m with
  | zero => exact .go s m
  | succ n ih => exact (hact s m).andThen ih

/-! #### Emission -/

theorem emitByte_agreesButFlash (v : Byte) (s : State) (m : List Host.Cell) :
    (emitByte v s).AgreesButFlash (emitByte v (setFlash m s)) :=
  withFlashAddr_agreesButFlash m fun a => (flashProgram_agreesButFlash a v s m).andThen
    fun _ m' => withFlashAddr_agreesButFlash m' fun _ => .go _ m'

theorem emitColor_agreesButFlash (c : Colour) (s : State) (m : List Host.Cell) :
    (emitColor c s).AgreesButFlash (emitColor c (setFlash m s)) :=
  (emitByte_agreesButFlash c.b0 s m).andThen (emitByte_agreesButFlash c.b1)

theorem emitTilePixel_agreesButFlash (c : Colour) (s : State) (m : List Host.Cell) :
    (emitTilePixel c s).AgreesButFlash (emitTilePixel c (setFlash m s)) :=
  (emitColor_agreesButFlash c s m).andThen fun _ m' => .go _ m'

theorem emitGroupFrom_agreesButFlash (n : Bpp) (g : Nybble) (p k : Nat) (s : State) (m : List Host.Cell) :
    (emitGroupFrom n g p k s).AgreesButFlash (emitGroupFrom n g p k (setFlash m s)) := by
  induction p generalizing k s m with
  | zero => exact .go s m
  | succ p ih =>
    unfold emitGroupFrom
    rw [setFlash_pix]
    split
    · exact .go s m
    · exact (withLutRead_agreesButFlash m fun c => emitTilePixel_agreesButFlash c s m).andThen (ih (k + 1))

theorem emitGroups_agreesButFlash (n : Bpp) (gs : List Nybble) (s : State) (m : List Host.Cell) :
    (emitGroups n gs s).AgreesButFlash (emitGroups n gs (setFlash m s)) := by
  induction gs generalizing s m with
  | nil => exact .go s m
  | cons g rest ih => exact (emitGroupFrom_agreesButFlash n g _ 0 s m).andThen ih

/-! #### The bytes that touch flash -/

theorem tileP0Flow_agreesButFlash (x : BitVec 5) (s : State) (m : List Host.Cell) :
    (tileP0Flow x s).AgreesButFlash (tileP0Flow x (setFlash m s)) := by
  unfold tileP0Flow
  split
  · exact .stop _ m
  · exact withLutRead_agreesButFlash m fun c =>
      (repeatFlow_agreesButFlash (emitColor_agreesButFlash c) _ s m).andThen fun _ m' => .go _ m'

theorem r4Nybble_agreesButFlash (n : Bpp) (v : Nybble) (s : State) (m : List Host.Cell) :
    (r4Nybble n v s).AgreesButFlash (r4Nybble n v (setFlash m s)) := by
  unfold r4Nybble
  rw [setFlash_pix]
  split
  · exact .go s m
  · exact (emitGroups_agreesButFlash n _ s m).andThen fun _ m' => .go _ m'

theorem r4Byte_agreesButFlash (n : Bpp) (b : Byte) (s : State) (m : List Host.Cell) :
    (r4Byte n b s).AgreesButFlash (r4Byte n b (setFlash m s)) := by
  refine ((r4Nybble_agreesButFlash n _ s m).andThen (r4Nybble_agreesButFlash n _)).andThen fun u m' => ?_
  rw [setFlash_pix]
  split
  · exact .go _ m'
  · exact .go _ m'

theorem p16Loop_agreesButFlash (fuel : Nat) (s : State) (m : List Host.Cell) :
    (p16Loop fuel s).AgreesButFlash (p16Loop fuel (setFlash m s)) := by
  induction fuel generalizing s m with
  | zero => exact .go _ m
  | succ fuel ih =>
    unfold p16Loop
    rw [p16MaskOf_setFlash, setFlash_p16HaveLast]
    split_ifs
    · exact .go _ m
    · exact (emitTilePixel_agreesButFlash _ s m).andThen fun u => ih (useMaskBit u)
    · exact .stop _ m

theorem p16Literal_agreesButFlash (c : Colour) (s : State) (m : List Host.Cell) :
    (p16Literal c s).AgreesButFlash (p16Literal c (setFlash m s)) :=
  (emitTilePixel_agreesButFlash c { s with p16Last := .val c, p16HaveLast := true } m).andThen
    fun u => p16Loop_agreesButFlash _ (useMaskBit u)

theorem eraseCheckFlow_agreesButFlash (b : Byte) (s : State) (m : List Host.Cell) :
    (eraseCheckFlow b s).AgreesButFlash (eraseCheckFlow b (setFlash m s)) := by
  refine withFlashAddr_agreesButFlash m fun a => ?_
  rw [eraseExpectedOf_setFlash]
  split
  · exact (eraseRun_agreesButFlash _ _ s m).andThen fun _ m' => .go _ m'
  · exact .go _ m

/-! #### Every instruction, every move, every step -/

theorem lutWrite0_setFlash (i : Nat) (b : Byte) (s : State) (m : List Host.Cell) :
    lutWrite0 i b (setFlash m s) = setFlash m (lutWrite0 i b s) := by
  unfold lutWrite0; split <;> rfl

theorem lutWrite1_setFlash (i : Nat) (b : Byte) (s : State) (m : List Host.Cell) :
    lutWrite1 i b (setFlash m s) = setFlash m (lutWrite1 i b s) := by
  unfold lutWrite1; split <;> rfl

/-- Only the bytes that touch flash can hang; every other one commutes with a change of the flash contents. -/
theorem exec_agreesButFlash (i : Instr) (s : State) (m : List Host.Cell) :
    ∃ f g : Flow, exec i s = f.outcome ∧ exec i (setFlash m s) = g.outcome ∧ f.AgreesButFlash g := by
  cases i with
  | tileP0 x => exact ⟨_, _, rfl, rfl, tileP0Flow_agreesButFlash x (latchOpcode _ s) m⟩
  | tileP1R4Data b | tileP2R4Data b | tileP4R4Data b => exact ⟨_, _, rfl, rfl, r4Byte_agreesButFlash _ b s m⟩
  | tileP16Mask b => exact ⟨_, _, rfl, rfl, p16Loop_agreesButFlash 8 { s with p16Mask := .val b, p16Bits := 8 } m⟩
  | tileP16High b => exact ⟨_, _, rfl, rfl, p16Literal_agreesButFlash _ s m⟩
  | eraseCheck b => exact ⟨_, _, rfl, rfl, eraseCheckFlow_agreesButFlash b s m⟩
  | lut1Color1 b =>
    have hwrite := congrArg (fun u : State => { u with state := .lut1Color2 }) (lutWrite0_setFlash (lutIndexOf s) b s m)
    exact ⟨.go _, .go _, rfl, congrArg Host.Outcome.next hwrite, .go _ m⟩
  | lut1Color2 b =>
    have hwrite := congrArg (fun u : State => { u with state := .opcode }) (lutWrite1_setFlash (lutIndexOf s) b s m)
    exact ⟨.go _, .go _, rfl, congrArg Host.Outcome.next hwrite, .go _ m⟩
  | lut16Color1 b =>
    have hwrite := congrArg (fun u : State => { u with state := .lut16Color2 }) (lutWrite0_setFlash (lutIndexOf s) b s m)
    exact ⟨.go _, .go _, rfl, congrArg Host.Outcome.next hwrite, .go _ m⟩
  | lut16Color2 b =>
    have hwrite := congrArg (lut16Next (lutIndexOf s + 1)) (lutWrite1_setFlash (lutIndexOf s) b s m)
    exact ⟨.go _, .go _, rfl, congrArg Host.Outcome.next hwrite, .go _ m⟩
  | _ => exact ⟨.go _, .go _, rfl, rfl, .go _ m⟩

/-- The move over other flash contents. -/
def Move.overFlash (m : List Host.Cell) : Move → Move
  | .run i s => .run i (setFlash m s)
  | .settle s => .settle (setFlash m s)

theorem push_setFlash (v : Byte) (s : State) (m : List Host.Cell) :
    (push v (setFlash m s)).state = setFlash m (push v s).state := by
  unfold push
  rw [setFlash_head, setFlash_params, occupancy_setFlash]
  split_ifs <;> rfl

theorem producerMove_setFlash (s : State) (m : List Host.Cell) :
    producerMove (setFlash m s) = setFlash m (producerMove s) := by
  unfold producerMove
  rw [setFlash_script]
  cases s.script with
  | nil => rfl
  | cons a rest =>
    cases a with
    | push v => exact push_setFlash v { s with script := rest } m
    | requestReset => rfl

/-- Who moves, and which byte is taken, is not for the flash to say. -/
theorem nextMove_setFlash (s : State) (m : List Host.Cell) :
    nextMove (setFlash m s) = (nextMove s).overFlash m := by
  rw [nextMove_eq, nextMove_eq, takesByte_setFlash, takesReset_setFlash, decodersTurn_setFlash]
  split_ifs
  · rfl
  · rfl
  · rfl
  · exact congrArg Move.settle (producerMove_setFlash (turnTaken s) m)

/-- Settles O59: the same agent makes the same move, and an instruction's answers differ in flash or in a hang. -/
theorem flashContentsSteerNothing : Obligations.FlashContentsSteerNothing := by
  unfold Obligations.FlashContentsSteerNothing
  intro s t u m ht hu hthung huhung
  have hfault := fault_eq_none_of_step ht
  change step (setFlash m s) = .next u at hu
  simp only [step, setFlash_fault, hfault, nextMove_setFlash] at ht hu
  cases hmove : nextMove s with
  | run i s' =>
    simp only [hmove, Move.overFlash] at ht hu
    obtain ⟨f, g, hf, hg, hagree⟩ := exec_agreesButFlash i s' m
    cases hf.symm.trans ht
    cases hg.symm.trans hu
    exact hagree.state_eq hthung huhung
  | settle s' =>
    simp only [hmove, Move.overFlash] at ht hu
    cases ht
    cases hu
    rfl

end Sys2Proof.Machine
end

section
/-! ### Which instructions touch flash, and which steps the port (R31, R51, R67, R263) -/

namespace Sys2Proof.Machine

open Sys2Proof.Safety

/-- Outside the tile codecs' emitting bytes and the ERASE check byte there is no flash work and no stop (R263). -/
theorem exec_flash_of_not_touchesFlash {i : Instr} {s t : State} (htouch : touchesFlash i = false)
    (h : exec i s = .next t) : t.flash = s.flash ∧ t.fault = s.fault ∧ t.hung = s.hung := by
  cases i with
  | tileP0 _ | tileP1R4Data _ | tileP2R4Data _ | tileP4R4Data _ | tileP16Mask _ | tileP16High _ | eraseCheck _ =>
    cases htouch
  | lut1Color1 b | lut16Color1 b =>
    cases h
    exact ⟨lutWrite0_flash _ b s, lutWrite0_fault _ b s, lutWrite0_hung _ b s⟩
  | lut1Color2 b | lut16Color2 b =>
    cases h
    exact ⟨lutWrite1_flash _ b s, lutWrite1_fault _ b s, lutWrite1_hung _ b s⟩
  | _ =>
    cases h
    exact ⟨rfl, rfl, rfl⟩

/-- Settles O48: the port's side is kept by every instruction, flash and the records by those that do no flash work. -/
theorem otherInstructionsLeaveFlashAlone : Obligations.OtherInstructionsLeaveFlashAlone := by
  unfold Obligations.OtherInstructionsLeaveFlashAlone
  intro i s t h
  exact ⟨fun htouch => exec_flash_of_not_touchesFlash htouch h, PortSide.mk.inj (exec_portSide h)⟩

/-- Settles O55: taking a byte, the reset step and the producer's turn each keep the port sound; an instruction does not
touch it. -/
theorem everyStepKeepsThePort : Obligations.EveryStepKeepsThePort := by
  unfold Obligations.EveryStepKeepsThePort
  intro s t hw hport hstep
  rcases step_cases hstep with ⟨hbyte, hx⟩ | ⟨_, _, rfl⟩ | ⟨_, _, rfl | rfl⟩
  · obtain ⟨_, _, hreset, hne⟩ := takesByte_iff.1 hbyte
    exact portOk_congr (exec_portSide hx) (portOk_popTail (s := turnTaken s) hport hreset hne)
  · obtain ⟨_, _, hack, _⟩ := hport
    exact portOk_of_empty hw rfl rfl rfl hack
  · exact hport
  · exact portOk_producerMove (s := turnTaken s) hport

end Sys2Proof.Machine
end

section
/-! ### Bytes and instructions (R81 to R87) -/

namespace Sys2Proof

/-! #### The two fields of an opcode byte (R81) -/

@[simp] theorem familyOf_append (f : BitVec 3) (x : BitVec 5) : familyOf (f ++ x) = f :=
  BitVec.extractLsb'_append_eq_left

@[simp] theorem argOf_append (f : BitVec 3) (x : BitVec 5) : argOf (f ++ x) = x :=
  BitVec.extractLsb'_append_eq_right

theorem familyOf_append_argOf (b : Byte) : familyOf b ++ argOf b = b :=
  (BitVec.extractLsb'_append_extractLsb'_eq_extractLsb' rfl).trans BitVec.extractLsb'_eq_self

theorem familyOf_toNat (b : Byte) : (familyOf b).toNat = b.toNat / 32 := by
  have hb := b.isLt
  rw [familyOf, BitVec.extractLsb'_toNat, Nat.shiftRight_eq_div_pow]
  omega

/-- A byte is its family's bits in front of its argument. -/
theorem append_argOf {f : BitVec 3} {b : Byte} (h : (familyOf b).toNat = f.toNat) : f ++ argOf b = b := by
  rw [← BitVec.eq_of_toNat_eq h, familyOf_append_argOf]

theorem isReservedByte_iff {b : Byte} : isReservedByte b = true ↔ familyOf b = 7#3 ∧ b ≠ 0xE1#8 ∧ b ≠ 0xF5#8 := by
  simp [isReservedByte, familyOf, and_assoc]

/-! #### Decoding an encoded instruction -/

theorem decodeOpcode_of_isReservedByte {b : Byte} (h : isReservedByte b = true) : decodeOpcode b = .reserved b := by
  obtain ⟨hfamily, haddress, herase⟩ := isReservedByte_iff.1 h
  simp [decodeOpcode, decodeSpecial, hfamily, haddress, herase]

/-- The opcode byte of each opcode form is read as that form: the family's bits choose it and the argument is kept. -/
theorem decodeOpcode_encode {i : Instr} (hread : i.readIn = .opcode) (hw : i.wellFormed = true) :
    decodeOpcode (encode i) = i := by
  cases i with
  | lut1 _ | lut16 _ | tileP0 _ | tileP1R4 _ | tileP2R4 _ | tileP4R4 _ | tileP16 _ => simp [encode, decodeOpcode]
  | address | erase => rfl
  | reserved b => exact decodeOpcode_of_isReservedByte hw
  | _ => cases hread

/-- Settles O1: an opcode form by `decodeOpcode_encode`; a continuation byte is its own operand. -/
theorem decodeOfEncodeIsTheInstruction : Obligations.DecodeOfEncodeIsTheInstruction := by
  unfold Obligations.DecodeOfEncodeIsTheInstruction
  intro i hw
  cases i with
  | lut1 _ | lut16 _ | tileP0 _ | tileP1R4 _ | tileP2R4 _ | tileP4R4 _ | tileP16 _ | address | erase | reserved _ =>
    exact decodeOpcode_encode rfl hw
  | _ => rfl

/-! #### Encoding a decoded byte -/

theorem encode_decodeSpecial (b : Byte) : encode (decodeSpecial b) = b := by
  unfold decodeSpecial
  split_ifs with haddress herase
  · exact haddress.symm
  · exact herase.symm
  · rfl

theorem encode_decodeOpcode (b : Byte) : encode (decodeOpcode b) = b := by
  unfold decodeOpcode
  split
  case h_8 => exact encode_decodeSpecial b
  all_goals rename_i hfamily; exact append_argOf hfamily

theorem decodeSpecial_wellFormed {b : Byte} (h : familyOf b = 7#3) : (decodeSpecial b).wellFormed = true := by
  unfold decodeSpecial
  split_ifs with haddress herase
  · rfl
  · rfl
  · exact isReservedByte_iff.2 ⟨h, haddress, herase⟩

theorem decodeOpcode_wellFormed (b : Byte) : (decodeOpcode b).wellFormed = true := by
  unfold decodeOpcode
  split
  case h_8 =>
    have hlt := (familyOf b).isLt
    have hspecial : (familyOf b).toNat = 7 := by grind
    exact decodeSpecial_wellFormed (BitVec.eq_of_toNat_eq hspecial)
  all_goals rfl

/-- Settles O2: the opcode byte falls into one of the eight families, and a continuation byte is its own operand. -/
theorem encodeOfDecodeIsTheByte : Obligations.EncodeOfDecodeIsTheByte := by
  unfold Obligations.EncodeOfDecodeIsTheByte
  intro st b
  refine ⟨?_, Machine.decode_readIn st b, ?_⟩
  · cases st with
    | opcode => exact decodeOpcode_wellFormed b
    | _ => rfl
  · cases st with
    | opcode => exact encode_decodeOpcode b
    | _ => rfl

/-! #### The opcode map (R82, R83, R87) -/

/-- Settles O4: family k is the 32 bytes from 32 * k on, and the last one is read on all its bits. -/
theorem opcodeMapByRanges : Obligations.OpcodeMapByRanges := by
  unfold Obligations.OpcodeMapByRanges
  intro b
  have hfamily := familyOf_toNat b
  rw [decode, decodeOpcode]
  split
  case h_8 =>
    have hlt := (familyOf b).isLt
    have hspecial : (familyOf b).toNat = 7 := by grind
    have haddress : b = 0xE1#8 ↔ b.toNat = 0xE1 := BitVec.toNat_inj.symm
    have herase : b = 0xF5#8 ↔ b.toNat = 0xF5 := BitVec.toNat_inj.symm
    simp (disch := omega) only [decodeSpecial, haddress, herase, if_neg]
  all_goals simp (disch := omega) only [if_pos, if_neg, argOf]

/-- Settles O3: each byte is evaluated. -/
theorem exampleBytesDecode : Obligations.ExampleBytesDecode := by
  unfold Obligations.ExampleBytesDecode
  decide

end Sys2Proof
end

section
/-! ### Whole instructions: their lengths and reading them back (R80, R86, R90) -/

namespace Sys2Proof.Machine

open Sys2Proof.Safety

/-! #### Lengths -/

theorem flatMap_colourBytes_length (cs : List Colour) : (cs.flatMap colourBytes).length = 2 * cs.length :=
  pixelBytes_length cs

/-- One literal colour for each 1 bit of the mask (R86). -/
def LiteralsFillMask (g : MaskGroup) : Prop := g.literals.length = popcount g.mask

theorem tileP16_wellFormed_iff {x : BitVec 5} {gs : List MaskGroup} :
    (Asm.tileP16 x gs).wellFormed = true ↔ gs.length = 8 * (x.toNat + 1) ∧ ∀ g ∈ gs, LiteralsFillMask g := by
  simp [Asm.wellFormed, LiteralsFillMask]

theorem lut16_wellFormed_iff {vec : BitVec 16} {cs : List Colour} :
    (Asm.lut16 vec cs).wellFormed = true ↔ cs.length = popcount vec := by
  simp [Asm.wellFormed]

theorem flatMap_maskGroupBytes_length {gs : List MaskGroup} (h : ∀ g ∈ gs, LiteralsFillMask g) :
    (gs.flatMap maskGroupBytes).length = gs.length + 2 * (gs.map (fun g => popcount g.mask)).sum := by
  induction gs with
  | nil => rfl
  | cons g gs ih =>
    obtain ⟨hg, hgs⟩ := List.forall_mem_cons.1 h
    have hbytes : (maskGroupBytes g).length = 1 + 2 * popcount g.mask := by
      rw [maskGroupBytes, List.length_cons, flatMap_colourBytes_length, hg, Nat.add_comm]
    simp only [List.flatMap_cons, List.length_append, List.length_cons, List.map_cons, List.sum_cons, hbytes, ih hgs]
    omega

theorem asmComplete_iff {rows : List Config.R4Row} {a : Asm} :
    asmComplete rows a = true ↔ a.wellFormed = true ∧
      ∀ n x data, a = .tileR4 n x data → r4Count rows n (r4Fresh x) data = some data.length := by
  cases a <;> simp [asmComplete]

/-- Settles O6: a colour is two bytes, and there are as many as the vector or the masks have 1 bits. -/
theorem wholeInstructionLengths : Obligations.WholeInstructionLengths := by
  unfold Obligations.WholeInstructionLengths
  intro rows a h
  obtain ⟨hw, -⟩ := asmComplete_iff.1 h
  cases a with
  | lut16 vec cs =>
    have hcs := flatMap_colourBytes_length cs
    rw [lut16_wellFormed_iff.1 hw] at hcs
    simp only [assemble, List.length_cons, hcs, asmLength]
    omega
  | tileP16 x gs =>
    obtain ⟨hlen, hgs⟩ := tileP16_wellFormed_iff.1 hw
    rw [assemble, List.length_cons, flatMap_maskGroupBytes_length hgs, hlen, asmLength]
    omega
  | tileR4 n x data => exact Nat.add_comm _ _
  | _ => rfl

/-! #### Reading the operands back -/

theorem takeColours_flatMap (cs : List Colour) (rest : List Byte) :
    takeColours cs.length (cs.flatMap colourBytes ++ rest) = some (cs, rest) := by
  induction cs with
  | nil => rfl
  | cons c cs ih => simp [colourBytes, takeColours, ih]

theorem takeMasks_flatMap {gs : List MaskGroup} (h : ∀ g ∈ gs, LiteralsFillMask g) (rest : List Byte) :
    takeMasks gs.length (gs.flatMap maskGroupBytes ++ rest) = some (gs, rest) := by
  induction gs with
  | nil => rfl
  | cons g gs ih =>
    obtain ⟨hg, hgs⟩ := List.forall_mem_cons.1 h
    have hcolours := takeColours_flatMap g.literals (gs.flatMap maskGroupBytes ++ rest)
    rw [hg] at hcolours
    simp [maskGroupBytes, takeMasks, hcolours, ih hgs]

/-- What the opcode consumes does not depend on the bytes behind its data (R181). -/
theorem r4Count_append {rows : List Config.R4Row} {n : Bpp} {p : R4Progress} {data : List Byte} {k : Nat}
    (h : r4Count rows n p data = some k) (rest : List Byte) : r4Count rows n p (data ++ rest) = some k := by
  induction data generalizing p k with
  | nil =>
    rcases Nat.eq_zero_or_pos p.pix with hp | hp
    · simpa [r4Count_of_pix_zero hp] using h
    · simp [r4Count_nil_of_pix_pos hp] at h
  | cons b data ih =>
    rcases Nat.eq_zero_or_pos p.pix with hp | hp
    · simpa [r4Count_of_pix_zero hp] using h
    · obtain ⟨j, hj, rfl⟩ := (r4Count_cons_eq_some hp).1 h
      exact (r4Count_cons_eq_some hp).2 ⟨j, ih hj, rfl⟩

theorem takeR4_append {rows : List Config.R4Row} {n : Bpp} {x : BitVec 5} {data : List Byte}
    (h : r4Count rows n (r4Fresh x) data = some data.length) (rest : List Byte) :
    takeR4 rows n x (data ++ rest) = some (.tileR4 n x data, rest) := by
  simp [takeR4, r4Count_append h rest]

/-! #### Reading a whole instruction back -/

/-- The spelling of R90 for an index: x[4] is 0 and x[3:0] is the index. -/
theorem append_index (f : BitVec 3) (i : Nybble) : (f ++ 0#1 ++ i : Byte) = f ++ (0#1 ++ i : BitVec 5) :=
  BitVec.append_assoc

theorem index_toNat_lt (i : Nybble) : (0#1 ++ i : BitVec 5).toNat < 16 := by
  rw [BitVec.toNat_append]
  simpa using i.isLt

theorem index_extractLsb' (i : Nybble) : (0#1 ++ i : BitVec 5).extractLsb' 0 4 = i :=
  BitVec.extractLsb'_append_eq_right

theorem decodeOpcode_lut1_index (i : Nybble) : decodeOpcode (0b0000#4 ++ i) = .lut1 (0#1 ++ i) :=
  (congrArg decodeOpcode (append_index 0b000#3 i)).trans (decodeOpcode_encode (i := .lut1 _) rfl rfl)

theorem decodeOpcode_tileP0_index (i : Nybble) : decodeOpcode (0b0100#4 ++ i) = .tileP0 (0#1 ++ i) :=
  (congrArg decodeOpcode (append_index 0b010#3 i)).trans (decodeOpcode_encode (i := .tileP0 _) rfl rfl)

theorem highByte_append_lowByte (vec : BitVec 16) : vec.extractLsb' 8 8 ++ vec.extractLsb' 0 8 = vec :=
  (BitVec.extractLsb'_append_extractLsb'_eq_extractLsb' rfl).trans BitVec.extractLsb'_eq_self

theorem disassemble_lut1 (rows : List Config.R4Row) (i : Nybble) (c : Colour) (rest : List Byte) :
    disassemble rows (assemble (.lut1 i c) ++ rest) = some (.lut1 i c, rest) := by
  simp [assemble, colourBytes, disassemble, decodeOpcode_lut1_index, index_toNat_lt, index_extractLsb']

theorem disassemble_lut16 (rows : List Config.R4Row) {vec : BitVec 16} {cs : List Colour}
    (h : cs.length = popcount vec) (rest : List Byte) :
    disassemble rows (assemble (.lut16 vec cs) ++ rest) = some (.lut16 vec cs, rest) := by
  have hopcode : decodeOpcode 0x20#8 = .lut16 0#5 := rfl
  have hcolours := takeColours_flatMap cs rest
  rw [h] at hcolours
  simp [assemble, disassemble, hopcode, highByte_append_lowByte, hcolours]

theorem disassemble_tileP0 (rows : List Config.R4Row) (i : Nybble) (rest : List Byte) :
    disassemble rows (assemble (.tileP0 i) ++ rest) = some (.tileP0 i, rest) := by
  simp [assemble, disassemble, decodeOpcode_tileP0_index, index_toNat_lt, index_extractLsb']

theorem disassemble_tileR4 {rows : List Config.R4Row} {n : Bpp} {x : BitVec 5} {data : List Byte}
    (h : r4Count rows n (r4Fresh x) data = some data.length) (rest : List Byte) :
    disassemble rows (assemble (.tileR4 n x data) ++ rest) = some (.tileR4 n x data, rest) := by
  have hopcode := decodeOpcode_r4OpcodeByte n x
  have htake := takeR4_append h rest
  cases n <;> simpa [assemble, disassemble, hopcode, r4OpcodeInstr] using htake

theorem disassemble_tileP16 (rows : List Config.R4Row) {x : BitVec 5} {gs : List MaskGroup}
    (hlen : gs.length = 8 * (x.toNat + 1)) (hgs : ∀ g ∈ gs, LiteralsFillMask g) (rest : List Byte) :
    disassemble rows (assemble (.tileP16 x gs) ++ rest) = some (.tileP16 x gs, rest) := by
  have hopcode : decodeOpcode (0b110#3 ++ x) = .tileP16 x := decodeOpcode_encode (i := .tileP16 x) rfl rfl
  have hmasks := takeMasks_flatMap hgs rest
  rw [hlen] at hmasks
  simp [assemble, disassemble, hopcode, hmasks]

/-- Settles O5: the opcode byte is read as its form, and each form reads back exactly the operands it wrote. -/
theorem readingBackAWholeInstruction : Obligations.ReadingBackAWholeInstruction := by
  unfold Obligations.ReadingBackAWholeInstruction
  intro rows a rest h hbytes
  obtain ⟨hw, hdata⟩ := asmComplete_iff.1 h
  cases a with
  | lut1 i c => exact disassemble_lut1 rows i c rest
  | lut16 vec cs => exact disassemble_lut16 rows (lut16_wellFormed_iff.1 hw) rest
  | tileP0 i => exact disassemble_tileP0 rows i rest
  | tileR4 n x data => exact disassemble_tileR4 (hdata n x data rfl) rest
  | tileP16 x gs =>
    obtain ⟨hlen, hgs⟩ := tileP16_wellFormed_iff.1 hw
    exact disassemble_tileP16 rows hlen hgs rest
  | address _ _ | erase _ _ => rfl
  | reserved b =>
    have hopcode : decodeOpcode b = .reserved b := decodeOpcode_of_isReservedByte hw
    simp [assemble, disassemble, hopcode]
  | bytes bs => exact absurd rfl (hbytes bs)

end Sys2Proof.Machine
end

section
/-! ### What the decoder's turn and the producer's do (R111, R115, R119) -/

namespace Sys2Proof.Machine

open Sys2Proof.Safety

/-- With no fault recorded the step is the move of R111 and R117 that the state is due. -/
theorem step_eq_of_fault_eq_none {s : State} (h : s.fault = none) :
    step s =
      if takesByte s = true then exec (decode s.state (tailByte s)) (popTail (turnTaken s))
      else if takesReset s = true then .next (decoderResetStep (turnTaken s))
      else if decodersTurn s = true then .next (turnTaken s)
      else .next (producerMove (turnTaken s)) := by
  simp only [step, h, nextMove_eq]
  split_ifs <;> rfl

theorem step_of_fault {s : State} {code : Fault} (h : s.fault = some code) : step s = .fault code := by
  simp only [step, h]

theorem step_of_takesByte {s : State} (hfault : s.fault = none) (h : takesByte s = true) :
    step s = exec (decode s.state (tailByte s)) (popTail (turnTaken s)) := by
  rw [step_eq_of_fault_eq_none hfault, if_pos h]

theorem step_of_producersTurn {s : State} (hfault : s.fault = none) (h : decodersTurn s = false) :
    step s = .next (producerMove (turnTaken s)) := by
  simp [step_eq_of_fault_eq_none hfault, takesByte, takesReset, h]

theorem tailByte_of_find {s : State} {b : Byte} (h : Memory.find s.ring s.tail = some b) : tailByte s = b := by
  rw [tailByte, h, Option.getD_some]

/-- Settles O8: these are the states whose step takes a byte, and the advanced port is what taking it leaves. -/
theorem stepRunsTheDecodedByte : Obligations.StepRunsTheDecodedByte := by
  unfold Obligations.StepRunsTheDecodedByte
  intro s b hfault hhung hturn hreset hne hbyte
  rw [step_of_takesByte hfault (takesByte_iff.2 ⟨hturn, hhung, hreset, hne⟩), tailByte_of_find hbyte]
  rfl

/-! #### The producer's three turns -/

theorem producerMove_of_push {s : State} {v : Byte} {rest : List Action} (h : s.script = .push v :: rest) :
    producerMove s = (push v { s with script := rest }).state := by
  simp only [producerMove, h]

theorem producerMove_of_requestReset {s : State} {rest : List Action} (h : s.script = .requestReset :: rest) :
    producerMove s = { s with script := rest, head := s.params.headReset } := by
  simp only [producerMove, h, requestReset]

theorem producerMove_of_nil {s : State} (h : s.script = []) : producerMove s = s := by
  simp only [producerMove, h]

/-- The producer's turn comes by the schedule, or past its end while the decoder has no step (log entry 8). -/
theorem producersTurn_of_schedule {s : State} {turns : List Agent}
    (h : s.schedule = .producer :: turns ∨ (s.schedule = [] ∧ turns = [] ∧ decoderEnabled s = false)) :
    decodersTurn s = false ∧ turnTaken s = { s with schedule := turns } := by
  rcases h with hnext | ⟨hend, rfl, hidle⟩
  · simp [decodersTurn, turnTaken, hnext]
  · simp [decodersTurn, turnTaken, hend, hidle]

/-- Settles O15: the turn is the producer's, and its move is the one its script begins with. -/
theorem producerFollowsItsScript : Obligations.ProducerFollowsItsScript := by
  unfold Obligations.ProducerFollowsItsScript
  intro s turns rest hfault hschedule
  obtain ⟨hturn, hturns⟩ := producersTurn_of_schedule hschedule
  rw [step_of_producersTurn hfault hturn, hturns]
  refine ⟨fun v hscript => ?_, fun hscript => ?_, fun hscript => ?_⟩
  · rw [producerMove_of_push (s := { s with schedule := turns }) hscript]
  · rw [producerMove_of_requestReset (s := { s with schedule := turns }) hscript]
  · rw [producerMove_of_nil (s := { s with schedule := turns }) hscript]

end Sys2Proof.Machine
end

section
/-! ### The opcode bytes (R113, R114, R130, R134, R150, R153, R177, R182) -/

namespace Sys2Proof.Machine

/-- x[3:0] is x modulo 16, so LUT1's `0x10`..`0x1F` name the entries of `0x00`..`0x0F` (R150). -/
theorem lutIndexArg_eq_mod (x : BitVec 5) : lutIndexArg x = x.toNat % 16 := by
  simp [lutIndexArg]

theorem exec_r4OpcodeInstr (n : Bpp) (x : BitVec 5) (s : State) :
    exec (r4OpcodeInstr n x) s = .next (r4Opened n x s) := by
  cases n <;> rfl

/-- Settles O18: the meanings of the three forms, with LUT1's index read modulo 16. -/
theorem addressLut1AndReservedOpcodeBytes : Obligations.AddressLut1AndReservedOpcodeBytes := by
  unfold Obligations.AddressLut1AndReservedOpcodeBytes
  intro s x b
  rw [← lutIndexArg_eq_mod]
  exact ⟨rfl, rfl, rfl⟩

/-- Settles O19: the three R4 codecs open alike; the meanings of LUT16, TILE_P16 and ERASE are their own. -/
theorem opcodeBytesStartTheirOpcodes : Obligations.OpcodeBytesStartTheirOpcodes := by
  unfold Obligations.OpcodeBytesStartTheirOpcodes
  intro s x
  have hr4 (n : Bpp) := exec_r4OpcodeInstr n x s
  exact ⟨rfl, hr4 .one, hr4 .two, hr4 .four, rfl, rfl⟩

end Sys2Proof.Machine
end

section
/-! ### No rule reads the opcode register (R23, R113)

An action ignores the opcode register when it commutes with setting it. Every operation but the latch of an opcode byte
and the reset step does; those two write the register without reading it. -/

namespace Sys2Proof.Machine

open Sys2Proof.Safety

/-- A state with other contents in its opcode register. -/
def setOpcode (c : Cell Byte) (s : State) : State := { s with opcode := c }

@[simp] theorem setOpcode_fault (c : Cell Byte) (s : State) : (setOpcode c s).fault = s.fault := rfl
@[simp] theorem setOpcode_pix (c : Cell Byte) (s : State) : (setOpcode c s).pix = s.pix := rfl
@[simp] theorem setOpcode_script (c : Cell Byte) (s : State) : (setOpcode c s).script = s.script := rfl
@[simp] theorem lutEntry_setOpcode (c : Cell Byte) (s : State) (i : Nybble) :
    lutEntry (setOpcode c s) i = lutEntry s i := rfl
@[simp] theorem takesByte_setOpcode (c : Cell Byte) (s : State) : takesByte (setOpcode c s) = takesByte s := rfl
@[simp] theorem takesReset_setOpcode (c : Cell Byte) (s : State) : takesReset (setOpcode c s) = takesReset s := rfl
@[simp] theorem decodersTurn_setOpcode (c : Cell Byte) (s : State) :
    decodersTurn (setOpcode c s) = decodersTurn s := rfl

/-- The same end of an action, with other contents in the opcode register. -/
def Flow.setOpcode (c : Cell Byte) : Flow → Flow
  | .go s => .go (Machine.setOpcode c s)
  | .stop s => .stop (Machine.setOpcode c s)

/-- Setting the opcode register before the action is setting it after. -/
def IgnoresOpcode (act : State → Flow) : Prop := ∀ c s, act (setOpcode c s) = (act s).setOpcode c

/-! #### Sequencing -/

theorem Flow.andThen_setOpcode {c : Cell Byte} {f g : Flow} {k l : State → Flow} (hf : g = f.setOpcode c)
    (hk : ∀ u, l (Machine.setOpcode c u) = (k u).setOpcode c) : g.andThen l = (f.andThen k).setOpcode c := by
  subst hf
  cases f with
  | go u => exact hk u
  | stop u => rfl

theorem IgnoresOpcode.andThen {f k : State → Flow} (hf : IgnoresOpcode f) (hk : IgnoresOpcode k) :
    IgnoresOpcode (fun s => (f s).andThen k) :=
  fun c s => Flow.andThen_setOpcode (hf c s) (hk c)

theorem IgnoresOpcode.ite {p : State → Prop} {_ : DecidablePred p} {k l : State → Flow}
    (hp : ∀ c s, p (setOpcode c s) = p s) (hk : IgnoresOpcode k) (hl : IgnoresOpcode l) :
    IgnoresOpcode (fun s => if p s then k s else l s) := by
  intro c s
  simp only [hp, hk c s, hl c s]
  split <;> rfl

theorem IgnoresOpcode.withFlashAddr {k : Addr → State → Flow} (hk : ∀ a, IgnoresOpcode (k a)) :
    IgnoresOpcode (fun s => withFlashAddr s (fun a => k a s)) :=
  .ite (fun _ _ => rfl) (fun c s => hk (latchAddr s) c s) (fun _ _ => rfl)

theorem IgnoresOpcode.withLutRead {k : Colour → State → Flow} (hk : ∀ a, IgnoresOpcode (k a)) (i : Nybble) :
    IgnoresOpcode (fun s => withLutRead i s (fun a => k a s)) := by
  intro c s
  simp only [Machine.withLutRead, lutEntry_setOpcode]
  split
  · exact hk _ c s
  · rfl

/-! #### The flash programmer and emission -/

theorem flashProgram_ignoresOpcode (a : Addr) (v : Byte) : IgnoresOpcode (flashProgram a v) :=
  .ite (fun _ _ => rfl) (fun _ _ => rfl) (.ite (fun _ _ => rfl) (fun _ _ => rfl) (fun _ _ => rfl))

theorem eraseRun_ignoresOpcode (n blk : Nat) : IgnoresOpcode (eraseRun n blk) := by
  induction n generalizing blk with
  | zero => exact fun _ _ => rfl
  | succ n ih => exact .ite (fun _ _ => rfl) (fun _ _ => rfl) (fun c s => ih (blk + 1) c (eraseBlock blk s))

theorem emitByte_ignoresOpcode (v : Byte) : IgnoresOpcode (emitByte v) :=
  .withFlashAddr fun a => (flashProgram_ignoresOpcode a v).andThen (.withFlashAddr fun _ _ _ => rfl)

theorem emitColor_ignoresOpcode (c : Colour) : IgnoresOpcode (emitColor c) :=
  (emitByte_ignoresOpcode c.b0).andThen (emitByte_ignoresOpcode c.b1)

theorem emitTilePixel_ignoresOpcode (c : Colour) : IgnoresOpcode (emitTilePixel c) :=
  (emitColor_ignoresOpcode c).andThen fun _ _ => rfl

theorem emitGroupFrom_ignoresOpcode (n : Bpp) (g : Nybble) (m k : Nat) : IgnoresOpcode (emitGroupFrom n g m k) := by
  induction m generalizing k with
  | zero => exact fun _ _ => rfl
  | succ m ih =>
    exact .ite (fun _ _ => rfl) (fun _ _ => rfl)
      ((IgnoresOpcode.withLutRead emitTilePixel_ignoresOpcode _).andThen (ih (k + 1)))

theorem emitGroups_ignoresOpcode (n : Bpp) (gs : List Nybble) : IgnoresOpcode (emitGroups n gs) := by
  induction gs with
  | nil => exact fun _ _ => rfl
  | cons g rest ih => exact (emitGroupFrom_ignoresOpcode n g _ 0).andThen ih

/-! #### The continuation bytes that touch flash -/

theorem r4Nybble_ignoresOpcode (n : Bpp) (v : Nybble) : IgnoresOpcode (r4Nybble n v) :=
  .ite (fun _ _ => rfl) (fun _ _ => rfl)
    fun c s => Flow.andThen_setOpcode (emitGroups_ignoresOpcode n _ c s) fun _ => rfl

theorem r4Byte_ignoresOpcode (n : Bpp) (b : Byte) : IgnoresOpcode (r4Byte n b) := by
  refine ((r4Nybble_ignoresOpcode n _).andThen (r4Nybble_ignoresOpcode n _)).andThen fun c s => ?_
  rw [setOpcode_pix]
  split <;> rfl

theorem p16Loop_ignoresOpcode (fuel : Nat) : IgnoresOpcode (p16Loop fuel) := by
  induction fuel with
  | zero => exact fun _ _ => rfl
  | succ fuel ih =>
    have hrepeat : IgnoresOpcode (fun s => emitTilePixel (p16LastOf s) s) :=
      fun c s => emitTilePixel_ignoresOpcode (p16LastOf s) c s
    exact .ite (fun _ _ => rfl) (fun _ _ => rfl)
      (.ite (fun _ _ => rfl) (hrepeat.andThen fun c s => ih c (useMaskBit s)) (fun _ _ => rfl))

theorem p16Literal_ignoresOpcode (a : Colour) : IgnoresOpcode (p16Literal a) := fun c s =>
  Flow.andThen_setOpcode (emitTilePixel_ignoresOpcode a c { s with p16Last := .val a, p16HaveLast := true })
    fun u => p16Loop_ignoresOpcode _ c (useMaskBit u)

theorem eraseCheckFlow_ignoresOpcode (b : Byte) : IgnoresOpcode (eraseCheckFlow b) :=
  .withFlashAddr fun _ => .ite (fun _ _ => rfl)
    (fun c s => Flow.andThen_setOpcode (eraseRun_ignoresOpcode _ _ c s) fun _ => rfl) (fun _ _ => rfl)

/-! #### Every instruction and every turn -/

theorem lutWrite0_setOpcode (i : Nat) (b : Byte) (c : Cell Byte) (s : State) :
    lutWrite0 i b (setOpcode c s) = setOpcode c (lutWrite0 i b s) := by
  unfold lutWrite0; split <;> rfl

theorem lutWrite1_setOpcode (i : Nat) (b : Byte) (c : Cell Byte) (s : State) :
    lutWrite1 i b (setOpcode c s) = setOpcode c (lutWrite1 i b s) := by
  unfold lutWrite1; split <;> rfl

theorem IgnoresOpcode.forgetOpcode_outcome {act : State → Flow} (h : IgnoresOpcode act) (c : Cell Byte) (s : State) :
    forgetOpcode (act (setOpcode c s)).outcome = forgetOpcode (act s).outcome := by
  rw [h c s]
  cases act s <;> rfl

/-- An opcode byte latches itself over the register before anything else; a continuation byte ignores it. -/
theorem forgetOpcode_exec_setOpcode (i : Instr) (c : Cell Byte) (s : State) :
    forgetOpcode (exec i (setOpcode c s)) = forgetOpcode (exec i s) := by
  cases i with
  | lut1 _ | lut16 _ | tileP0 _ | tileP1R4 _ | tileP2R4 _ | tileP4R4 _ | tileP16 _ | address | erase | reserved _ => rfl
  | tileP1R4Data b | tileP2R4Data b | tileP4R4Data b => exact (r4Byte_ignoresOpcode _ b).forgetOpcode_outcome c s
  | tileP16Mask b => exact (p16Loop_ignoresOpcode 8).forgetOpcode_outcome c { s with p16Mask := .val b, p16Bits := 8 }
  | tileP16High b => exact (p16Literal_ignoresOpcode _).forgetOpcode_outcome c s
  | eraseCheck b => exact (eraseCheckFlow_ignoresOpcode b).forgetOpcode_outcome c s
  | lut1Color1 b | lut16Color1 b =>
    simp only [exec, execLut1Color1, execLut16Color1, lutWrite0_setOpcode]
    rfl
  | lut1Color2 b | lut16Color2 b =>
    simp only [exec, execLut1Color2, execLut16Color2, lutWrite1_setOpcode]
    rfl
  | lut16Vec1 _ | lut16Vec2 _ | tileP16Low _ | addrLow _ | addrHigh _ | eraseCount _ => rfl

theorem push_ignoresOpcode (v : Byte) : IgnoresOpcode (push v) :=
  .ite (fun _ _ => rfl) (fun _ _ => rfl) (.ite (fun _ _ => rfl) (fun _ _ => rfl) (fun _ _ => rfl))

theorem forgetOpcode_producerMove_setOpcode (c : Cell Byte) (s : State) :
    forgetOpcode (.next (producerMove (setOpcode c s))) = forgetOpcode (.next (producerMove s)) := by
  unfold producerMove
  rw [setOpcode_script]
  cases s.script with
  | nil => rfl
  | cons a rest =>
    cases a with
    | push v => exact (push_ignoresOpcode v).forgetOpcode_outcome c { s with script := rest }
    | requestReset => rfl

/-- Settles O60: the same agent makes the same move; an instruction, the reset step and the producer each ignore the
register. -/
theorem opcodeRegisterIsNeverRead : Obligations.OpcodeRegisterIsNeverRead := by
  unfold Obligations.OpcodeRegisterIsNeverRead
  intro s c
  change forgetOpcode (step (setOpcode c s)) = _
  cases hfault : s.fault with
  | some code => rw [step_of_fault hfault, step_of_fault ((setOpcode_fault c s).trans hfault)]
  | none =>
    rw [step_eq_of_fault_eq_none hfault, step_eq_of_fault_eq_none ((setOpcode_fault c s).trans hfault),
      takesByte_setOpcode, takesReset_setOpcode, decodersTurn_setOpcode]
    split_ifs
    · exact forgetOpcode_exec_setOpcode _ c (popTail (turnTaken s))
    · rfl
    · rfl
    · exact forgetOpcode_producerMove_setOpcode c (turnTaken s)

end Sys2Proof.Machine
end

section
/-! ### ERASE's count byte, LUT1's second colour byte, and ADDRESS (R130 to R132, R135, R152) -/

namespace Sys2Proof.Machine

open Sys2Proof.Safety

theorem lutIndexOf_of_val {s : State} {i : Nat} (h : s.lutIndex = .val i) : lutIndexOf s = i := by
  rw [lutIndexOf, h, Cell.read]

theorem lutWrite1_of_lt {i : Nat} (h : i < 16) (b : Byte) (s : State) :
    lutWrite1 i b s = { s with lut := s.lut.set i ⟨(s.lut[i]).b0, .val b⟩ } := by
  rw [lutWrite1, dif_pos h]

/-- Settles O20: the count byte's meaning, and LUT1's write at an index that names an entry. -/
theorem eraseCountAndSecondLut1ColourByte : Obligations.EraseCountAndSecondLut1ColourByte := by
  unfold Obligations.EraseCountAndSecondLut1ColourByte
  intro s b
  refine ⟨rfl, fun i h hindex => ?_⟩
  rw [exec, execLut1Color2, lutIndexOf_of_val hindex, lutWrite1_of_lt h]

/-- The state that the bytes of ADDRESS leave (R130 to R132). -/
def addressLoaded (l1 l2 : Byte) (s : State) : State :=
  { s with
    state := .opcode, opcode := .val 0xE1#8, low := .val 0#8, lat1 := .val l1, lat2 := .val l2, addrValid := true }

theorem feed_address {s : State} (hs : s.state = .opcode) (hr : running s = true) (l1 l2 : Byte) :
    feed (assemble (.address l1 l2)) s = .next (addressLoaded l1 l2 s) := by
  have hopcode : stepByte 0xE1#8 s = .next { latchOpcode 0xE1#8 s with state := .addrLow } := by
    rw [stepByte, hs]
    rfl
  calc feed [0xE1#8, l1, l2] s
    _ = feed [l1, l2] { latchOpcode 0xE1#8 s with state := .addrLow } := feed_cons_of_running hr hopcode
    _ = feed [l2] { latchOpcode 0xE1#8 s with lat1 := .val l1, state := .addrHigh } := feed_cons_of_running hr rfl
    _ = feed [] (addressLoaded l1 l2 s) := feed_cons_of_running hr rfl

/-- Settles O22: ADDRESS is followed by OPCODE, in which it began, and the latches it leaves are the address. -/
theorem addressInstructionSetsTheAddress : Obligations.AddressInstructionSetsTheAddress := by
  unfold Obligations.AddressInstructionSetsTheAddress
  intro s l1 l2 hs hr
  refine ⟨addressLoaded l1 l2 s, feed_address hs hr l1 l2, ?_, rfl⟩
  rw [addressLoaded, ← hs]

end Sys2Proof.Machine
end

section
/-! ### Only a committed ERASE sets flash bits (R51, R136, R138, R201)

A program that goes through stores a byte whose bits were all 1 before, so emission only clears bits. What is left is the
ERASE check byte, which touches flash with a known address and the right checksum alone. -/

namespace Sys2Proof.Machine

open Sys2Proof.Safety

/-- Every bit that is 1 in the contents `m'` is 1 in `m`. -/
def Memory.OnlyClears (m m' : List Host.Cell) : Prop :=
  ∀ a j, (Memory.read m' a).getLsbD j = true → (Memory.read m a).getLsbD j = true

theorem Memory.OnlyClears.refl (m : List Host.Cell) : OnlyClears m m := fun _ _ h => h

theorem Memory.OnlyClears.trans {m m' m'' : List Host.Cell} (h : OnlyClears m m') (h' : OnlyClears m' m'') :
    OnlyClears m m'' := fun a j hbit => h a j (h' a j hbit)

/-- A byte that asks for no 0-to-1 change has its 1 bits among the bits held (R201). -/
theorem Memory.onlyClears_write {m : List Host.Cell} {a : Nat} {v : Byte} (h : v &&& ~~~(Memory.read m a) = 0#8) :
    OnlyClears m (Memory.write m a v) := by
  intro a' j hbit
  rw [Memory.read_write] at hbit
  split_ifs at hbit with ha
  · rw [← and_eq_of_noZeroToOne h, BitVec.getLsbD_and, Bool.and_eq_true] at hbit
    exact ha ▸ hbit.1
  · exact hbit

/-! #### Sequencing -/

theorem Flow.andThen_onlyClears {m : List Host.Cell} {f : Flow} {k : State → Flow}
    (hf : Memory.OnlyClears m f.state.flash) (hk : ∀ u, Memory.OnlyClears u.flash (k u).state.flash) :
    Memory.OnlyClears m (f.andThen k).state.flash := by
  cases f with
  | go u => exact hf.trans (hk u)
  | stop u => exact hf

theorem withLutRead_onlyClears {i : Nybble} {s : State} {k : Colour → Flow}
    (hk : ∀ c, Memory.OnlyClears s.flash (k c).state.flash) :
    Memory.OnlyClears s.flash (withLutRead i s k).state.flash := by
  unfold withLutRead
  split
  · exact hk _
  · exact .refl _

theorem repeatFlow_onlyClears {act : State → Flow} (hact : ∀ u, Memory.OnlyClears u.flash (act u).state.flash)
    (n : Nat) (s : State) : Memory.OnlyClears s.flash (repeatFlow n act s).state.flash := by
  induction n generalizing s with
  | zero => exact .refl _
  | succ n ih => exact Flow.andThen_onlyClears (hact s) ih

/-! #### Emission -/

theorem emitByte_onlyClears (v : Byte) (s : State) : Memory.OnlyClears s.flash (emitByte v s).state.flash := by
  rcases emitByte_cases v s with ⟨_, h⟩ | ⟨_, _, h⟩ | ⟨_, _, h⟩ | ⟨_, _, hbits, h⟩ <;> rw [h]
  · exact .refl _
  · exact .refl _
  · exact .refl _
  · exact Memory.onlyClears_write hbits

theorem emitColor_onlyClears (c : Colour) (s : State) : Memory.OnlyClears s.flash (emitColor c s).state.flash :=
  Flow.andThen_onlyClears (emitByte_onlyClears _ s) (emitByte_onlyClears _)

theorem emitTilePixel_onlyClears (c : Colour) (s : State) :
    Memory.OnlyClears s.flash (emitTilePixel c s).state.flash :=
  Flow.andThen_onlyClears (emitColor_onlyClears c s) fun _ => .refl _

theorem emitGroupFrom_onlyClears (n : Bpp) (g : Nybble) (m k : Nat) (s : State) :
    Memory.OnlyClears s.flash (emitGroupFrom n g m k s).state.flash := by
  induction m generalizing k s with
  | zero => exact .refl _
  | succ m ih =>
    unfold emitGroupFrom
    split_ifs
    · exact .refl _
    · exact Flow.andThen_onlyClears (withLutRead_onlyClears fun c => emitTilePixel_onlyClears c s) (ih (k + 1))

theorem emitGroups_onlyClears (n : Bpp) (gs : List Nybble) (s : State) :
    Memory.OnlyClears s.flash (emitGroups n gs s).state.flash := by
  induction gs generalizing s with
  | nil => exact .refl _
  | cons g rest ih => exact Flow.andThen_onlyClears (emitGroupFrom_onlyClears n g _ 0 s) ih

/-! #### The tile codecs -/

theorem tileP0Flow_onlyClears (x : BitVec 5) (s : State) :
    Memory.OnlyClears s.flash (tileP0Flow x s).state.flash := by
  unfold tileP0Flow
  split_ifs
  · exact .refl _
  · exact withLutRead_onlyClears fun c =>
      Flow.andThen_onlyClears (repeatFlow_onlyClears (emitColor_onlyClears c) _ s) fun _ => .refl _

theorem r4Nybble_onlyClears (n : Bpp) (v : Nybble) (s : State) :
    Memory.OnlyClears s.flash (r4Nybble n v s).state.flash := by
  unfold r4Nybble
  split_ifs
  · exact .refl _
  · exact Flow.andThen_onlyClears (emitGroups_onlyClears n _ s) fun _ => .refl _

theorem r4Byte_onlyClears (n : Bpp) (b : Byte) (s : State) :
    Memory.OnlyClears s.flash (r4Byte n b s).state.flash := by
  refine Flow.andThen_onlyClears (Flow.andThen_onlyClears (r4Nybble_onlyClears n _ s) (r4Nybble_onlyClears n _))
    fun u => ?_
  split_ifs
  · exact .refl _
  · exact .refl _

theorem p16Loop_onlyClears (fuel : Nat) (s : State) :
    Memory.OnlyClears s.flash (p16Loop fuel s).state.flash := by
  induction fuel generalizing s with
  | zero => exact .refl _
  | succ fuel ih =>
    unfold p16Loop
    split_ifs
    · exact .refl _
    · exact Flow.andThen_onlyClears (emitTilePixel_onlyClears _ s) fun u => ih (useMaskBit u)
    · exact .refl _

theorem p16Literal_onlyClears (c : Colour) (s : State) :
    Memory.OnlyClears s.flash (p16Literal c s).state.flash :=
  Flow.andThen_onlyClears (emitTilePixel_onlyClears c { s with p16Last := .val c, p16HaveLast := true })
    fun u => p16Loop_onlyClears _ (useMaskBit u)

/-! #### Every instruction and every step -/

/-- The check byte that commits an ERASE: the address is known and the checksum is right (R136). -/
def EraseCommits (b : Byte) (s : State) : Prop := s.addrValid = true ∧ b = eraseExpectedOf s

/-- A check byte that commits nothing leaves the flash (R136, R138). -/
theorem eraseCheckFlow_flash_of_not_commits {b : Byte} {s : State} (h : ¬EraseCommits b s) :
    (eraseCheckFlow b s).state.flash = s.flash := by
  unfold eraseCheckFlow withFlashAddr
  split_ifs with hvalid hcheck
  · exact absurd ⟨hvalid, hcheck⟩ h
  · rfl
  · rfl

/-- Every instruction but a check byte that commits only clears flash bits. -/
theorem exec_onlyClears_or_eraseCommits {i : Instr} {s t : State} (h : exec i s = .next t) :
    Memory.OnlyClears s.flash t.flash ∨ ∃ b, i = .eraseCheck b ∧ EraseCommits b s := by
  cases htouch : touchesFlash i with
  | false =>
    obtain ⟨hflash, _⟩ := exec_flash_of_not_touchesFlash htouch h
    exact .inl (hflash ▸ .refl _)
  | true =>
    cases i with
    | tileP0 x => cases h; exact .inl (tileP0Flow_onlyClears x (latchOpcode _ s))
    | tileP1R4Data b | tileP2R4Data b | tileP4R4Data b => cases h; exact .inl (r4Byte_onlyClears _ b s)
    | tileP16Mask b => cases h; exact .inl (p16Loop_onlyClears 8 { s with p16Mask := .val b, p16Bits := 8 })
    | tileP16High b => cases h; exact .inl (p16Literal_onlyClears _ s)
    | eraseCheck b =>
      cases h
      by_cases hcommit : EraseCommits b s
      · exact .inr ⟨b, rfl, hcommit⟩
      · left
        rw [eraseCheckFlow_flash_of_not_commits hcommit]
        exact .refl _
    | _ => cases htouch

theorem decode_eq_eraseCheck {st : DecoderState} {b c : Byte} (h : decode st b = .eraseCheck c) :
    st = .eraseCheck ∧ b = c := by
  obtain rfl : st = .eraseCheck := by rw [← decode_readIn st b, h, Instr.readIn]
  exact ⟨rfl, Instr.eraseCheck.inj h⟩

/-- Every step only clears flash bits, but one that takes a check byte that commits an ERASE. -/
theorem step_onlyClears_or_eraseCommits {s t : State} (h : step s = .next t) :
    Memory.OnlyClears s.flash t.flash ∨
      takesByte s = true ∧ s.state = .eraseCheck ∧ EraseCommits (tailByte s) s := by
  rcases step_cases h with ⟨hbyte, hx⟩ | ⟨_, _, rfl⟩ | ⟨_, _, rfl | rfl⟩
  · refine (exec_onlyClears_or_eraseCommits hx).imp id fun ⟨b, hdecode, hcommit⟩ => ?_
    obtain ⟨hstate, rfl⟩ := decode_eq_eraseCheck hdecode
    exact ⟨hbyte, hstate, hcommit⟩
  · exact .inl (.refl _)
  · exact .inl (.refl _)
  · rw [producerMove_frame]
    exact .inl (.refl _)

/-- Settles O56: a step that only clears bits cannot make a 0 bit 1, and every other step commits an ERASE. -/
theorem onlyACommittedEraseSetsBits : Obligations.OnlyACommittedEraseSetsBits := by
  unfold Obligations.OnlyACommittedEraseSetsBits
  intro s t a j hstep hbefore hafter
  rcases step_onlyClears_or_eraseCommits hstep with hclears | hcommits
  · exact absurd (hclears a j hafter) (ne_true_of_eq_false hbefore)
  · exact hcommits

end Sys2Proof.Machine
end

section
/-! ### Where emission programs (R51, R161, R170 to R174)

Whether it goes through or stops, emission programs upwards from the address and moves the address past each byte it
programs; so a bound on the bytes emitted bounds the flash that can change. -/

namespace Sys2Proof.Machine

/-- From `s` to `t` at most `n` bytes have been programmed from the address of `s` on, and the address of `t` follows
them. -/
def ProgramsAhead (n : Nat) (s t : State) : Prop :=
  ∃ j ≤ n, latchAddr t = latchAddr s + BitVec.ofNat 24 j ∧
    ∀ a, (∀ k < j, a ≠ (latchAddr s + BitVec.ofNat 24 k).toNat) → Memory.read t.flash a = Memory.read s.flash a

theorem ProgramsAhead.refl (n : Nat) (s : State) : ProgramsAhead n s s :=
  ⟨0, Nat.zero_le n, (BitVec.add_zero _).symm, fun _ _ => rfl⟩

theorem ProgramsAhead.mono {n m : Nat} {s t : State} (h : ProgramsAhead n s t) (hle : n ≤ m) : ProgramsAhead m s t := by
  obtain ⟨j, hj, haddr, hread⟩ := h
  exact ⟨j, hj.trans hle, haddr, hread⟩

theorem ProgramsAhead.trans {n m : Nat} {s t u : State} (h : ProgramsAhead n s t) (h' : ProgramsAhead m t u) :
    ProgramsAhead (n + m) s u := by
  obtain ⟨i, hi, haddr, hread⟩ := h
  obtain ⟨j, hj, haddr', hread'⟩ := h'
  refine ⟨i + j, Nat.add_le_add hi hj, ?_, fun a ha => ?_⟩
  · rw [haddr', haddr, BitVec.ofNat_add, BitVec.add_assoc]
  · rw [hread' a fun k hk => ?_, hread a fun k hk => ha k (by omega)]
    rw [haddr, BitVec.add_assoc, ← BitVec.ofNat_add]
    exact ha (i + k) (by omega)

theorem ProgramsAhead.read_eq {n : Nat} {s t : State} (h : ProgramsAhead n s t) {a : Nat}
    (ha : ∀ k < n, a ≠ (latchAddr s + BitVec.ofNat 24 k).toNat) : Memory.read t.flash a = Memory.read s.flash a := by
  obtain ⟨j, hj, _, hread⟩ := h
  exact hread a fun k hk => ha k (hk.trans_le hj)

theorem Flow.andThen_programsAhead {n m : Nat} {s : State} {f : Flow} {k : State → Flow}
    (hf : ProgramsAhead n s f.state) (hk : ∀ u, f = .go u → ProgramsAhead m u (k u).state) :
    ProgramsAhead (n + m) s (f.andThen k).state := by
  cases f with
  | go u => exact hf.trans (hk u rfl)
  | stop u => exact hf.mono (Nat.le_add_right n m)

theorem emitByte_programsAhead (v : Byte) (s : State) : ProgramsAhead 1 s (emitByte v s).state := by
  rcases emitByte_cases v s with ⟨_, h⟩ | ⟨_, _, h⟩ | ⟨_, _, h⟩ | ⟨_, _, _, h⟩ <;> rw [h]
  · exact .refl 1 s
  · exact .refl 1 s
  · exact .refl 1 s
  · refine ⟨1, le_rfl, latchAddr_setAddr _ _, fun a ha => ?_⟩
    have hne : a ≠ (latchAddr s).toNat := by simpa using ha 0 Nat.one_pos
    rw [Flow.state_go, setAddr_flash, Memory.read_write, if_neg hne]

theorem emitColor_programsAhead (c : Colour) (s : State) : ProgramsAhead 2 s (emitColor c s).state :=
  Flow.andThen_programsAhead (emitByte_programsAhead _ s) fun u _ => emitByte_programsAhead _ u

theorem emitTilePixel_programsAhead (c : Colour) (s : State) : ProgramsAhead 2 s (emitTilePixel c s).state :=
  Flow.andThen_programsAhead (m := 0) (emitColor_programsAhead c s) fun u _ => .refl 0 u

theorem repeatFlow_programsAhead {act : State → Flow} {m : Nat} (hact : ∀ u, ProgramsAhead m u (act u).state) (n : Nat)
    (s : State) : ProgramsAhead (n * m) s (repeatFlow n act s).state := by
  induction n generalizing s with
  | zero => exact .refl _ s
  | succ n ih =>
    exact (Flow.andThen_programsAhead (hact s) fun u _ => ih u).mono (by rw [Nat.succ_mul, Nat.add_comm])

/-! #### The frame of programming bytes, and sequencing of frames -/

/-- A frame that is transitive and holds of both parts is the frame of the sequence. -/
theorem Flow.andThen_frame {R : State → State → Prop} (htrans : ∀ {s t u}, R s t → R t u → R s u) {s : State}
    {f : Flow} {k : State → Flow} (hf : R s f.state) (hk : ∀ u, R u (k u).state) : R s (f.andThen k).state := by
  cases f with
  | go u => exact htrans hf (hk u)
  | stop u => exact hf

theorem withLutRead_frame {R : State → State → Prop} {i : Nybble} {s : State} {k : Colour → Flow}
    (hraise : R s (raise .lutUnset s).state) (hk : ∀ c, R s (k c).state) : R s (withLutRead i s k).state := by
  unfold withLutRead
  split
  · exact hk _
  · exact hraise

/-- What programming bytes can touch, which the pixel count is not: flash, the address bytes and the records. -/
def OnlyPrograms (s t : State) : Prop :=
  t = { s with
    flash := t.flash, low := t.low, lat1 := t.lat1, lat2 := t.lat2, fault := t.fault, hung := t.hung }

theorem OnlyPrograms.trans {s t u : State} (h : OnlyPrograms s t) (h' : OnlyPrograms t u) : OnlyPrograms s u := by
  unfold OnlyPrograms at *
  rw [h', h]

theorem OnlyPrograms.pix_eq {s t : State} (h : OnlyPrograms s t) : t.pix = s.pix := by rw [h]

theorem emitByte_onlyPrograms (v : Byte) (s : State) : OnlyPrograms s (emitByte v s).state := by
  rcases emitByte_cases v s with ⟨_, h⟩ | ⟨_, _, h⟩ | ⟨_, _, h⟩ | ⟨_, _, _, h⟩ <;> rw [h] <;> rfl

theorem emitColor_onlyPrograms (c : Colour) (s : State) : OnlyPrograms s (emitColor c s).state :=
  Flow.andThen_frame .trans (emitByte_onlyPrograms _ s) (emitByte_onlyPrograms _)

theorem repeatFlow_onlyPrograms {act : State → Flow} (hact : ∀ u, OnlyPrograms u (act u).state) (n : Nat)
    (s : State) : OnlyPrograms s (repeatFlow n act s).state := by
  induction n generalizing s with
  | zero => rfl
  | succ n ih => exact Flow.andThen_frame .trans (hact s) ih

end Sys2Proof.Machine
end

section
/-! ### The frame of TILE_P0 (R161, R172) -/

namespace Sys2Proof.Machine

/-- What TILE_P0 can touch: besides what programming bytes does, the opcode register and the decoder state. -/
def TileP0Touches (s t : State) : Prop :=
  t = { s with
    opcode := t.opcode, state := t.state, flash := t.flash, low := t.low, lat1 := t.lat1, lat2 := t.lat2
    fault := t.fault, hung := t.hung }

theorem TileP0Touches.trans {s t u : State} (h : TileP0Touches s t) (h' : TileP0Touches t u) : TileP0Touches s u := by
  unfold TileP0Touches at *
  rw [h', h]

theorem TileP0Touches.lut_eq {s t : State} (h : TileP0Touches s t) : t.lut = s.lut := by rw [h]

theorem OnlyPrograms.tileP0Touches {s t : State} (h : OnlyPrograms s t) : TileP0Touches s t := by rw [h]; rfl

theorem tileP0Flow_touches (x : BitVec 5) (s : State) : TileP0Touches s (tileP0Flow x s).state := by
  unfold tileP0Flow
  split_ifs
  · rfl
  · exact withLutRead_frame rfl fun c => Flow.andThen_frame .trans
      (repeatFlow_onlyPrograms (emitColor_onlyPrograms c) _ s).tileP0Touches fun _ => rfl

theorem tileP0Flow_programsAhead (x : BitVec 5) (s : State) : ProgramsAhead 128 s (tileP0Flow x s).state := by
  unfold tileP0Flow
  split_ifs
  · exact .refl 128 s
  · exact withLutRead_frame (.refl 128 s) fun c => Flow.andThen_programsAhead (n := 128) (m := 0)
      (repeatFlow_programsAhead (emitColor_programsAhead c) 64 s) fun u _ => .refl 0 u

theorem execTileP0_touches {x : BitVec 5} {s t : State} (h : exec (.tileP0 x) s = .next t) : TileP0Touches s t := by
  cases h
  exact TileP0Touches.trans (t := latchOpcode (0b010#3 ++ x) s) rfl (tileP0Flow_touches x _)

/-- Settles O49: the solid tile programs 64 pixels of two bytes at most. -/
theorem tileP0Frame : Obligations.TileP0Frame := by
  unfold Obligations.TileP0Frame
  intro x s t h
  refine ⟨execTileP0_touches h, fun a ha => ?_⟩
  cases h
  exact (tileP0Flow_programsAhead x (latchOpcode _ s)).read_eq ha

end Sys2Proof.Machine
end

section
/-! ### The frame of the R4 data bytes (R161, R173 to R181) -/

namespace Sys2Proof.Machine

/-- What an R4 data byte can touch. -/
def R4Touches (s t : State) : Prop :=
  t = { s with
    state := t.state, pix := t.pix, rlePrev := t.rlePrev, rleRun := t.rleRun
    flash := t.flash, low := t.low, lat1 := t.lat1, lat2 := t.lat2, fault := t.fault, hung := t.hung }

theorem R4Touches.trans {s t u : State} (h : R4Touches s t) (h' : R4Touches t u) : R4Touches s u := by
  unfold R4Touches at *
  rw [h', h]

theorem R4Touches.lut_eq {s t : State} (h : R4Touches s t) : t.lut = s.lut := by rw [h]

theorem OnlyEmits.r4Touches {s t : State} (h : OnlyEmits s t) : R4Touches s t := by rw [h]; rfl

theorem r4Nybble_touches (n : Bpp) (v : Nybble) (s : State) : R4Touches s (r4Nybble n v s).state := by
  unfold r4Nybble
  split_ifs
  · rfl
  · exact Flow.andThen_frame .trans (emitGroups_onlyEmits n _ s).r4Touches fun _ => rfl

theorem r4Byte_touches (n : Bpp) (b : Byte) (s : State) : R4Touches s (r4Byte n b s).state := by
  refine Flow.andThen_frame .trans (Flow.andThen_frame .trans (r4Nybble_touches n _ s) (r4Nybble_touches n _))
    fun u => ?_
  split_ifs <;> rfl

/-- Every pixel that goes through takes its two bytes off the budget of `2 * pix`, and a stop stays within it. -/
def Flow.SpendsPixels (s : State) : Flow → Prop
  | .go t => t.pix ≤ s.pix ∧ ProgramsAhead (2 * (s.pix - t.pix)) s t
  | .stop t => ProgramsAhead (2 * s.pix) s t

theorem Flow.spendsPixels_go (s : State) : (Flow.go s).SpendsPixels s := ⟨le_rfl, .refl _ s⟩

theorem Flow.SpendsPixels.programsAhead {s : State} {f : Flow} (h : f.SpendsPixels s) :
    ProgramsAhead (2 * s.pix) s f.state := by
  cases f with
  | go t =>
    obtain ⟨_, hahead⟩ := h
    exact hahead.mono (by omega)
  | stop t => exact h

theorem Flow.SpendsPixels.andThen {s : State} {f : Flow} {k : State → Flow} (hf : f.SpendsPixels s)
    (hk : ∀ u, (k u).SpendsPixels u) : (f.andThen k).SpendsPixels s := by
  cases f with
  | stop u => exact hf
  | go u =>
    obtain ⟨hle, hahead⟩ := hf
    have hu := hk u
    rw [Flow.andThen_go]
    cases hv : k u with
    | go v =>
      rw [hv] at hu
      obtain ⟨hle', hahead'⟩ := hu
      exact ⟨hle'.trans hle, (hahead.trans hahead').mono (by omega)⟩
    | stop v =>
      rw [hv] at hu
      exact (hahead.trans hu).mono (by omega)

theorem emitTilePixel_spendsPixels {s : State} (hpix : s.pix ≠ 0) (c : Colour) :
    (emitTilePixel c s).SpendsPixels s := by
  have hahead := emitColor_programsAhead c s
  have hkept := (emitColor_onlyPrograms c s).pix_eq
  unfold emitTilePixel
  cases hu : emitColor c s with
  | go u =>
    rw [hu] at hahead hkept
    have hpixel : 2 ≤ 2 * (s.pix - (u.pix - 1)) := by rw [Flow.state_go] at hkept; omega
    exact ⟨(Nat.sub_le u.pix 1).trans_eq hkept, hahead.mono hpixel⟩
  | stop u =>
    rw [hu] at hahead
    exact hahead.mono (by omega)

theorem emitGroupFrom_spendsPixels (n : Bpp) (g : Nybble) (m k : Nat) (s : State) :
    (emitGroupFrom n g m k s).SpendsPixels s := by
  induction m generalizing k s with
  | zero => exact Flow.spendsPixels_go s
  | succ m ih =>
    unfold emitGroupFrom
    split_ifs with hpix
    · exact Flow.spendsPixels_go s
    · refine Flow.SpendsPixels.andThen ?_ (ih (k + 1))
      unfold withLutRead
      split
      · exact emitTilePixel_spendsPixels hpix _
      · exact .refl _ s

theorem emitGroups_spendsPixels (n : Bpp) (gs : List Nybble) (s : State) : (emitGroups n gs s).SpendsPixels s := by
  induction gs generalizing s with
  | nil => exact Flow.spendsPixels_go s
  | cons g rest ih => exact (emitGroupFrom_spendsPixels n g _ 0 s).andThen ih

theorem r4Nybble_spendsPixels (n : Bpp) (v : Nybble) (s : State) : (r4Nybble n v s).SpendsPixels s := by
  unfold r4Nybble
  split_ifs
  · exact Flow.spendsPixels_go s
  · exact (emitGroups_spendsPixels n _ s).andThen Flow.spendsPixels_go

theorem r4Byte_spendsPixels (n : Bpp) (b : Byte) (s : State) : (r4Byte n b s).SpendsPixels s := by
  refine ((r4Nybble_spendsPixels n _ s).andThen (r4Nybble_spendsPixels n _)).andThen fun u => ?_
  split_ifs <;> exact Flow.spendsPixels_go u

/-- Settles O50: every pixel programs two bytes at most, and there are at most `pix` of them. -/
theorem r4DataByteFrame : Obligations.R4DataByteFrame := by
  unfold Obligations.R4DataByteFrame
  intro n b s t h
  rw [exec_r4DataInstr] at h
  cases h
  exact ⟨r4Byte_touches n b s, fun a ha => (r4Byte_spendsPixels n b s).programsAhead.read_eq ha⟩

end Sys2Proof.Machine
end

section
/-! ### The frame of TILE_P16's emitting bytes (R161, R182 to R187) -/

namespace Sys2Proof.Machine

/-- What a mask byte or the second byte of a literal colour can touch. -/
def P16Touches (s t : State) : Prop :=
  t = { s with
    state := t.state, pix := t.pix, p16Mask := t.p16Mask, p16Bits := t.p16Bits, p16Last := t.p16Last
    p16HaveLast := t.p16HaveLast, flash := t.flash, low := t.low, lat1 := t.lat1, lat2 := t.lat2
    fault := t.fault, hung := t.hung }

theorem P16Touches.trans {s t u : State} (h : P16Touches s t) (h' : P16Touches t u) : P16Touches s u := by
  unfold P16Touches at *
  rw [h', h]

theorem P16Touches.lut_eq {s t : State} (h : P16Touches s t) : t.lut = s.lut := by rw [h]

theorem OnlyEmits.p16Touches {s t : State} (h : OnlyEmits s t) : P16Touches s t := by rw [h]; rfl

theorem OnlyEmits.p16Bits_eq {s t : State} (h : OnlyEmits s t) : t.p16Bits = s.p16Bits := by rw [h]

theorem useMaskBit_touches (s : State) : P16Touches s (useMaskBit s) := rfl

theorem p16Loop_touches (fuel : Nat) (s : State) : P16Touches s (p16Loop fuel s).state := by
  induction fuel generalizing s with
  | zero => rfl
  | succ fuel ih =>
    unfold p16Loop
    split_ifs
    · rfl
    · exact Flow.andThen_frame .trans (emitTilePixel_onlyEmits _ s).p16Touches
        fun u => (useMaskBit_touches u).trans (ih (useMaskBit u))
    · rfl

theorem p16Literal_touches (c : Colour) (s : State) : P16Touches s (p16Literal c s).state :=
  P16Touches.trans (t := { s with p16Last := .val c, p16HaveLast := true }) rfl <|
    Flow.andThen_frame .trans (emitTilePixel_onlyEmits c _).p16Touches
      fun u => (useMaskBit_touches u).trans (p16Loop_touches _ (useMaskBit u))

theorem execTileP16Mask_touches {b : Byte} {s t : State} (h : exec (.tileP16Mask b) s = .next t) : P16Touches s t := by
  cases h
  exact P16Touches.trans (t := { s with p16Mask := .val b, p16Bits := 8 }) rfl (p16Loop_touches 8 _)

theorem execTileP16High_touches {b : Byte} {s t : State} (h : exec (.tileP16High b) s = .next t) : P16Touches s t := by
  cases h
  exact p16Literal_touches _ s

/-- Each round of P16Advance uses a mask bit and emits one pixel at most (R184). -/
theorem p16Loop_programsAhead (fuel : Nat) (s : State) : ProgramsAhead (2 * fuel) s (p16Loop fuel s).state := by
  induction fuel generalizing s with
  | zero => exact .refl 0 s
  | succ fuel ih =>
    unfold p16Loop
    split_ifs
    · exact .refl _ s
    · exact (Flow.andThen_programsAhead (emitTilePixel_programsAhead _ s) fun u _ => ih (useMaskBit u)).mono
        (by omega)
    · exact .refl _ s

/-- The literal's own pixel comes before those of the mask bits left after it (R186). -/
theorem p16Literal_programsAhead (c : Colour) (s : State) :
    ProgramsAhead (2 + 2 * (s.p16Bits - 1)) s (p16Literal c s).state := by
  have hbits := (emitTilePixel_onlyEmits c { s with p16Last := .val c, p16HaveLast := true }).p16Bits_eq
  refine Flow.andThen_programsAhead
    (emitTilePixel_programsAhead c { s with p16Last := .val c, p16HaveLast := true }) fun u hu => ?_
  rw [hu, Flow.state_go] at hbits
  rw [← hbits]
  exact p16Loop_programsAhead _ (useMaskBit u)

/-- Settles O51: eight mask bits ask for eight pixels of two bytes at most, a literal's own among them. -/
theorem p16ByteFrame : Obligations.P16ByteFrame := by
  unfold Obligations.P16ByteFrame
  rintro i b s t (rfl | ⟨rfl, hbits⟩) h
  · refine ⟨execTileP16Mask_touches h, fun a ha => ?_⟩
    cases h
    exact (p16Loop_programsAhead 8 { s with p16Mask := .val b, p16Bits := 8 }).read_eq ha
  · refine ⟨execTileP16High_touches h, fun a ha => ?_⟩
    cases h
    exact ((p16Literal_programsAhead _ s).mono (by omega)).read_eq ha

end Sys2Proof.Machine
end

section
/-! ### Only LUT1 and LUT16 write the LUT (R151, R152, R156, R157, R161) -/

namespace Sys2Proof.Machine

theorem lutWrite0_of_lt {i : Nat} (h : i < 16) (b : Byte) (s : State) :
    lutWrite0 i b s = { s with lut := s.lut.set i ⟨.val b, (s.lut[i]).b1⟩ } := by
  rw [lutWrite0, dif_pos h]

theorem lutWrite0_of_not_lt {i : Nat} (h : ¬i < 16) (b : Byte) (s : State) : lutWrite0 i b s = s := by
  rw [lutWrite0, dif_neg h]

theorem lutWrite1_of_not_lt {i : Nat} (h : ¬i < 16) (b : Byte) (s : State) : lutWrite1 i b s = s := by
  rw [lutWrite1, dif_neg h]

theorem lutEntry_congr {s t : State} (h : t.lut = s.lut) (j : Nybble) : lutEntry t j = lutEntry s j := by
  simp only [lutEntry, h]

theorem lutEntry_set {i : Nat} (hi : i < 16) (e : LutEntry) (s : State) (j : Nybble) :
    lutEntry { s with lut := s.lut.set i e } j = if i = j.toNat then e else lutEntry s j :=
  Vector.getElem_set hi j.isLt

/-- A write of b0 touches the entry its index names (R151), and none past the sixteenth (log entry 12). -/
theorem lutEntry_lutWrite0 (i : Nat) (b : Byte) (s : State) (j : Nybble) :
    lutEntry (lutWrite0 i b s) j = if i = j.toNat then ⟨.val b, (lutEntry s j).b1⟩ else lutEntry s j := by
  by_cases hi : i < 16
  · rw [lutWrite0_of_lt hi, lutEntry_set hi]
    split_ifs with hij
    · subst hij; rfl
    · rfl
  · rw [lutWrite0_of_not_lt hi, if_neg fun hij : i = j.toNat => hi (hij ▸ j.isLt)]

/-- A write of b1 touches the entry its index names (R152), and none past the sixteenth (log entry 12). -/
theorem lutEntry_lutWrite1 (i : Nat) (b : Byte) (s : State) (j : Nybble) :
    lutEntry (lutWrite1 i b s) j = if i = j.toNat then ⟨(lutEntry s j).b0, .val b⟩ else lutEntry s j := by
  by_cases hi : i < 16
  · rw [lutWrite1_of_lt hi, lutEntry_set hi]
    split_ifs with hij
    · subst hij; rfl
    · rfl
  · rw [lutWrite1_of_not_lt hi, if_neg fun hij : i = j.toNat => hi (hij ▸ j.isLt)]

theorem eraseRun_lut (n blk : Nat) (s : State) : (eraseRun n blk s).state.lut = s.lut := by
  induction n generalizing blk s with
  | zero => rfl
  | succ n ih =>
    unfold eraseRun
    split_ifs
    · rfl
    · exact ih (blk + 1) (eraseBlock blk s)

theorem eraseCheckFlow_lut (b : Byte) (s : State) : (eraseCheckFlow b s).state.lut = s.lut := by
  unfold eraseCheckFlow withFlashAddr
  split_ifs
  · exact Flow.andThen_frame (R := fun s t => t.lut = s.lut) (fun h h' => h'.trans h) (eraseRun_lut _ _ s) fun _ => rfl
  · rfl
  · rfl

/-- Every instruction but the four colour bytes leaves the LUT; a colour byte writes its byte of one entry. -/
theorem exec_lut_cases {i : Instr} {s t : State} (h : exec i s = .next t) :
    t.lut = s.lut ∨
    (∃ b, (i = .lut1Color1 b ∨ i = .lut16Color1 b) ∧ t.lut = (lutWrite0 (lutIndexOf s) b s).lut) ∨
    (∃ b, (i = .lut1Color2 b ∨ i = .lut16Color2 b) ∧ t.lut = (lutWrite1 (lutIndexOf s) b s).lut) := by
  cases i with
  | lut1Color1 b => cases h; exact .inr (.inl ⟨b, .inl rfl, rfl⟩)
  | lut16Color1 b => cases h; exact .inr (.inl ⟨b, .inr rfl, rfl⟩)
  | lut1Color2 b => cases h; exact .inr (.inr ⟨b, .inl rfl, rfl⟩)
  | lut16Color2 b => cases h; exact .inr (.inr ⟨b, .inr rfl, rfl⟩)
  | tileP0 x => exact .inl (execTileP0_touches h).lut_eq
  | tileP1R4Data b | tileP2R4Data b | tileP4R4Data b => cases h; exact .inl (r4Byte_touches _ b s).lut_eq
  | tileP16Mask b => exact .inl (execTileP16Mask_touches h).lut_eq
  | tileP16High b => exact .inl (execTileP16High_touches h).lut_eq
  | eraseCheck b => cases h; exact .inl (eraseCheckFlow_lut b s)
  | _ => cases h; exact .inl rfl

/-- An instruction is decoded in the state that reads it, from its own byte (R84). -/
theorem eq_readIn_and_encode_of_decode {st : DecoderState} {b : Byte} {i : Instr} (h : decode st b = i) :
    st = i.readIn ∧ b = encode i := by
  obtain ⟨_, hread, hencode⟩ := encodeOfDecodeIsTheByte st b
  rw [h] at hread hencode
  exact ⟨hread.symm, hencode.symm⟩

theorem decode_eq_lutColor1 {st : DecoderState} {b c : Byte}
    (h : decode st b = .lut1Color1 c ∨ decode st b = .lut16Color1 c) :
    (st = .lut1Color1 ∨ st = .lut16Color1) ∧ b = c := by
  rcases h with h | h <;> obtain ⟨rfl, rfl⟩ := eq_readIn_and_encode_of_decode h
  · exact ⟨.inl rfl, rfl⟩
  · exact ⟨.inr rfl, rfl⟩

theorem decode_eq_lutColor2 {st : DecoderState} {b c : Byte}
    (h : decode st b = .lut1Color2 c ∨ decode st b = .lut16Color2 c) :
    (st = .lut1Color2 ∨ st = .lut16Color2) ∧ b = c := by
  rcases h with h | h <;> obtain ⟨rfl, rfl⟩ := eq_readIn_and_encode_of_decode h
  · exact ⟨.inl rfl, rfl⟩
  · exact ⟨.inr rfl, rfl⟩

/-- Settles O57: a colour byte is read in its own state and writes its byte of the entry `lut_index` names; beside it
only the reset step touches the LUT. -/
theorem onlyLutOpcodesWriteTheLut : Obligations.OnlyLutOpcodesWriteTheLut := by
  unfold Obligations.OnlyLutOpcodesWriteTheLut
  intro s t i hstep hne
  rcases step_cases hstep with ⟨hbyte, hx⟩ | ⟨_, hreset, rfl⟩ | ⟨_, _, rfl | rfl⟩
  · right
    rcases exec_lut_cases hx with hlut | ⟨b, hdecode, hlut⟩ | ⟨b, hdecode, hlut⟩
    · exact absurd (lutEntry_congr (s := s) hlut i) hne
    · obtain ⟨hstate, rfl⟩ := decode_eq_lutColor1 hdecode
      have hentry := (lutEntry_congr hlut i).trans (lutEntry_lutWrite0 _ _ _ i)
      split_ifs at hentry with hindex
      · exact ⟨hbyte, hindex, .inl ⟨hstate, hentry⟩⟩
      · exact absurd hentry hne
    · obtain ⟨hstate, rfl⟩ := decode_eq_lutColor2 hdecode
      have hentry := (lutEntry_congr hlut i).trans (lutEntry_lutWrite1 _ _ _ i)
      split_ifs at hentry with hindex
      · exact ⟨hbyte, hindex, .inr ⟨hstate, hentry⟩⟩
      · exact absurd hentry hne
  · exact .inl ⟨hreset, Vector.getElem_replicate i.isLt⟩
  · exact absurd rfl hne
  · rw [producerMove_frame] at hne
    exact absurd rfl hne

end Sys2Proof.Machine
end

section
/-! ### The bytes of a LUT1 (R150 to R152) -/

namespace Sys2Proof.Machine

open Sys2Proof.Safety

/-- The state that the opcode byte of `LUT1 i` leaves (R150). -/
def lut1Opened (i : Nybble) (s : State) : State :=
  { s with opcode := .val (0b0000#4 ++ i), lutIndex := .val i.toNat, state := .lut1Color1 }

theorem stepByte_lut1 {s : State} (hs : s.state = .opcode) (i : Nybble) :
    stepByte (0b0000#4 ++ i) s = .next (lut1Opened i s) := by
  have hindex : lutIndexArg (0#1 ++ i) = i.toNat := congrArg BitVec.toNat (index_extractLsb' i)
  have hbyte : 0b000#3 ++ (0#1 ++ i : BitVec 5) = 0b0000#4 ++ i := (append_index 0b000#3 i).symm
  rw [stepByte, hs, decode, decodeOpcode_lut1_index, exec, execLut1, hindex, hbyte]
  rfl

/-- LUT1's first colour byte sets b0 of the entry `lut_index` names (R151). -/
theorem stepByte_lut1Color1 {s : State} {i : Nat} (hs : s.state = .lut1Color1) (hindex : s.lutIndex = .val i)
    (hi : i < 16) (b : Byte) :
    stepByte b s = .next { s with lut := s.lut.set i ⟨.val b, (s.lut[i]).b1⟩, state := .lut1Color2 } := by
  rw [stepByte, hs, decode, exec, execLut1Color1, lutIndexOf_of_val hindex, lutWrite0_of_lt hi]

/-- LUT1's second colour byte sets its b1 (R152). -/
theorem stepByte_lut1Color2 {s : State} {i : Nat} (hs : s.state = .lut1Color2) (hindex : s.lutIndex = .val i)
    (hi : i < 16) (b : Byte) :
    stepByte b s = .next { s with lut := s.lut.set i ⟨(s.lut[i]).b0, .val b⟩, state := .opcode } := by
  rw [stepByte, hs, decode, exec, execLut1Color2, lutIndexOf_of_val hindex, lutWrite1_of_lt hi]

/-- The state once the first colour byte is in as well (R151). -/
def lut1HalfLoaded (i : Nybble) (b0 : Byte) (s : State) : State :=
  { lut1Opened i s with lut := s.lut.set i.toNat ⟨.val b0, (lutEntry s i).b1⟩ i.isLt, state := .lut1Color2 }

theorem stepByte_lut1HalfLoaded (i : Nybble) (c : Colour) (s : State) :
    stepByte c.b1 (lut1HalfLoaded i c.b0 s) = .next
      { lut1Opened i s with lut := s.lut.set i.toNat ⟨.val c.b0, .val c.b1⟩ i.isLt, state := .opcode } := by
  rw [stepByte_lut1Color2 rfl rfl i.isLt, lut1HalfLoaded, Vector.getElem_set_self, Vector.set_set]

/-- Settles O27: the opcode byte names the entry, and the two colour bytes set its b0 and its b1. -/
theorem lut1InstructionLoadsOneEntry : Obligations.Lut1InstructionLoadsOneEntry := by
  unfold Obligations.Lut1InstructionLoadsOneEntry
  intro s i c hs hr
  have hloaded := calc feed [0b0000#4 ++ i, c.b0, c.b1] s
    _ = feed [c.b0, c.b1] (lut1Opened i s) := feed_cons_of_running hr (stepByte_lut1 hs i)
    _ = feed [c.b1] (lut1HalfLoaded i c.b0 s) :=
      feed_cons_of_running hr (stepByte_lut1Color1 rfl rfl i.isLt c.b0)
    _ = feed [] { lut1Opened i s with
          lut := s.lut.set i.toNat ⟨.val c.b0, .val c.b1⟩ i.isLt, state := .opcode } :=
      feed_cons_of_running hr (stepByte_lut1HalfLoaded i c s)
  rw [← hs] at hloaded
  exact hloaded

end Sys2Proof.Machine
end

section
/-! ### The flash stays canonical and inside FLASH_BYTES (R51, R201, R203) -/

namespace Sys2Proof.Machine

open Sys2Proof.Safety

/-- From `s` to `t` the parameters stay, and a flash that is canonical and inside FLASH_BYTES stays so. -/
def KeepsFlashOk (s t : State) : Prop := t.params = s.params ∧ (FlashOk s → FlashOk t)

theorem KeepsFlashOk.trans {s t u : State} (h : KeepsFlashOk s t) (h' : KeepsFlashOk t u) : KeepsFlashOk s u :=
  ⟨h'.1.trans h.1, fun hs => h'.2 (h.2 hs)⟩

/-- What changes neither parameters nor flash. -/
theorem KeepsFlashOk.of_eq {s t : State} (hparams : t.params = s.params) (hflash : t.flash = s.flash) :
    KeepsFlashOk s t :=
  ⟨hparams, fun hs => by rwa [FlashOk, hparams, hflash]⟩

theorem eraseBlock_keepsFlashOk (blk : Nat) (s : State) : KeepsFlashOk s (eraseBlock blk s) :=
  ⟨rfl, fun hs => flashOk_eraseBlock hs blk⟩

/-- A byte is programmed inside FLASH_BYTES or not at all (R201). -/
theorem emitByte_keepsFlashOk (v : Byte) (s : State) : KeepsFlashOk s (emitByte v s).state := by
  rcases emitByte_cases v s with ⟨_, h⟩ | ⟨_, _, h⟩ | ⟨_, _, h⟩ | ⟨_, hin, _, h⟩ <;> rw [h]
  · exact .of_eq rfl rfl
  · exact .of_eq rfl rfl
  · exact .of_eq rfl rfl
  · exact ⟨rfl, fun hs => flashOk_write hs hin v⟩

theorem emitColor_keepsFlashOk (c : Colour) (s : State) : KeepsFlashOk s (emitColor c s).state :=
  Flow.andThen_frame .trans (emitByte_keepsFlashOk _ s) (emitByte_keepsFlashOk _)

theorem emitTilePixel_keepsFlashOk (c : Colour) (s : State) : KeepsFlashOk s (emitTilePixel c s).state :=
  Flow.andThen_frame .trans (emitColor_keepsFlashOk c s) fun _ => .of_eq rfl rfl

theorem emitGroupFrom_keepsFlashOk (n : Bpp) (g : Nybble) (m k : Nat) (s : State) :
    KeepsFlashOk s (emitGroupFrom n g m k s).state := by
  induction m generalizing k s with
  | zero => exact .of_eq rfl rfl
  | succ m ih =>
    unfold emitGroupFrom
    split_ifs
    · exact .of_eq rfl rfl
    · exact Flow.andThen_frame .trans
        (withLutRead_frame (.of_eq rfl rfl) fun c => emitTilePixel_keepsFlashOk c s) (ih (k + 1))

theorem emitGroups_keepsFlashOk (n : Bpp) (gs : List Nybble) (s : State) :
    KeepsFlashOk s (emitGroups n gs s).state := by
  induction gs generalizing s with
  | nil => exact .of_eq rfl rfl
  | cons g rest ih => exact Flow.andThen_frame .trans (emitGroupFrom_keepsFlashOk n g _ 0 s) ih

theorem repeatFlow_keepsFlashOk {act : State → Flow} (hact : ∀ u, KeepsFlashOk u (act u).state) (n : Nat)
    (s : State) : KeepsFlashOk s (repeatFlow n act s).state := by
  induction n generalizing s with
  | zero => exact .of_eq rfl rfl
  | succ n ih => exact Flow.andThen_frame .trans (hact s) ih

theorem tileP0Flow_keepsFlashOk (x : BitVec 5) (s : State) : KeepsFlashOk s (tileP0Flow x s).state := by
  unfold tileP0Flow
  split_ifs
  · exact .of_eq rfl rfl
  · exact withLutRead_frame (.of_eq rfl rfl) fun c => Flow.andThen_frame .trans
      (repeatFlow_keepsFlashOk (emitColor_keepsFlashOk c) _ s) fun _ => .of_eq rfl rfl

theorem r4Nybble_keepsFlashOk (n : Bpp) (v : Nybble) (s : State) : KeepsFlashOk s (r4Nybble n v s).state := by
  unfold r4Nybble
  split_ifs
  · exact .of_eq rfl rfl
  · exact Flow.andThen_frame .trans (emitGroups_keepsFlashOk n _ s) fun _ => .of_eq rfl rfl

theorem r4Byte_keepsFlashOk (n : Bpp) (b : Byte) (s : State) : KeepsFlashOk s (r4Byte n b s).state := by
  refine Flow.andThen_frame .trans
    (Flow.andThen_frame .trans (r4Nybble_keepsFlashOk n _ s) (r4Nybble_keepsFlashOk n _)) fun u => ?_
  split_ifs <;> exact .of_eq rfl rfl

theorem p16Loop_keepsFlashOk (fuel : Nat) (s : State) : KeepsFlashOk s (p16Loop fuel s).state := by
  induction fuel generalizing s with
  | zero => exact .of_eq rfl rfl
  | succ fuel ih =>
    unfold p16Loop
    split_ifs
    · exact .of_eq rfl rfl
    · exact Flow.andThen_frame .trans (emitTilePixel_keepsFlashOk _ s) fun u => ih (useMaskBit u)
    · exact .of_eq rfl rfl

theorem p16Literal_keepsFlashOk (c : Colour) (s : State) : KeepsFlashOk s (p16Literal c s).state :=
  Flow.andThen_frame .trans (emitTilePixel_keepsFlashOk c { s with p16Last := .val c, p16HaveLast := true })
    fun u => p16Loop_keepsFlashOk _ (useMaskBit u)

theorem eraseRun_keepsFlashOk (n blk : Nat) (s : State) : KeepsFlashOk s (eraseRun n blk s).state := by
  induction n generalizing blk s with
  | zero => exact .of_eq rfl rfl
  | succ n ih =>
    unfold eraseRun
    split_ifs
    · exact .of_eq rfl rfl
    · exact (eraseBlock_keepsFlashOk blk s).trans (ih (blk + 1) _)

theorem eraseCheckFlow_keepsFlashOk (b : Byte) (s : State) : KeepsFlashOk s (eraseCheckFlow b s).state := by
  unfold eraseCheckFlow withFlashAddr
  split_ifs
  · exact Flow.andThen_frame .trans (eraseRun_keepsFlashOk _ _ s) fun _ => .of_eq rfl rfl
  · exact .of_eq rfl rfl
  · exact .of_eq rfl rfl

theorem exec_keepsFlashOk {i : Instr} {s t : State} (h : exec i s = .next t) : KeepsFlashOk s t := by
  cases htouch : touchesFlash i with
  | false =>
    obtain ⟨hflash, _⟩ := exec_flash_of_not_touchesFlash htouch h
    exact .of_eq (congrArg PortSide.params (exec_portSide h)) hflash
  | true =>
    cases i with
    | tileP0 x => cases h; exact tileP0Flow_keepsFlashOk x (latchOpcode _ s)
    | tileP1R4Data b | tileP2R4Data b | tileP4R4Data b => cases h; exact r4Byte_keepsFlashOk _ b s
    | tileP16Mask b => cases h; exact p16Loop_keepsFlashOk 8 { s with p16Mask := .val b, p16Bits := 8 }
    | tileP16High b => cases h; exact p16Literal_keepsFlashOk _ s
    | eraseCheck b => cases h; exact eraseCheckFlow_keepsFlashOk b s
    | _ => cases htouch

/-- Settles O54: only an instruction touches flash; the reset step and the producer leave it and the parameters. -/
theorem everyStepKeepsTheFlashCanonical : Obligations.EveryStepKeepsTheFlashCanonical := by
  unfold Obligations.EveryStepKeepsTheFlashCanonical
  intro s t hok hstep
  have hkept : KeepsFlashOk s t := by
    rcases step_cases hstep with ⟨_, hx⟩ | ⟨_, _, rfl⟩ | ⟨_, _, rfl | rfl⟩
    · exact exec_keepsFlashOk (s := popTail (turnTaken s)) hx
    · exact .of_eq rfl rfl
    · exact .of_eq rfl rfl
    · rw [producerMove_frame]
      exact .of_eq rfl rfl
  exact ⟨hkept.2 hok, hkept.1⟩

end Sys2Proof.Machine
end

section
/-! ### The step: what stops it, and the turns that take no byte (R111, R116, R117, R221, R222, R224) -/

namespace Sys2Proof.Machine

open Sys2Proof.Safety

/-- Every byte has a next state in every decoder state (R88). -/
theorem exec_eq_next (i : Instr) (s : State) : ∃ t, exec i s = .next t := by
  cases i <;> exact ⟨_, rfl⟩

theorem step_eq_next_of_fault_eq_none {s : State} (h : s.fault = none) : ∃ t, step s = .next t := by
  rw [step_eq_of_fault_eq_none h]
  split_ifs
  · exact exec_eq_next _ _
  · exact ⟨_, rfl⟩
  · exact ⟨_, rfl⟩
  · exact ⟨_, rfl⟩

/-- Settles O11: a recorded fault is what the step answers, and without one every move has a next state. -/
theorem stepStopsExactlyOnARecordedFault : Obligations.StepStopsExactlyOnARecordedFault := by
  unfold Obligations.StepStopsExactlyOnARecordedFault
  intro s
  cases hfault : s.fault with
  | some code => simp [step_of_fault hfault]
  | none =>
    obtain ⟨t, ht⟩ := step_eq_next_of_fault_eq_none hfault
    simp [ht]

/-- Settles O12: a hung decoder takes no byte and no reset step; its turn is used up, or the producer moves. -/
theorem hungDecoderNeverMovesAgain : Obligations.HungDecoderNeverMovesAgain := by
  unfold Obligations.HungDecoderNeverMovesAgain
  intro s t hhung hstep
  rcases step_cases hstep with ⟨hbyte, _⟩ | ⟨_, hreset, _⟩ | ⟨_, _, rfl | rfl⟩
  · simp [takesByte, hhung] at hbyte
  · simp [takesReset, hhung] at hreset
  · rfl
  · rw [producerMove_frame]
    rfl

/-- Settles O10: these are the states whose step is the reset step. -/
theorem sentinelResetsTheDecoder : Obligations.SentinelResetsTheDecoder := by
  unfold Obligations.SentinelResetsTheDecoder
  intro s hfault hhung hturn hhead
  have hbyte : takesByte s = false := by simp [takesByte, hhead]
  have hreset : takesReset s = true := by simp [takesReset, hturn, hhung, hhead]
  rw [step_eq_of_fault_eq_none hfault, if_neg (by simp [hbyte]), if_pos hreset]
  rfl

/-- Settles O13: with no byte and no sentinel the decoder's turn is only taken off the schedule. -/
theorem idleDecoderChangesNothing : Obligations.IdleDecoderChangesNothing := by
  unfold Obligations.IdleDecoderChangesNothing
  intro s rest hfault _ hsentinel hempty hschedule
  have hbyte : takesByte s = false := by simp [takesByte, hempty]
  have hreset : takesReset s = false := by simp [takesReset, hsentinel]
  have hturn : decodersTurn s = true := by simp [decodersTurn, hschedule]
  simp [step_eq_of_fault_eq_none hfault, hbyte, hreset, hturn, turnTaken, hschedule]

/-- A placed byte is taken by the very next step (log entry 9): it is not behind the sentinel, and the FIFO is not
empty. -/
theorem takesByte_withFetchWord {s : State} (hsize : 2 ≤ s.params.fifoSize) (htail : s.tail < s.params.fifoSize)
    (hsentinel : s.params.fifoSize ≤ s.params.headReset) (nbits w : Nat) :
    takesByte (s.withFetchWord nbits w) = true := by
  have hnext : nextSlot s.params s.tail < s.params.fifoSize := nextSlot_lt (by omega) _
  have hmoved : nextSlot s.params s.tail ≠ s.tail := by
    rw [nextSlot_eq htail]
    split_ifs <;> omega
  refine takesByte_iff.2 ⟨rfl, rfl, ?_, ?_⟩ <;>
    dsimp only [State.withFetchWord] <;> split_ifs with hhead
  · omega
  · exact fun h => hhead (.inl h)
  · exact hmoved
  · exact fun h => hhead (.inr h)

theorem tailByte_withFetchWord (s : State) (nbits w : Nat) :
    tailByte (s.withFetchWord nbits w) = BitVec.ofNat 8 w :=
  tailByte_of_find (by simp [State.withFetchWord])

/-- Settles O9: the step takes the placed byte, in OPCODE. -/
theorem stepRunsThePlacedByte : Obligations.StepRunsThePlacedByte := by
  unfold Obligations.StepRunsThePlacedByte
  intro s nbits w hsize htail hsentinel _
  refine ⟨popTail (turnTaken (s.withFetchWord nbits w)), ?_, rfl, rfl, rfl, rfl, rfl, rfl, rfl⟩
  rw [step_of_takesByte rfl (takesByte_withFetchWord hsize htail hsentinel nbits w), tailByte_withFetchWord]
  rfl

/-- Settles O17: every field as power-on writes it, and power-on reset writes the same values. -/
theorem powerOnLeavesTheResetTable : Obligations.PowerOnLeavesTheResetTable := by
  unfold Obligations.PowerOnLeavesTheResetTable
  rintro p flash script s rfl
  have hlut (i : Nybble) : lutEntry (State.powerOn p flash script) i = ⟨.unset, .unset⟩ :=
    Vector.getElem_replicate i.isLt
  exact ⟨rfl, rfl, hlut, rfl, rfl, rfl, rfl, rfl, rfl, rfl, rfl, rfl, rfl, rfl, rfl, rfl, rfl, rfl, rfl, rfl, rfl,
    fun _ => rfl, rfl, rfl, rfl, rfl, rfl⟩

end Sys2Proof.Machine
end

section
/-! ### Pushing into the FIFO (R118, R120, R121, R256) -/

namespace Sys2Proof.Machine

open Sys2Proof.Safety

/-- Settles O14: the push's own checks, with the capacity, the occupancy and the next slot written out. -/
theorem pushChecksThenStores : Obligations.PushChecksThenStores := by
  unfold Obligations.PushChecksThenStores
  exact fun _ _ => rfl

theorem push_of_full {s : State} (hsentinel : s.head ≠ s.params.headReset) (hfull : occupancy s = s.params.fifoCapacity)
    (v : Byte) : push v s = .stop { s with fault := some .fifoOverflow } := by
  rw [push, if_neg hsentinel, if_pos hfull, raise]

/-- The state after a push that is neither during a reset nor into a full FIFO (R118). -/
def pushed (v : Byte) (s : State) : State :=
  { s with ring := Memory.put s.ring s.head v, head := nextSlot s.params s.head }

theorem push_of_not_full {s : State} (hsentinel : s.head ≠ s.params.headReset)
    (hroom : occupancy s ≠ s.params.fifoCapacity) (v : Byte) : push v s = .go (pushed v s) := by
  rw [push, if_neg hsentinel, if_neg hroom, pushed]

/-- The indices of a port that no sentinel stands in: both name slots, and the sentinel is outside them (R5, R31). -/
def IndicesOk (s : State) : Prop :=
  s.head < s.params.fifoSize ∧ s.tail < s.params.fifoSize ∧ s.params.fifoSize ≤ s.params.headReset

theorem IndicesOk.no_sentinel {s : State} (h : IndicesOk s) : s.head ≠ s.params.headReset := by
  obtain ⟨hhead, _, hsentinel⟩ := h
  omega

theorem IndicesOk.pushed {s : State} (h : IndicesOk s) (v : Byte) : IndicesOk (pushed v s) := by
  obtain ⟨hhead, htail, hsentinel⟩ := h
  exact ⟨nextSlot_lt (p := s.params) (by omega) _, htail, hsentinel⟩

/-- Two slots less than a ring apart are different slots. -/
theorem slot_ne_of_lt {n i j k : Nat} (hj : j < n) (hk : k < j) : (i + k) % n ≠ (i + j) % n := by
  intro h
  have hdvd : n ∣ (i + j) - (i + k) := (Nat.modEq_iff_dvd' (by omega)).1 h
  have hle := Nat.le_of_dvd (by omega) hdvd
  omega

/-- A push leaves the slots of the bytes already held. -/
theorem find_pushed_of_lt {s : State} (h : IndicesOk s) {k : Nat} (hk : k < occupancy s)
    (v : Byte) : Memory.find (pushed v s).ring ((s.tail + k) % s.params.fifoSize) =
      Memory.find s.ring ((s.tail + k) % s.params.fifoSize) := by
  obtain ⟨hhead, htail, _⟩ := h
  have hocc : occupancy s < s.params.fifoSize := Nat.mod_lt _ (by omega)
  have hne := slot_ne_of_lt (i := s.tail) hocc hk
  rw [slot_occupancy hhead htail] at hne
  rw [pushed, Memory.find_put, if_neg hne]

/-- Pushes that fit all succeed: their bytes lie in order behind those held before, which stay (R118, R256). -/
theorem pushAll_of_fits {bs : List Byte} {s : State} (h : IndicesOk s)
    (hfits : occupancy s + bs.length ≤ s.params.fifoCapacity) :
    ∃ t, pushAll bs s = .go t ∧ t = { s with ring := t.ring, head := t.head } ∧ IndicesOk t ∧
      occupancy t = occupancy s + bs.length ∧
      (∀ k < occupancy s, Memory.find t.ring ((s.tail + k) % s.params.fifoSize) =
        Memory.find s.ring ((s.tail + k) % s.params.fifoSize)) ∧
      ∀ k, (hk : k < bs.length) →
        Memory.find t.ring ((s.tail + occupancy s + k) % s.params.fifoSize) = some bs[k] := by
  induction bs generalizing s with
  | nil => exact ⟨s, rfl, rfl, h, rfl, fun _ _ => rfl, nofun⟩
  | cons b rest ih =>
    have ⟨hhead, htail, _⟩ := h
    rw [List.length_cons] at hfits
    have hroom : occupancy s ≠ s.params.fifoCapacity := by omega
    have hocc : occupancy (pushed b s) = occupancy s + 1 := occupancy_push hhead htail hroom b
    have hrest : occupancy (pushed b s) + rest.length ≤ s.params.fifoCapacity := by omega
    obtain ⟨t, ht, hframe, hindices, htocc, hheld, hpushed⟩ := ih (h.pushed b) hrest
    rw [hocc] at htocc hheld hpushed
    refine ⟨t, ?_, ?_, hindices, by rw [htocc, List.length_cons]; omega, fun k hk => ?_, fun k hk => ?_⟩
    · rw [pushAll, push_of_not_full h.no_sentinel hroom, Flow.andThen_go, ht]
    · rw [hframe]; rfl
    · exact (hheld k (by omega)).trans (find_pushed_of_lt h hk b)
    · cases k with
      | zero =>
        have hlast := hheld (occupancy s) (by omega)
        rw [Nat.add_zero, List.getElem_cons_zero]
        refine hlast.trans ?_
        have hslot : ((pushed b s).tail + occupancy s) % (pushed b s).params.fifoSize = s.head :=
          slot_occupancy hhead htail
        rw [hslot, pushed, Memory.find_put, if_pos rfl]
      | succ k =>
        have hnext := hpushed k (by rw [List.length_cons] at hk; omega)
        rw [List.getElem_cons_succ, ← hnext]
        congr 2
        change _ = s.tail + (occupancy s + 1) + k
        omega

theorem occupancy_eq_zero {s : State} (h : IndicesOk s) (hempty : s.head = s.tail) : occupancy s = 0 := by
  obtain ⟨hhead, htail, _⟩ := h
  rw [occupancy_eq hhead htail, if_pos hempty.ge, hempty, Nat.sub_self]

theorem fifoSize_le_headReset_of_wellFormed {p : Config.Params} (h : p.wellFormed = true) :
    p.fifoSize ≤ p.headReset := by
  simp only [Config.Params.wellFormed, Bool.and_eq_true, decide_eq_true_eq] at h
  obtain ⟨⟨⟨_, hsentinel⟩, _⟩, _⟩ := h
  exact hsentinel

/-- Settles O16: the pushes fit an empty FIFO exactly, and then it is full. -/
theorem fifoHoldsExactlyItsCapacity : Obligations.FifoHoldsExactlyItsCapacity := by
  unfold Obligations.FifoHoldsExactlyItsCapacity
  intro s bs hw hport hsentinel hempty hlen
  obtain ⟨htail, hhead, _⟩ := hport
  have hindices : IndicesOk s :=
    ⟨hhead.resolve_right hsentinel, htail, fifoSize_le_headReset_of_wellFormed hw⟩
  have hzero := occupancy_eq_zero hindices hempty
  have hcapacity : occupancy s + bs.length = s.params.fifoCapacity := by rw [hzero, hlen, Nat.zero_add]; rfl
  obtain ⟨t, ht, hframe, htindices, htocc, _, hpushed⟩ := pushAll_of_fits hindices hcapacity.le
  have hparams : t.params = s.params := by rw [hframe]
  refine ⟨t, ht, by rw [hframe], by rw [hframe], fun k hk => ?_, fun v => ?_⟩
  · have hslot := hpushed k hk
    rwa [hzero, Nat.add_zero] at hslot
  · exact push_of_full htindices.no_sentinel (by rw [htocc, hcapacity, hparams]) v

end Sys2Proof.Machine
end

section
/-! ### Bytes that are stored as they come, and the address (R53, R131, R132, R151, R154, R156, R173, R185) -/

namespace Sys2Proof.Machine

open Sys2Proof.Safety

/-- Settles O21: the meanings of the four bytes. -/
theorem continuationBytesAreStored : Obligations.ContinuationBytesAreStored := by
  unfold Obligations.ContinuationBytesAreStored
  exact fun _ _ => ⟨rfl, rfl, rfl, rfl⟩

theorem advanceAddr_of_addrValid {s : State} (h : s.addrValid = true) :
    advanceAddr s = .go (setAddr (latchAddr s + 1) s) := by
  rw [advanceAddr, withFlashAddr, if_pos h]

/-- Settles O23: the address is set to its successor as a 24-bit number. -/
theorem addressAdvancesByOne : Obligations.AddressAdvancesByOne := by
  unfold Obligations.AddressAdvancesByOne
  intro s hvalid
  refine ⟨_, advanceAddr_of_addrValid hvalid, ?_, rfl⟩
  rw [latchAddr_setAddr, BitVec.toNat_add]
  rfl

/-- LUT16's first colour byte sets b0 of the entry `lut_index` names (R156). -/
theorem exec_lut16Color1 {s : State} {i : Nat} (hi : i < 16) (hindex : s.lutIndex = .val i) (b : Byte) :
    exec (.lut16Color1 b) s = .next
      { s with lut := s.lut.set i ⟨.val b, (s.lut[i]).b1⟩, state := .lut16Color2 } := by
  rw [exec, execLut16Color1, lutIndexOf_of_val hindex, lutWrite0_of_lt hi]

/-- Settles O24: both bytes write b0 at the index, and await the second byte. -/
theorem firstColourBytesAreStored : Obligations.FirstColourBytesAreStored := by
  unfold Obligations.FirstColourBytesAreStored
  intro s b i hi hindex
  refine ⟨?_, exec_lut16Color1 hi hindex b⟩
  rw [exec, execLut1Color1, lutIndexOf_of_val hindex, lutWrite0_of_lt hi]

/-- Settles O37: each nybble is evaluated. -/
theorem nybblePixelsLowBitsFirst : Obligations.NybblePixelsLowBitsFirst := by
  unfold Obligations.NybblePixelsLowBitsFirst
  decide

end Sys2Proof.Machine
end

section
/-! ### LUT16: the walk along the vector, and the whole instruction (R153 to R159) -/

namespace Sys2Proof.Machine

open Sys2Proof.Safety

/-! #### Where the walk ends -/

/-- The walk stops at the first set bit. -/
theorem lut16Target_of_first {vec : BitVec 16} {i k : Nat} (hik : i ≤ k) (hk : k < 16)
    (hbit : vec.getLsbD k = true) (hclear : ∀ j, i ≤ j → j < k → vec.getLsbD j = false) :
    lut16Target vec i = k := by
  obtain ⟨hle, _, hbefore, hstop⟩ := lut16Walk_spec vec (16 - i) i
  change lut16Walk vec (16 - i) i = k
  rcases Nat.lt_trichotomy (lut16Walk vec (16 - i) i) k with hlt | heq | hgt
  · exact absurd (hstop (by omega)) (by simp [hclear _ hle hlt])
  · exact heq
  · exact absurd hbit (by simp [hbefore k hik hgt])

/-- With no set bit left the walk ends past the sixteenth entry. -/
theorem lut16Target_of_clear {vec : BitVec 16} {i : Nat} (hi : i ≤ 16)
    (hclear : ∀ j, i ≤ j → j < 16 → vec.getLsbD j = false) : lut16Target vec i = 16 := by
  obtain ⟨hle, hle', _, hstop⟩ := lut16Walk_spec vec (16 - i) i
  change lut16Walk vec (16 - i) i = 16
  by_contra hne
  exact absurd (hstop (by omega)) (by simp [hclear _ hle (by omega)])

theorem lut16Next_of_first {s : State} {i k : Nat} (hik : i ≤ k) (hk : k < 16)
    (hbit : (lutVec s).getLsbD k = true) (hclear : ∀ j, i ≤ j → j < k → (lutVec s).getLsbD j = false) :
    lut16Next i s = { s with lutIndex := .val k, state := .lut16Color1 } := by
  rw [lut16Next, lut16Target_of_first hik hk hbit hclear, if_neg (show k ≠ Config.lutEntries from hk.ne)]

theorem lut16Next_of_clear {s : State} {i : Nat} (hi : i ≤ 16)
    (hclear : ∀ j, i ≤ j → j < 16 → (lutVec s).getLsbD j = false) :
    lut16Next i s = { s with lutIndex := .val 16, state := .opcode } := by
  rw [lut16Next, lut16Target_of_clear hi hclear, if_pos (show 16 = Config.lutEntries from rfl)]

theorem lutVec_of_val {s : State} {lo hi : Byte} (hlo : s.lutVecLo = .val lo) (hhi : s.lutVecHi = .val hi) :
    lutVec s = hi ++ lo := by
  rw [lutVec, hlo, hhi, Cell.read, Cell.read]

/-- Settles O25: the walk begins at entry 0. -/
theorem lut16VectorFindsItsFirstEntry : Obligations.Lut16VectorFindsItsFirstEntry := by
  unfold Obligations.Lut16VectorFindsItsFirstEntry
  intro s lo b hlo
  have hvec : lutVec { s with lutVecHi := .val b } = b ++ lo := lutVec_of_val hlo rfl
  refine ⟨fun hzero => ?_, fun i hi hbit hclear => ?_⟩
  · rw [exec, execLut16Vec2, lut16Next_of_clear (Nat.zero_le 16) (by simp [hvec, hzero])]
  · rw [exec, execLut16Vec2, lut16Next_of_first (Nat.zero_le i) hi (hvec ▸ hbit) (fun j _ hj => hvec ▸ hclear j hj)]

/-- LUT16's second colour byte sets b1 of the entry `lut_index` names, and the walk goes on behind it (R157). -/
theorem exec_lut16Color2 {s : State} {i : Nat} (hi : i < 16) (hindex : s.lutIndex = .val i) (b : Byte) :
    exec (.lut16Color2 b) s = .next (lut16Next (i + 1) { s with lut := s.lut.set i ⟨(s.lut[i]).b0, .val b⟩ }) := by
  rw [exec, execLut16Color2, lutIndexOf_of_val hindex, lutWrite1_of_lt hi]

/-- Settles O26: the walk goes on at the entry after the one completed. -/
theorem lut16SecondColourByteWalksOn : Obligations.Lut16SecondColourByteWalksOn := by
  unfold Obligations.Lut16SecondColourByteWalksOn
  intro s lo hi b i hlt hlo hhi hindex
  have hvec : lutVec { s with lut := s.lut.set i ⟨(s.lut[i]).b0, .val b⟩ } = hi ++ lo := lutVec_of_val hlo hhi
  refine ⟨fun hclear => ?_, fun k hik hk hbit hclear => ?_⟩
  · rw [exec_lut16Color2 hlt hindex, lut16Next_of_clear hlt (hvec ▸ hclear)]
  · rw [exec_lut16Color2 hlt hindex, lut16Next_of_first hik hk (hvec ▸ hbit) (hvec ▸ hclear)]

/-! #### Ranks of set bits -/

/-- How many of the vector bits `i` .. `j - 1` are set. -/
def setBits (vec : BitVec 16) (i j : Nat) : Nat := (List.range' i (j - i)).countP (fun k => vec.getLsbD k)

theorem setBits_eq_zero {vec : BitVec 16} {i j : Nat} :
    setBits vec i j = 0 ↔ ∀ k, i ≤ k → k < j → vec.getLsbD k = false := by
  simp only [setBits, List.countP_eq_zero, List.mem_range'_1, Bool.not_eq_true]
  exact ⟨fun h k hik hkj => h k (by omega), fun h k hk => h k (by omega) (by omega)⟩

/-- The bits from the first set one on are that one and those behind it. -/
theorem setBits_of_first {vec : BitVec 16} {i j k : Nat} (hik : i ≤ k) (hkj : k < j) (hbit : vec.getLsbD k = true)
    (hclear : ∀ m, i ≤ m → m < k → vec.getLsbD m = false) : setBits vec i j = setBits vec (k + 1) j + 1 := by
  have hsplit : List.range' i (j - i) = List.range' i (k - i) ++ k :: List.range' (k + 1) (j - (k + 1)) := by
    rw [← List.range'_succ, show j - i = (k - i) + (j - (k + 1) + 1) by omega, ← List.range'_append_1]
    congr 2
    omega
  have hbefore : (List.range' i (k - i)).countP (fun m => vec.getLsbD m) = 0 := setBits_eq_zero.2 hclear
  rw [setBits, hsplit, List.countP_append, hbefore, List.countP_cons, if_pos hbit, Nat.zero_add, setBits]

/-- Where a bit is set, there is a first one. -/
theorem exists_first_of_setBits_pos {vec : BitVec 16} {i : Nat} (h : 0 < setBits vec i 16) :
    ∃ k, i ≤ k ∧ k < 16 ∧ vec.getLsbD k = true ∧ ∀ j, i ≤ j → j < k → vec.getLsbD j = false := by
  have hset : ∃ k, i ≤ k ∧ k < 16 ∧ vec.getLsbD k = true := by
    by_contra hnone
    push Not at hnone
    exact h.ne' (setBits_eq_zero.2 fun k hik hk => eq_false_of_ne_true (hnone k hik hk))
  obtain ⟨hik, hk, hbit⟩ := Nat.find_spec hset
  exact ⟨Nat.find hset, hik, hk, hbit, fun j hij hj =>
    eq_false_of_ne_true fun hjbit => Nat.find_min hset hj ⟨hij, by omega, hjbit⟩⟩

/-! #### The colours of a LUT16, one after another -/

/-- Both colour bytes for entry `k`: the entry is complete and the walk goes on behind it (R156, R157). -/
theorem feed_lut16_colour {s : State} {k : Nat} (hr : running s = true) (hk : k < 16) (c : Colour)
    (rest : List Byte) :
    feed (colourBytes c ++ rest) { s with lutIndex := .val k, state := .lut16Color1 } =
      feed rest (lut16Next (k + 1)
        { s with lut := s.lut.set k ⟨.val c.b0, .val c.b1⟩, lutIndex := .val k, state := .lut16Color2 }) := by
  have hfirst : stepByte c.b0 { s with lutIndex := .val k, state := .lut16Color1 } = .next
      { s with lut := s.lut.set k ⟨.val c.b0, (s.lut[k]).b1⟩, lutIndex := .val k, state := .lut16Color2 } :=
    exec_lut16Color1 hk rfl c.b0
  have hsecond : stepByte c.b1
      { s with lut := s.lut.set k ⟨.val c.b0, (s.lut[k]).b1⟩, lutIndex := .val k, state := .lut16Color2 } = .next
      (lut16Next (k + 1)
        { s with lut := s.lut.set k ⟨.val c.b0, .val c.b1⟩, lutIndex := .val k, state := .lut16Color2 }) := by
    refine (exec_lut16Color2 hk rfl c.b1).trans ?_
    rw [Vector.getElem_set_self, Vector.set_set]
  exact (feed_cons_of_running (by exact hr) hfirst).trans (feed_cons_of_running (by exact hr) hsecond)

/-- The entries `cs` load from entry `i` on: each set bit takes the colour of its rank, and no other entry changes. -/
def Lut16Loads (vec : BitVec 16) (i : Nat) (cs : List Colour) (s t : State) : Prop :=
  (∀ j : Nybble, i ≤ j.toNat → vec.getLsbD j.toNat = true →
    (lutEntry t j).colour? = cs[setBits vec i j.toNat]?) ∧
  ∀ j : Nybble, ¬(i ≤ j.toNat ∧ vec.getLsbD j.toNat = true) → lutEntry t j = lutEntry s j

/-- The first colour goes to the first set bit `k`, the others behind it. -/
theorem Lut16Loads.cons {vec : BitVec 16} {i k : Nat} {c : Colour} {cs : List Colour} {s u t : State} (hik : i ≤ k)
    (hk : k < 16) (hbit : vec.getLsbD k = true) (hclear : ∀ j, i ≤ j → j < k → vec.getLsbD j = false)
    (hu : u.lut = s.lut.set k ⟨.val c.b0, .val c.b1⟩) (h : Lut16Loads vec (k + 1) cs u t) :
    Lut16Loads vec i (c :: cs) s t := by
  obtain ⟨hloaded, hkept⟩ := h
  have hentry (j : Nybble) : lutEntry u j = if k = j.toNat then ⟨.val c.b0, .val c.b1⟩ else lutEntry s j :=
    (lutEntry_congr (s := { s with lut := s.lut.set k ⟨.val c.b0, .val c.b1⟩ }) hu j).trans (lutEntry_set hk _ s j)
  refine ⟨fun j hij hj => ?_, fun j hj => ?_⟩
  · rcases Nat.lt_trichotomy j.toNat k with hlt | heq | hgt
    · simp [hclear _ hij hlt] at hj
    · have hrank : setBits vec i j.toNat = 0 := setBits_eq_zero.2 (heq ▸ hclear)
      rw [hkept j (by omega), hentry, if_pos heq.symm, hrank]
      rfl
    · rw [hloaded j hgt hj, setBits_of_first hik hgt hbit hclear, List.getElem?_cons_succ]
  · have hne : k ≠ j.toNat := fun heq => hj ⟨heq ▸ hik, heq ▸ hbit⟩
    rw [hkept j fun hbehind => hj ⟨by omega, hbehind.2⟩, hentry, if_neg hne]

theorem feed_lut16_colours {vec : BitVec 16} {cs : List Colour} {i : Nat} {s : State} (hr : running s = true)
    (hvec : lutVec s = vec) (hi : i ≤ 16) (hcount : cs.length = setBits vec i 16) :
    ∃ t, feed (cs.flatMap colourBytes) (lut16Next i s) = .next t ∧
      t = { s with lut := t.lut, lutIndex := .val 16, state := .opcode } ∧ Lut16Loads vec i cs s t := by
  induction cs generalizing i s with
  | nil =>
    have hclear := setBits_eq_zero.1 hcount.symm
    refine ⟨_, congrArg _ (lut16Next_of_clear hi (hvec ▸ hclear)), rfl, fun j hij hj => ?_, fun j _ => rfl⟩
    simp [hclear _ hij j.isLt] at hj
  | cons c rest ih =>
    obtain ⟨k, hik, hk, hbit, hclear⟩ := exists_first_of_setBits_pos (hcount.symm ▸ Nat.succ_pos rest.length : 0 < setBits vec i 16)
    rw [setBits_of_first hik hk hbit hclear, List.length_cons] at hcount
    obtain ⟨t, ht, hframe, hloads⟩ := ih (i := k + 1)
      (s := { s with lut := s.lut.set k ⟨.val c.b0, .val c.b1⟩, lutIndex := .val k, state := .lut16Color2 })
      hr hvec hk (by omega)
    refine ⟨t, ?_, hframe, hloads.cons hik hk hbit hclear rfl⟩
    rw [lut16Next_of_first hik hk (hvec ▸ hbit) (hvec ▸ hclear), List.flatMap_cons, feed_lut16_colour hr hk, ht]

/-! #### The whole instruction -/

/-- The state in which the bytes before the colours leave a LUT16, but for the walk (R153 to R155). -/
def lut16Opened (vec : BitVec 16) (s : State) : State :=
  { s with
    opcode := .val 0x20#8, lutVecLo := .val (vec.extractLsb' 0 8), lutVecHi := .val (vec.extractLsb' 8 8)
    state := .lut16Vec2 }

theorem feed_lut16_vector {s : State} (hs : s.state = .opcode) (hr : running s = true) (vec : BitVec 16)
    (rest : List Byte) :
    feed (0x20#8 :: vec.extractLsb' 0 8 :: vec.extractLsb' 8 8 :: rest) s =
      feed rest (lut16Next 0 (lut16Opened vec s)) := by
  have hopcode : stepByte 0x20#8 s = .next { latchOpcode 0x20#8 s with state := .lut16Vec1 } := by
    rw [stepByte, hs]
    rfl
  calc feed (0x20#8 :: vec.extractLsb' 0 8 :: vec.extractLsb' 8 8 :: rest) s
    _ = feed (vec.extractLsb' 0 8 :: vec.extractLsb' 8 8 :: rest)
          { latchOpcode 0x20#8 s with state := .lut16Vec1 } := feed_cons_of_running hr hopcode
    _ = feed (vec.extractLsb' 8 8 :: rest)
          { latchOpcode 0x20#8 s with lutVecLo := .val (vec.extractLsb' 0 8), state := .lut16Vec2 } :=
      feed_cons_of_running hr rfl
    _ = feed rest (lut16Next 0 (lut16Opened vec s)) := feed_cons_of_running hr rfl

theorem popcount_eq_setBits (vec : BitVec 16) : popcount vec = setBits vec 0 16 := by
  rw [popcount, setBits, List.range_eq_range']

/-- Settles O28: the vector's bytes begin the walk at entry 0, and the rank from entry 0 is the number of set bits
below. -/
theorem lut16InstructionLoadsTheSetEntries : Obligations.Lut16InstructionLoadsTheSetEntries := by
  unfold Obligations.Lut16InstructionLoadsTheSetEntries
  intro s vec cs hs hr hlen
  have hvec : lutVec (lut16Opened vec s) = vec := (lutVec_of_val rfl rfl).trans (highByte_append_lowByte vec)
  obtain ⟨t, ht, hframe, hloaded, hkept⟩ := feed_lut16_colours (s := lut16Opened vec s) hr hvec (Nat.zero_le 16)
    (hlen.trans (popcount_eq_setBits vec))
  refine ⟨t, (feed_lut16_vector hs hr vec _).trans ht, ?_, fun j => ?_⟩
  · rw [hframe, ← hs]
    rfl
  · split_ifs with hbit
    · rw [hloaded j (Nat.zero_le _) hbit, setBits, List.range_eq_range', Nat.sub_zero]
    · exact hkept j fun h => hbit h.2

end Sys2Proof.Machine
end

section
/-! ### The ERASE check byte (R136, R203) -/

namespace Sys2Proof.Machine

open Sys2Proof.Safety

theorem eraseCheckFlow_of_unset {s : State} (h : s.addrValid = false) (b : Byte) :
    eraseCheckFlow b s = raise .addrUnset s := by
  rw [eraseCheckFlow, withFlashAddr, if_neg (by simp [h])]

theorem eraseCheckFlow_of_wrong {s : State} {b : Byte} (h : s.addrValid = true) (hb : b ≠ eraseExpectedOf s) :
    eraseCheckFlow b s = .go { s with state := .opcode } := by
  rw [eraseCheckFlow, withFlashAddr, if_pos h, if_neg hb]

theorem eraseCheckFlow_of_commits {s : State} {b : Byte} (h : EraseCommits b s) :
    eraseCheckFlow b s =
      (flashEraseBlocks (latchAddr s) (s.eraseCount.read (Config.unsetByte .eraseCount)) s).andThen
        (fun s => .go { s with addrValid := false, state := .opcode }) := by
  obtain ⟨hvalid, hb⟩ := h
  rw [eraseCheckFlow, withFlashAddr, if_pos hvalid, if_pos hb]

theorem eraseExpectedOf_of_val {s : State} {count l1 l2 : Byte} (hcount : s.eraseCount = .val count)
    (hlat1 : s.lat1 = .val l1) (hlat2 : s.lat2 = .val l2) :
    eraseExpectedOf s = 0xFF#8 ^^^ (0#8 - count - l1 - l2) := by
  rw [eraseExpectedOf, hcount, hlat1, hlat2]
  rfl

/-- Settles O30: the address, then the checksum, and then the blocks in range, by `eraseRun_reads`. -/
theorem eraseCheckByteCommitsOnlyOnTheChecksum : Obligations.EraseCheckByteCommitsOnlyOnTheChecksum := by
  unfold Obligations.EraseCheckByteCommitsOnlyOnTheChecksum
  intro s b count l1 l2
  refine ⟨fun hvalid => ?_, fun hvalid hcount hlat1 hlat2 => ⟨fun hwrong => ?_, fun hright => ?_⟩⟩
  · rw [exec, execEraseCheck, eraseCheckFlow_of_unset hvalid]
    rfl
  · rw [← eraseExpectedOf_of_val hcount hlat1 hlat2] at hwrong
    rw [exec, execEraseCheck, eraseCheckFlow_of_wrong hvalid hwrong, Flow.outcome_go]
  · rintro size first rfl - rfl
    rw [← eraseExpectedOf_of_val hcount hlat1 hlat2] at hright
    have hrun : exec (.eraseCheck b) s =
        ((eraseRun (count.toNat + 1) ((latchAddr s).toNat / s.params.eraseBlockBytes) s).andThen
          (fun s => .go { s with addrValid := false, state := .opcode })).outcome := by
      rw [exec, execEraseCheck, eraseCheckFlow_of_commits ⟨hvalid, hright⟩, hcount]
      rfl
    generalize (latchAddr s).toNat / s.params.eraseBlockBytes = first at hrun ⊢
    refine ⟨fun hfits => ?_, fun m hm hin hout => ?_⟩
    · have hin (k : Nat) (hk : k < count.toNat + 1) :
          (first + k + 1) * s.params.eraseBlockBytes ≤ s.params.flashBytes :=
        (Nat.mul_le_mul_right _ (by omega)).trans hfits
      obtain ⟨f, hf, hreads⟩ := eraseRun_reads (count.toNat + 1) (count.toNat + 1) first s le_rfl hin
        (fun hlt => absurd hlt (lt_irrefl _))
      rw [if_pos rfl] at hf
      rw [hrun, hf]
      exact ⟨_, rfl, rfl, hreads⟩
    · obtain ⟨f, hf, hreads⟩ := eraseRun_reads (count.toNat + 1) m first s (by omega) hin (fun _ => hout)
      rw [if_neg (by omega)] at hf
      rw [hrun, hf]
      exact ⟨_, rfl, rfl, hreads⟩

end Sys2Proof.Machine
end

section
/-! ### The flash programmer: outcomes, polling, programming again (R61, R201, R202, R204) -/

namespace Sys2Proof.Machine

open Sys2Proof.Safety

theorem flashProgram_of_beyond {a : Addr} {s : State} (h : s.params.flashBytes ≤ a.toNat) (v : Byte) :
    flashProgram a v s = .stop { s with fault := some .flashRange } := by
  rw [flashProgram, if_pos h, raise]

theorem flashProgram_of_zeroToOne {a : Addr} {v : Byte} {s : State} (h : a.toNat < s.params.flashBytes)
    (hv : v &&& ~~~(Memory.read s.flash a.toNat) ≠ 0#8) : flashProgram a v s = .stop { s with hung := true } := by
  rw [flashProgram, if_neg (not_le.2 h), if_pos hv, hang]

theorem flashProgram_of_noZeroToOne {a : Addr} {v : Byte} {s : State} (h : a.toNat < s.params.flashBytes)
    (hv : v &&& ~~~(Memory.read s.flash a.toNat) = 0#8) :
    flashProgram a v s = .go { s with flash := Memory.write s.flash a.toNat v } := by
  rw [flashProgram, if_neg (not_le.2 h), if_neg (not_not.2 hv), and_eq_of_noZeroToOne hv]

/-- What a program that went through says of its address, its byte and the state it left (R201). -/
theorem flashProgram_eq_go {a : Addr} {v : Byte} {s t : State} (h : flashProgram a v s = .go t) :
    a.toNat < s.params.flashBytes ∧ v &&& ~~~(Memory.read s.flash a.toNat) = 0#8 ∧
      t = { s with flash := Memory.write s.flash a.toNat v } := by
  rcases flashProgram_cases a v s with ⟨_, hx⟩ | ⟨_, _, hx⟩ | ⟨hin, hbits, hx⟩
  · cases hx.symm.trans h
  · cases hx.symm.trans h
  · exact ⟨hin, hbits, (Flow.go.inj (hx.symm.trans h)).symm⟩

/-- Settles O31: the range check, the bits, and the byte stored. -/
theorem flashProgramOutcomes : Obligations.FlashProgramOutcomes := by
  unfold Obligations.FlashProgramOutcomes
  intro a v s
  exact ⟨fun hbeyond => flashProgram_of_beyond hbeyond v, flashProgram_of_zeroToOne,
    fun hin hbits => ⟨_, flashProgram_of_noZeroToOne hin hbits, rfl, fun _ => Memory.read_write _ _ _ _⟩⟩

/-! #### Data# polling -/

/-- The poll of a program ends where the cell then holds the polled bit asked for (R204). -/
theorem busProgramEnds_eq (bit : Fin 8) (old v : Byte) :
    busProgramEnds bit old v = ((old &&& v).getLsbD bit == v.getLsbD bit) := rfl

theorem busProgramEnds_of_noZeroToOne {old v : Byte} (h : v &&& ~~~old = 0#8) (bit : Fin 8) :
    busProgramEnds bit old v = true := by
  rw [busProgramEnds_eq, and_eq_of_noZeroToOne h, beq_self_eq_true]

/-- Settles O34: a program that asks for no 0-to-1 change leaves its byte in the cell, so any bit of it ends the poll;
so where a poll never ends there is such a change. -/
theorem busPollAgreesWithTheTransaction : Obligations.BusPollAgreesWithTheTransaction := by
  unfold Obligations.BusPollAgreesWithTheTransaction
  intro a v s bit hin
  refine ⟨fun t ht => ?_, fun hpoll => ?_, by revert bit; decide⟩
  · obtain ⟨_, hbits, _⟩ := flashProgram_eq_go ht
    exact busProgramEnds_of_noZeroToOne hbits bit
  · refine flashProgram_of_zeroToOne hin fun hbits => ?_
    rw [busProgramEnds_of_noZeroToOne hbits] at hpoll
    cases hpoll

/-! #### Programming again -/

/-- A byte asks no 0 bit of itself to become 1. -/
theorem and_not_self_eq_zero (v : Byte) : v &&& ~~~v = 0#8 := by
  simp

/-- A list of rising addresses holds just the entries a search finds. -/
theorem Memory.mem_iff_find {m : List Host.Cell} (h : sorted m = true) {c : Host.Cell} :
    c ∈ m ↔ find m c.1 = some c.2 := by
  induction m with
  | nil => simp [find]
  | cons d rest ih =>
    obtain ⟨hlt, hrest⟩ := sorted_cons.1 h
    rw [List.mem_cons, find, ih hrest]
    split_ifs with heq
    · have hnot : find rest c.1 ≠ some c.2 := fun hfind =>
        absurd (hlt c ((ih hrest).2 hfind)) (by omega)
      exact ⟨fun hor => congrArg (fun e : Host.Cell => some e.2) (hor.resolve_right hnot).symm,
        fun hval => .inl (Prod.ext heq.symm (Option.some.inj hval).symm)⟩
    · exact or_iff_right fun hcd => heq (congrArg Prod.fst hcd.symm)

/-- A canonical list holds an entry just where a byte reads as other than erased. -/
theorem Memory.find_eq_of_wf {m : List Host.Cell} (h : wf m = true) (a : Nat) :
    find m a = if read m a = unlistedFlash then none else some (read m a) := by
  obtain ⟨hsorted, hlisted⟩ := wf_iff.1 h
  cases hfind : find m a with
  | none => rw [read, hfind, Option.getD_none, if_pos rfl]
  | some b =>
    have hb : b ≠ unlistedFlash := hlisted (a, b) ((mem_iff_find hsorted).2 hfind)
    rw [read, hfind, Option.getD_some, if_neg hb]

theorem Memory.pairwise_of_sorted {m : List Host.Cell} (h : sorted m = true) : m.Pairwise (fun c d => c.1 < d.1) := by
  induction m with
  | nil => exact .nil
  | cons c rest ih =>
    obtain ⟨hlt, hrest⟩ := sorted_cons.1 h
    exact .cons hlt (ih hrest)

/-- Canonical lists that read alike are equal. -/
theorem Memory.eq_of_read_eq {m m' : List Host.Cell} (h : wf m = true) (h' : wf m' = true)
    (hread : ∀ a, read m a = read m' a) : m = m' := by
  have hm := (wf_iff.1 h).1
  have hm' := (wf_iff.1 h').1
  have : Std.Irrefl (fun c d : Host.Cell => c.1 < d.1) := ⟨fun _ => lt_irrefl _⟩
  have : Std.Antisymm (fun c d : Host.Cell => c.1 < d.1) := ⟨fun _ _ hlt hgt => absurd hlt hgt.asymm⟩
  refine (pairwise_of_sorted hm).eq_of_mem_iff (pairwise_of_sorted hm') fun c => ?_
  rw [mem_iff_find hm, mem_iff_find hm', find_eq_of_wf h, find_eq_of_wf h', hread]

/-- Writing what a canonical list holds already changes nothing. -/
theorem Memory.write_read_self {m : List Host.Cell} (h : wf m = true) (a : Nat) : write m a (read m a) = m :=
  eq_of_read_eq (wf_write h a _) h fun a' => by
    rw [read_write]
    split_ifs with ha
    · rw [ha]
    · rfl

theorem Memory.read_writeList_self (m : List Host.Cell) (a : Nat) (bs : List Byte) {k : Nat} (hk : k < bs.length) :
    read (writeList m a bs) (a + k) = bs[k] := by
  rw [read_writeList, dif_pos ⟨by omega, by omega⟩]
  congr 1
  omega

/-- Writing the bytes a canonical list holds already changes nothing. -/
theorem Memory.writeList_of_held {m : List Host.Cell} (h : wf m = true) {a : Nat} {bs : List Byte}
    (hheld : ∀ k, (hk : k < bs.length) → read m (a + k) = bs[k]) : writeList m a bs = m := by
  refine eq_of_read_eq (wf_writeList h a bs) h fun a' => ?_
  rw [read_writeList]
  split_ifs with ha
  · rw [← hheld (a' - a) ha.2, Nat.add_sub_cancel' ha.1]
  · rfl

/-- Settles O32: the cell holds the byte already, which asks nothing of itself; and so of every byte of a list. -/
theorem reprogrammingTheSameBytesIsSafe : Obligations.ReprogrammingTheSameBytesIsSafe := by
  unfold Obligations.ReprogrammingTheSameBytesIsSafe
  refine ⟨fun a v s t h => ?_, fun m a bs hm => ⟨fun k hk => ?_, ?_⟩⟩
  · obtain ⟨hin, _, rfl⟩ := flashProgram_eq_go h
    have hheld : v &&& ~~~(Memory.read (Memory.write s.flash a.toNat v) a.toNat) = 0#8 := by
      rw [Memory.read_write, if_pos rfl, and_not_self_eq_zero]
    have hagain := flashProgram_of_noZeroToOne (s := { s with flash := Memory.write s.flash a.toNat v }) hin hheld
    rwa [Memory.write_write] at hagain
  · rw [Memory.read_writeList_self m a bs hk, and_not_self_eq_zero]
  · exact Memory.writeList_of_held (Memory.wf_writeList hm a bs) fun k hk => Memory.read_writeList_self m a bs hk

end Sys2Proof.Machine
end

section
/-! ### Emitting a list of bytes (R170, R201, R223, R227)

Every emission programs a list of bytes from the present address on: it goes through, or it stops at the first byte that
cannot be programmed. -/

namespace Sys2Proof.Machine

open Sys2Proof.Safety

/-- Bytes emitted one after another (R170). -/
def emitBytes (bs : List Byte) (s : State) : Flow :=
  match bs with
  | [] => .go s
  | b :: rest => (emitByte b s).andThen (emitBytes rest)

@[simp] theorem Flow.andThen_go_right (f : Flow) : f.andThen .go = f := by cases f <;> rfl

/-- Two flows go through one after the other. -/
theorem Flow.andThen_eq_go {f : Flow} {k : State → Flow} {t : State} (h : f.andThen k = .go t) :
    ∃ u, f = .go u ∧ k u = .go t := by
  cases f with
  | go u => exact ⟨u, rfl, h⟩
  | stop u => cases h

theorem emitBytes_append (bs cs : List Byte) (s : State) :
    emitBytes (bs ++ cs) s = (emitBytes bs s).andThen (emitBytes cs) := by
  induction bs generalizing s with
  | nil => rfl
  | cons b rest ih =>
    simp only [List.cons_append, emitBytes, Flow.andThen_assoc]
    congr 1
    exact funext ih

theorem emitColor_eq_emitBytes (c : Colour) (s : State) : emitColor c s = emitBytes (colourBytes c) s := by
  have hlast : emitBytes [c.b1] = emitByte c.b1 := funext fun u => Flow.andThen_go_right _
  rw [colourBytes, emitBytes, hlast, emitColor]

/-- A solid run of pixels (R172). -/
theorem repeatFlow_emitColor (n : Nat) (c : Colour) (s : State) :
    repeatFlow n (emitColor c) s = emitBytes (pixelBytes (List.replicate n c)) s := by
  induction n generalizing s with
  | zero => rfl
  | succ n ih =>
    rw [List.replicate_succ, pixelBytes_cons, emitBytes_append, ← emitColor_eq_emitBytes, repeatFlow]
    congr 1
    exact funext ih

theorem emitBytes_ok {bs : List Byte} {s : State} (h : bs = [] ∨ canEmit s bs) :
    emitBytes bs s = .go (emitted bs s) := by
  induction bs generalizing s with
  | nil => rw [emitted_nil, emitBytes]
  | cons b rest ih =>
    have hall : canEmit s ([b] ++ rest) := h.resolve_left (List.cons_ne_nil _ _)
    have hrest : rest = [] ∨ canEmit (emitted [b] s) rest := by
      rcases eq_or_ne rest [] with hnil | hne
      · exact .inl hnil
      · exact .inr (canEmit_right hall hne)
    rw [emitBytes, emitByte_ok (canEmit_left hall), Flow.andThen_go, ih hrest, emitted_append hall]
    rfl

/-! #### Where a list stops -/

/-- The three ways a list stops (R227). -/
theorem stopsAt_cases {s : State} {bs : List Byte} {k : Nat} {r : StopRecord} (h : stopsAt s bs k r) :
    (r = .fault .addrUnset ∧ k = 0 ∧ s.addrValid = false) ∨
    (r = .fault .flashRange ∧ s.addrValid = true ∧ (k = 0 ∨ canEmit s (bs.take k)) ∧
      s.params.flashBytes ≤ (latchAddr s).toNat + k ∧ (latchAddr s).toNat + k < 2 ^ 24) ∨
    (r = .hang ∧ s.addrValid = true ∧ (k = 0 ∨ canEmit s (bs.take k)) ∧
      (latchAddr s).toNat + k < s.params.flashBytes ∧
      bs.getD k 0 &&& ~~~(Memory.read s.flash ((latchAddr s).toNat + k)) ≠ 0#8) := by
  cases r with
  | hang => exact .inr (.inr ⟨rfl, h⟩)
  | fault code =>
    cases code with
    | addrUnset => exact .inl ⟨rfl, h⟩
    | flashRange => exact .inr (.inl ⟨rfl, h⟩)
    | _ => exact h.elim

/-- The bytes before the one that stops could be programmed. -/
theorem canEmit_take_of_stopsAt {s : State} {bs : List Byte} {k : Nat} {r : StopRecord} (h : stopsAt s bs k r) :
    k = 0 ∨ canEmit s (bs.take k) := by
  rcases stopsAt_cases h with ⟨_, hk, _⟩ | ⟨_, _, htake, _⟩ | ⟨_, _, htake, _⟩
  · exact .inl hk
  · exact htake
  · exact htake

/-- Whether a byte stops emission is not for the bytes after it to say. -/
theorem stopsAt_left {s : State} {bs cs : List Byte} {k : Nat} {r : StopRecord} (hk : k < bs.length)
    (h : stopsAt s (bs ++ cs) k r) : stopsAt s bs k r := by
  have htake : (bs ++ cs).take k = bs.take k := List.take_append_of_le_length hk.le
  have hbyte : (bs ++ cs).getD k 0 = bs.getD k 0 := List.getD_append _ _ _ _ hk
  rcases stopsAt_cases h with ⟨rfl, hunset⟩ | ⟨rfl, hrange⟩ | ⟨rfl, hbits⟩
  · exact hunset
  · rwa [htake] at hrange
  · rwa [htake, hbyte] at hbits

/-- Behind bytes that have been emitted, the rest stops where the whole does. -/
theorem stopsAt_right {s : State} {bs cs : List Byte} {j : Nat} {r : StopRecord} (hj : j < cs.length)
    (h : stopsAt s (bs ++ cs) (bs.length + j) r) :
    (bs = [] ∨ canEmit s bs) ∧ stopsAt (emitted bs s) cs j r := by
  rcases eq_or_ne bs [] with rfl | hne
  · rw [emitted_nil]
    rw [List.length_nil, Nat.zero_add] at h
    exact ⟨.inl rfl, h⟩
  · have hpos : bs.length + j ≠ 0 := fun hz => hne (List.length_eq_zero_iff.1 (by omega))
    have hall : canEmit s (bs ++ cs.take j) := by
      rw [← List.take_length_add_append]
      exact (canEmit_take_of_stopsAt h).resolve_left hpos
    have hrest : j = 0 ∨ canEmit (emitted bs s) (cs.take j) := by
      rcases Nat.eq_zero_or_pos j with hzero | hpos'
      · exact .inl hzero
      · exact .inr (canEmit_right hall (List.ne_nil_of_length_pos (by rw [List.length_take]; omega)))
    refine ⟨.inr (canEmit_left hall), ?_⟩
    have hbyte : (bs ++ cs).getD (bs.length + j) 0 = cs.getD j 0 := by
      rw [List.getD_append_right _ _ _ _ (Nat.le_add_right _ _), Nat.add_sub_cancel_left]
    have haddr (hlt : (latchAddr s).toNat + bs.length < 2 ^ 24) :
        (latchAddr (emitted bs s)).toNat = (latchAddr s).toNat + bs.length := by
      rw [emitted_latchAddr, BitVec.toNat_add, BitVec.toNat_ofNat]
      omega
    rcases stopsAt_cases h with ⟨rfl, hk, _⟩ | ⟨rfl, hvalid, _, hbeyond, hlt⟩ | ⟨rfl, hvalid, _, hin, hbits⟩
    · exact absurd hk hpos
    · have haddr := haddr (by omega)
      exact ⟨by simpa using hvalid, hrest, by rw [emitted_params]; omega, by omega⟩
    · obtain ⟨_, _, hmax, _⟩ := hall
      rw [Config.maxFlashBytes] at hmax
      have haddr := haddr (by omega)
      have hread : Memory.read (emitted bs s).flash ((latchAddr s).toNat + bs.length + j) =
          Memory.read s.flash ((latchAddr s).toNat + bs.length + j) := by
        rw [emitted_flash, Memory.read_writeList, dif_neg (by omega)]
      refine ⟨by simpa using hvalid, hrest, by rw [emitted_params]; omega, ?_⟩
      rw [haddr, hread, Nat.add_assoc, ← hbyte]
      exact hbits

theorem emitByte_of_addrValid {s : State} (h : s.addrValid = true) (v : Byte) :
    emitByte v s = (flashProgram (latchAddr s) v s).andThen advanceAddr := by
  rw [emitByte, withFlashAddr, if_pos h]

/-- A byte that cannot be programmed leaves its record and nothing else (R223, R227). -/
theorem emitByte_stop {b : Byte} {rest : List Byte} {s : State} {r : StopRecord} (h : stopsAt s (b :: rest) 0 r) :
    emitByte b s = .stop (r.mark s) := by
  rcases stopsAt_cases h with ⟨rfl, _, hunset⟩ | ⟨rfl, hvalid, _, hbeyond, _⟩ | ⟨rfl, hvalid, _, hin, hbits⟩
  · rw [emitByte, withFlashAddr, if_neg (by simp [hunset])]
    rfl
  · rw [emitByte_of_addrValid hvalid, flashProgram_of_beyond hbeyond]
    rfl
  · rw [emitByte_of_addrValid hvalid, flashProgram_of_zeroToOne (v := b) hin hbits]
    rfl

/-- A list that stops leaves the record over the bytes before (R59, R223). -/
theorem emitBytes_stop {bs : List Byte} {s : State} {k : Nat} {r : StopRecord} (hk : k < bs.length)
    (h : stopsAt s bs k r) : emitBytes bs s = .stop (r.mark (emitted (bs.take k) s)) := by
  induction bs generalizing s k with
  | nil => exact absurd hk (Nat.not_lt_zero k)
  | cons b rest ih =>
    rcases k with _ | k
    · rw [List.take_zero, emitted_nil, emitBytes, emitByte_stop h]
      rfl
    · have hk : k < rest.length := Nat.lt_of_succ_lt_succ hk
      have hsplit : stopsAt s ([b] ++ rest) ([b].length + k) r := by
        rwa [List.length_singleton, Nat.add_comm]
      obtain ⟨hfirst, hrest⟩ := stopsAt_right hk hsplit
      have hall : canEmit s ([b] ++ rest.take k) := (canEmit_take_of_stopsAt h).resolve_left (Nat.succ_ne_zero k)
      rw [emitBytes, emitByte_ok (canEmit_left hall), Flow.andThen_go, ih hk hrest, emitted_append hall]
      rfl

end Sys2Proof.Machine
end

section
/-! ### TILE_P0 (R171, R172) -/

namespace Sys2Proof.Machine

open Sys2Proof.Safety

theorem tileP0Flow_of_beyond {x : BitVec 5} (h : 16 ≤ x.toNat) (s : State) :
    tileP0Flow x s = raise .lutIndexRange s := by
  rw [tileP0Flow, if_pos h]

theorem tileP0Flow_of_unset {x : BitVec 5} {s : State} (hx : x.toNat < 16)
    (hc : (lutEntry s (x.extractLsb' 0 4)).colour? = none) : tileP0Flow x s = raise .lutUnset s := by
  rw [tileP0Flow, if_neg (not_le.2 hx), withLutRead, hc]

/-- With its entry loaded a solid tile is 128 bytes emitted. -/
theorem tileP0Flow_of_colour {x : BitVec 5} {s : State} {c : Colour} (hx : x.toNat < 16)
    (hc : (lutEntry s (x.extractLsb' 0 4)).colour? = some c) :
    tileP0Flow x s =
      (emitBytes (pixelBytes (List.replicate 64 c)) s).andThen (fun s => .go { s with state := .opcode }) := by
  rw [tileP0Flow, if_neg (not_le.2 hx), withLutRead, hc]
  exact congrArg (Flow.andThen · _) (repeatFlow_emitColor 64 c s)

/-- Emission does not read the opcode register. -/
theorem emitted_latchOpcode (bs : List Byte) (b : Byte) (s : State) :
    emitted bs (latchOpcode b s) = latchOpcode b (emitted bs s) := by
  unfold emitted
  split_ifs <;> rfl

theorem exec_tileP0_of_stopsAt {s : State} {x : BitVec 5} {c : Colour} {k : Nat} {r : StopRecord} (hx : x.toNat < 16)
    (hc : (lutEntry s (x.extractLsb' 0 4)).colour? = some c) (hk : k < 128)
    (h : stopsAt s (pixelBytes (List.replicate 64 c)) k r) :
    exec (.tileP0 x) s = .next
      (r.mark (latchOpcode (0b010#3 ++ x) (emitted ((pixelBytes (List.replicate 64 c)).take k) s))) := by
  have hlen : k < (pixelBytes (List.replicate 64 c)).length := by
    rwa [pixelBytes_length, List.length_replicate]
  have hstop : stopsAt (latchOpcode (0b010#3 ++ x) s) (pixelBytes (List.replicate 64 c)) k r := h
  rw [exec, execTileP0, tileP0Flow_of_colour (s := latchOpcode (0b010#3 ++ x) s) hx hc, emitBytes_stop hlen hstop,
    emitted_latchOpcode]
  rfl

/-- Settles O36: the record of the byte that stops, over the bytes before. -/
theorem tileP0StopsAtTheFirstBadByte : Obligations.TileP0StopsAtTheFirstBadByte := by
  unfold Obligations.TileP0StopsAtTheFirstBadByte
  intro s x c k r hx hc hk h
  exact exec_tileP0_of_stopsAt hx hc hk h

/-- In a solid run of pixels the even bytes are b0 and the odd ones b1 (R171). -/
theorem pixelBytes_replicate_getElem? {n k : Nat} (hk : k < n) (c : Colour) :
    (pixelBytes (List.replicate n c))[2 * k]? = some c.b0 ∧ (pixelBytes (List.replicate n c))[2 * k + 1]? = some c.b1 := by
  induction n generalizing k with
  | zero => exact absurd hk (Nat.not_lt_zero k)
  | succ n ih =>
    rw [List.replicate_succ, pixelBytes_cons, colourBytes]
    cases k with
    | zero => exact ⟨rfl, rfl⟩
    | succ k => exact ih (Nat.lt_of_succ_lt_succ hk)

theorem read_writeList_of_getElem? {m : List Host.Cell} {a k : Nat} {bs : List Byte} {b : Byte} (h : bs[k]? = some b) :
    Memory.read (Memory.writeList m a bs) (a + k) = b := by
  obtain ⟨hk, hb⟩ := List.getElem?_eq_some_iff.1 h
  rw [Memory.read_writeList_self m a bs hk, hb]

theorem exec_tileP0_of_canEmit {s : State} {x : BitVec 5} {c : Colour} (hx : x.toNat < 16)
    (hc : (lutEntry s (x.extractLsb' 0 4)).colour? = some c) (h : canEmit s (pixelBytes (List.replicate 64 c))) :
    exec (.tileP0 x) s = .next
      { latchOpcode (0b010#3 ++ x) (emitted (pixelBytes (List.replicate 64 c)) s) with state := .opcode } := by
  have hok : canEmit (latchOpcode (0b010#3 ++ x) s) (pixelBytes (List.replicate 64 c)) := h
  rw [exec, execTileP0, tileP0Flow_of_colour (s := latchOpcode (0b010#3 ++ x) s) hx hc, emitBytes_ok (.inr hok),
    emitted_latchOpcode]
  rfl

/-- Settles O35: the three checks in their order, and then the 128 bytes of the tile. -/
theorem tileP0ProgramsOneSolidTile : Obligations.TileP0ProgramsOneSolidTile := by
  unfold Obligations.TileP0ProgramsOneSolidTile
  intro s x
  refine ⟨fun hx => ?_, fun hx hc => ?_, fun c hx hc hunset => ?_, fun c hx hc h => ?_⟩
  · rw [exec, execTileP0, tileP0Flow_of_beyond hx]
    rfl
  · rw [exec, execTileP0, tileP0Flow_of_unset (s := latchOpcode (0b010#3 ++ x) s) hx hc]
    rfl
  · rw [exec_tileP0_of_stopsAt (k := 0) (r := .fault .addrUnset) hx hc (by decide) ⟨rfl, hunset⟩, List.take_zero,
      emitted_nil]
    rfl
  · have hlen : (pixelBytes (List.replicate 64 c)).length = 128 := by
      rw [pixelBytes_length, List.length_replicate]
    refine ⟨_, exec_tileP0_of_canEmit hx hc h, ?_, ?_, fun k hk => ?_, fun a ha => ?_⟩
    · rw [emitted_frame]
      rfl
    · exact (emitted_latchAddr _ s).trans (by rw [hlen])
    · obtain ⟨heven, hodd⟩ := pixelBytes_replicate_getElem? hk c
      change Memory.read (emitted _ s).flash _ = _ ∧ Memory.read (emitted _ s).flash _ = _
      rw [emitted_flash, Nat.add_assoc]
      exact ⟨read_writeList_of_getElem? heven, read_writeList_of_getElem? hodd⟩
    · change Memory.read (emitted _ s).flash a = _
      rw [emitted_flash, Memory.read_writeList, dif_neg (by omega)]

end Sys2Proof.Machine
end

section
/-! ### The pixels of an R4 opcode, index by index (R158, R173, R176, R177)

A nybble emits the pixels of `nybbleIndices`, one by one, whether they go through or one of them stops. -/

namespace Sys2Proof.Machine

open Sys2Proof.Safety

/-- One pixel by its LUT index (R158, R174). -/
def emitPixel (i : Nybble) (s : State) : Flow := withLutRead i s (fun c => emitTilePixel c s)

/-- Pixels by their LUT indices, one after another. -/
def emitIndices (is : List Nybble) (s : State) : Flow :=
  match is with
  | [] => .go s
  | i :: rest => (emitPixel i s).andThen (emitIndices rest)

theorem Flow.andThen_congr {f : Flow} {k l : State → Flow} (h : ∀ u, f = .go u → k u = l u) :
    f.andThen k = f.andThen l := by
  cases f with
  | go u => exact h u rfl
  | stop u => rfl

theorem emitIndices_append (is js : List Nybble) (s : State) :
    emitIndices (is ++ js) s = (emitIndices is s).andThen (emitIndices js) := by
  induction is generalizing s with
  | nil => rfl
  | cons i rest ih =>
    simp only [List.cons_append, emitIndices, Flow.andThen_assoc]
    exact Flow.andThen_congr fun u _ => ih u

theorem emitPixel_of_colour {i : Nybble} {s : State} {c : Colour} (h : (lutEntry s i).colour? = some c) :
    emitPixel i s = emitTilePixel c s := by
  rw [emitPixel, withLutRead, h]

theorem emitPixel_of_unset {i : Nybble} {s : State} (h : (lutEntry s i).colour? = none) :
    emitPixel i s = raise .lutUnset s := by
  rw [emitPixel, withLutRead, h]

theorem emitPixel_onlyEmits (i : Nybble) (s : State) : OnlyEmits s (emitPixel i s).state :=
  withLutRead_onlyEmits i s _ fun c => emitTilePixel_onlyEmits c s

theorem emitIndices_onlyEmits (is : List Nybble) (s : State) : OnlyEmits s (emitIndices is s).state := by
  induction is generalizing s with
  | nil => rfl
  | cons i rest ih => exact Flow.andThen_onlyEmits (emitPixel_onlyEmits i s) ih

/-! #### Counting pixels -/

/-- From `s` to `t` at most `m` pixels have been counted off. -/
def CountsOff (m : Nat) (s t : State) : Prop := t.pix ≤ s.pix ∧ s.pix ≤ t.pix + m

theorem Flow.andThen_countsOff {m l : Nat} {s : State} {f : Flow} {k : State → Flow} (hf : CountsOff m s f.state)
    (hk : ∀ u, f = .go u → CountsOff l u (k u).state) : CountsOff (m + l) s (f.andThen k).state := by
  cases f with
  | go u =>
    obtain ⟨hle, hge⟩ := hf
    obtain ⟨hle', hge'⟩ := hk u rfl
    rw [Flow.state_go] at hle hge
    rw [Flow.andThen_go]
    exact ⟨hle'.trans hle, by omega⟩
  | stop u =>
    obtain ⟨hle, hge⟩ := hf
    exact ⟨hle, by rw [Flow.andThen_stop]; omega⟩

/-- A pixel that goes through is counted off. -/
theorem emitTilePixel_eq_go {c : Colour} {s t : State} (h : emitTilePixel c s = .go t) : t.pix = s.pix - 1 := by
  obtain ⟨u, hu, ht⟩ := Flow.andThen_eq_go h
  have hkept := (emitColor_onlyPrograms c s).pix_eq
  rw [hu] at hkept
  cases ht
  exact congrArg (· - 1) hkept

theorem emitTilePixel_countsOff (c : Colour) (s : State) : CountsOff 1 s (emitTilePixel c s).state := by
  have hkept := (emitColor_onlyPrograms c s).pix_eq
  refine Flow.andThen_countsOff (m := 0) (l := 1) ⟨hkept.le, hkept.ge⟩ fun u _ => ⟨?_, ?_⟩
  · exact Nat.sub_le _ _
  · exact Nat.le_add_of_sub_le le_rfl

theorem emitPixel_countsOff (i : Nybble) (s : State) : CountsOff 1 s (emitPixel i s).state :=
  withLutRead_frame ⟨le_rfl, Nat.le_add_right _ _⟩ fun c => emitTilePixel_countsOff c s

theorem emitIndices_countsOff (is : List Nybble) (s : State) : CountsOff is.length s (emitIndices is s).state := by
  induction is generalizing s with
  | nil => exact ⟨le_rfl, le_rfl⟩
  | cons i rest ih =>
    rw [List.length_cons, Nat.add_comm]
    exact Flow.andThen_countsOff (emitPixel_countsOff i s) fun u _ => ih u

theorem emitPixel_eq_go {i : Nybble} {s t : State} (h : emitPixel i s = .go t) :
    ∃ c, (lutEntry s i).colour? = some c ∧ emitTilePixel c s = .go t := by
  cases hc : (lutEntry s i).colour? with
  | none => cases (emitPixel_of_unset hc).symm.trans h
  | some c => exact ⟨c, rfl, (emitPixel_of_colour hc).symm.trans h⟩

theorem emitIndices_eq_go {is : List Nybble} {s t : State} (h : emitIndices is s = .go t) :
    t.pix = s.pix - is.length := by
  induction is generalizing s with
  | nil => cases h; rfl
  | cons i rest ih =>
    obtain ⟨u, hu, ht⟩ := Flow.andThen_eq_go h
    obtain ⟨c, _, hc⟩ := emitPixel_eq_go hu
    rw [ih ht, emitTilePixel_eq_go hc, List.length_cons, Nat.sub_sub, Nat.add_comm]

/-! #### Groups, nybbles and bytes as lists of indices -/

/-- Pixels k .. k+m-1 of a group, cut off where `pix` reaches 0 (R173). -/
theorem emitGroupFrom_eq_emitIndices (n : Bpp) (g : Nybble) (m k : Nat) (s : State) :
    emitGroupFrom n g m k s = emitIndices (((List.range' k m).map (groupPixel n g)).take s.pix) s := by
  induction m generalizing k s with
  | zero => rw [emitGroupFrom, List.range'_zero, List.map_nil, List.take_nil, emitIndices]
  | succ m ih =>
    rw [emitGroupFrom, List.range'_succ, List.map_cons]
    split_ifs with hpix
    · rw [hpix, List.take_zero, emitIndices]
    · obtain ⟨p, hp⟩ := Nat.exists_eq_succ_of_ne_zero hpix
      rw [hp, List.take_succ_cons, emitIndices]
      refine Flow.andThen_congr fun u hu => ?_
      obtain ⟨c, _, hc⟩ := emitPixel_eq_go hu
      rw [ih, emitTilePixel_eq_go hc, hp, Nat.succ_sub_one]

theorem emitGroups_eq_emitIndices (n : Bpp) (gs : List Nybble) (s : State) :
    emitGroups n gs s = emitIndices ((gs.flatMap (groupIndices n)).take s.pix) s := by
  induction gs generalizing s with
  | nil => rw [emitGroups, List.flatMap_nil, List.take_nil, emitIndices]
  | cons g rest ih =>
    have hgroup : emitGroup n g s = emitIndices ((groupIndices n g).take s.pix) s := by
      rw [emitGroup, emitGroupFrom_eq_emitIndices, groupIndices, List.range_eq_range']
    rw [List.flatMap_cons, List.take_append, emitIndices_append, emitGroups, hgroup]
    refine Flow.andThen_congr fun u hu => ?_
    have hpix : u.pix = s.pix - (groupIndices n g).length := by
      rw [emitIndices_eq_go hu, List.length_take]
      omega
    rw [ih, hpix]

/-- The run state that a progress names (R176). -/
def runLeft (q : R4Progress) (s : State) : State := { s with rleRun := q.run, rlePrev := q.prev }

/-- A nybble emits its indices and then changes the run state (R176). -/
theorem r4Nybble_eq_emitIndices (n : Bpp) (v : Nybble) (s : State) :
    r4Nybble n v s = (emitIndices (nybbleIndices s.params.rle4 n (r4Progress s) v) s).andThen
      (fun t => .go (runLeft (r4Advance s.params.rle4 n (r4Progress s) v) t)) := by
  rcases Nat.eq_zero_or_pos s.pix with hp | hp
  · have hpix : (r4Progress s).pix = 0 := hp
    rw [r4Nybble, if_pos hp, nybbleIndices, if_pos hpix, r4Advance_of_pix_zero hpix]
    rfl
  · have hpix : (r4Progress s).pix ≠ 0 := hp.ne'
    rw [r4Nybble, if_neg hp.ne', nybbleIndices, if_neg hpix, r4Advance, if_neg hpix]
    simp only [emitGroups_eq_emitIndices]
    rfl

/-- A nybble that goes through leaves the progress the run decoder gives. -/
theorem r4Nybble_eq_go {n : Bpp} {v : Nybble} {s t : State} (h : r4Nybble n v s = .go t) :
    r4Progress t = r4Advance s.params.rle4 n (r4Progress s) v ∧ t.params = s.params := by
  have hparams : t.params = s.params := by
    have hport := r4Nybble_portSide n v s
    rw [h] at hport
    exact congrArg PortSide.params hport
  rw [r4Nybble_eq_emitIndices] at h
  obtain ⟨u, hu, ht⟩ := Flow.andThen_eq_go h
  cases ht
  have hadvance := r4Advance_pix s.params.rle4 n (r4Progress s) v
  rw [show (r4Progress s).pix = s.pix from rfl, ← emitIndices_eq_go hu] at hadvance
  exact ⟨congrArg (R4Progress.mk · _ _) hadvance.symm, hparams⟩

end Sys2Proof.Machine
end

section
/-! ### The run rule, and how many pixels a byte can emit (R176, R263) -/

namespace Sys2Proof.Machine

open Sys2Proof.Safety

theorem emitGroups_singleton (n : Bpp) (g : Nybble) (s : State) : emitGroups n [g] s = emitGroup n g s := by
  have hnil : emitGroups n [] = .go := rfl
  rw [emitGroups, hnil, Flow.andThen_go_right]

theorem emitGroups_replicate (n : Bpp) (g : Nybble) (m : Nat) (s : State) :
    emitGroups n (List.replicate m g) s = repeatFlow m (emitGroup n g) s := by
  induction m generalizing s with
  | zero => rfl
  | succ m ih =>
    rw [List.replicate_succ, emitGroups, repeatFlow]
    exact Flow.andThen_congr fun u _ => ih u

theorem emitGroup_eq_go {n : Bpp} {g : Nybble} {s t : State} (h : emitGroup n g s = .go t) :
    t.rleRun = s.rleRun ∧ t.rlePrev = s.rlePrev := by
  have hframe := emitGroupFrom_onlyEmits n g (pixelsPerGroup n) 0 s
  rw [← emitGroup, h, Flow.state_go] at hframe
  rw [hframe]
  exact ⟨rfl, rfl⟩

theorem r4Nybble_of_default {n : Bpp} {v : Nybble} {s : State} (hrows : s.params.rle4 = []) (hpix : 0 < s.pix) :
    r4Nybble n v s = (emitGroups n (r4Default s.rleRun s.rlePrev v).emit s).andThen (fun u => .go
      { u with
        rleRun := (r4Default s.rleRun s.rlePrev v).run, rlePrev := (r4Default s.rleRun s.rlePrev v).prev }) := by
  rw [r4Nybble, if_neg hpix.ne', hrows]
  rfl

/-- Settles O38: the default's three cases, which leave what they do not name as emission does. -/
theorem r4NybbleFollowsTheRunRule : Obligations.R4NybbleFollowsTheRunRule := by
  unfold Obligations.R4NybbleFollowsTheRunRule
  intro n v s hrows
  refine ⟨fun hpix => ?_, fun g hpix hrun hprev => ?_, fun hpix hrun hprev => ?_, fun hpix hrun hprev => ?_⟩
  · rw [r4Nybble, if_pos hpix]
  · have hdefault : r4Default s.rleRun s.rlePrev v = ⟨List.replicate v.toNat g, false, none⟩ := by
      rw [r4Default, if_pos hrun, hprev, Option.getD_some]
    rw [r4Nybble_of_default hrows hpix, hdefault, emitGroups_replicate]
  · have hdefault : r4Default s.rleRun s.rlePrev v = ⟨[v], true, s.rlePrev⟩ := by
      rw [r4Default, if_neg (by simp [hrun]), if_pos hprev.symm]
    rw [r4Nybble_of_default hrows hpix, hdefault, emitGroups_singleton]
    refine Flow.andThen_congr fun u hu => ?_
    rw [← (emitGroup_eq_go hu).2]
  · have hdefault : r4Default s.rleRun s.rlePrev v = ⟨[v], false, some v⟩ := by
      rw [r4Default, if_neg (by simp [hrun]), if_neg (Ne.symm hprev)]
    rw [r4Nybble_of_default hrows hpix, hdefault, emitGroups_singleton]
    refine Flow.andThen_congr fun u hu => ?_
    rw [← hrun, ← (emitGroup_eq_go hu).1]

/-! #### At most 64 pixels a byte -/

/-- A run count repeats its group up to 15 times, and a nybble that is no run count emits one group; of two nybbles in a
row only one can be a run count. -/
theorem r4Default_two_emit_le (run : Bool) (prev : Option Nybble) (v w : Nybble) :
    (r4Default run prev v).emit.length +
      (r4Default (r4Default run prev v).run (r4Default run prev v).prev w).emit.length ≤ 16 := by
  have hv := v.isLt
  have hw := w.isLt
  cases run with
  | true => simp [r4Default]; omega
  | false =>
    by_cases hprev : some v = prev
    · simp [r4Default, hprev]; omega
    · simp [r4Default, hprev]; split_ifs <;> simp

/-- A group has four pixels at most. -/
theorem nybbleIndices_length_le_groups (rows : List Config.R4Row) (n : Bpp) (p : R4Progress) (v : Nybble) :
    (nybbleIndices rows n p v).length ≤ 4 * (r4Decide rows n p.run p.prev v).emit.length := by
  unfold nybbleIndices
  split_ifs
  · exact Nat.zero_le _
  · refine (List.length_take_le' _ _).trans ?_
    have hgroup : pixelsPerGroup n ≤ 4 := by cases n <;> decide
    simp only [List.length_flatMap, groupIndices, List.length_map, List.length_range, List.map_const',
      List.sum_replicate, smul_eq_mul]
    rw [Nat.mul_comm]
    exact Nat.mul_le_mul_right _ hgroup

theorem byteIndices_length_le_sixtyFour (n : Bpp) (p : R4Progress) (b : Byte) : (byteIndices [] n p b).length ≤ 64 := by
  have hlow := nybbleIndices_length_le_groups [] n p (lowNybble b)
  have hhigh := nybbleIndices_length_le_groups [] n (r4Advance [] n p (lowNybble b)) (highNybble b)
  rw [byteIndices, List.length_append]
  rcases Nat.eq_zero_or_pos p.pix with hp | hp
  · rw [r4Advance_of_pix_zero hp]
    simp [nybbleIndices, hp]
  · rw [r4Advance, if_neg hp.ne'] at hhigh ⊢
    have htwo := r4Default_two_emit_le p.run p.prev (lowNybble b) (highNybble b)
    simp only [r4Decide_nil] at hlow hhigh ⊢
    omega

theorem r4Nybble_countsOff (n : Bpp) (v : Nybble) (s : State) :
    CountsOff (nybbleIndices s.params.rle4 n (r4Progress s) v).length s (r4Nybble n v s).state := by
  rw [r4Nybble_eq_emitIndices]
  exact Flow.andThen_countsOff (l := 0) (emitIndices_countsOff _ s) fun u _ => ⟨le_rfl, le_rfl⟩

/-- A data byte counts off no more pixels than its two nybbles name. -/
theorem r4Byte_countsOff (n : Bpp) (b : Byte) (s : State) :
    CountsOff (byteIndices s.params.rle4 n (r4Progress s) b).length s (r4Byte n b s).state := by
  have hboth : CountsOff (byteIndices s.params.rle4 n (r4Progress s) b).length s
      ((r4Nybble n (lowNybble b) s).andThen (r4Nybble n (highNybble b))).state := by
    rw [byteIndices, List.length_append]
    refine Flow.andThen_countsOff (r4Nybble_countsOff n _ s) fun u hu => ?_
    obtain ⟨hprogress, hparams⟩ := r4Nybble_eq_go hu
    have hhigh := r4Nybble_countsOff n (highNybble b) u
    rwa [hprogress, hparams] at hhigh
  refine Flow.andThen_countsOff (l := 0) hboth fun u _ => ?_
  split_ifs <;> exact ⟨le_rfl, le_rfl⟩

/-- Settles O42: 16 groups of four pixels at most. -/
theorem r4DataByteEmitsAtMostSixtyFourPixels : Obligations.R4DataByteEmitsAtMostSixtyFourPixels := by
  unfold Obligations.R4DataByteEmitsAtMostSixtyFourPixels
  intro n b s t hrows h
  rw [exec_r4DataInstr] at h
  cases h
  obtain ⟨hle, hge⟩ := r4Byte_countsOff n b s
  rw [hrows] at hge
  exact ⟨hle, hge.trans (Nat.add_le_add_left (byteIndices_length_le_sixtyFour n _ b) _)⟩

end Sys2Proof.Machine
end

section
/-! ### An R4 data byte that goes through, and one that stops (R158, R177, R223, R227) -/

namespace Sys2Proof.Machine

open Sys2Proof.Safety

/-- Settles O39: `r4Byte_ok`, byte by byte for each codec. -/
theorem r4DataByteEmitsItsPixels : Obligations.R4DataByteEmitsItsPixels := by
  unfold Obligations.R4DataByteEmitsItsPixels
  intro n b s cs hc he
  rw [exec_r4DataInstr, r4Byte_ok hc he]
  rfl

theorem emitIndices_ok {is : List Nybble} {s : State} {cs : List Colour} (hc : lutColours s is = some cs)
    (he : canEmitPixels cs s) : emitIndices is s = .go (emittedPixels cs s) := by
  induction is generalizing s cs with
  | nil =>
    obtain rfl : [] = cs := by simpa using hc
    rw [emittedPixels_nil, emitIndices]
  | cons i rest ih =>
    obtain ⟨c, ds, hfirst, hrest, rfl⟩ := lutColours_cons_some.1 hc
    have hall : canEmit s (pixelBytes ([c] ++ ds)) := he.resolve_left (List.cons_ne_nil c ds)
    have hbehind : canEmitPixels ds (emittedPixels [c] s) := by
      rcases eq_or_ne ds [] with hnil | hne
      · exact .inl hnil
      · exact .inr (canEmit_pixels_right hall hne)
    rw [emitIndices, emitPixel_of_colour hfirst, emitTilePixel_ok (canEmit_pixels_left (cs := [c]) hall),
      Flow.andThen_go, ih (by rwa [lutColours_congr (emittedPixels_lut [c] s)]) hbehind, emittedPixels_append hall]
    rfl

theorem r4Emitted_progress_self (cs : List Colour) (s : State) :
    r4Emitted cs (r4Progress s) s = emittedPixels cs s := by
  rw [r4Emitted, emittedPixels, emitted_frame]
  rfl

/-- A nybble stops where one of its pixels does. -/
theorem r4Nybble_stop {n : Bpp} {v i : Nybble} {s t : State} {before after : List Nybble} {cs : List Colour}
    (hidx : nybbleIndices s.params.rle4 n (r4Progress s) v = before ++ i :: after)
    (hc : lutColours s before = some cs) (he : canEmitPixels cs s)
    (hstop : emitPixel i (emittedPixels cs s) = .stop t) : r4Nybble n v s = .stop t := by
  rw [r4Nybble_eq_emitIndices, hidx, emitIndices_append, emitIndices_ok hc he, Flow.andThen_go, emitIndices, hstop]
  rfl

/-- A byte stops where a pixel of its low nybble does. -/
theorem r4Byte_stop_low {n : Bpp} {b : Byte} {i : Nybble} {s t : State} {before after : List Nybble}
    {cs : List Colour} (hidx : nybbleIndices s.params.rle4 n (r4Progress s) (lowNybble b) = before ++ i :: after)
    (hc : lutColours s before = some cs) (he : canEmitPixels cs s)
    (hstop : emitPixel i (r4Emitted cs (r4Progress s) s) = .stop t) : r4Byte n b s = .stop t := by
  rw [r4Emitted_progress_self] at hstop
  rw [r4Byte, r4Nybble_stop hidx hc he hstop]
  rfl

/-- A byte stops where a pixel of its high nybble does, with the run state the low nybble left. -/
theorem r4Byte_stop_high {n : Bpp} {b : Byte} {i : Nybble} {s t : State} {before after : List Nybble}
    {cs : List Colour} {q : R4Progress} (hq : q = r4Advance s.params.rle4 n (r4Progress s) (lowNybble b))
    (hidx : nybbleIndices s.params.rle4 n q (highNybble b) = before ++ i :: after)
    (hc : lutColours s (nybbleIndices s.params.rle4 n (r4Progress s) (lowNybble b) ++ before) = some cs)
    (he : canEmitPixels cs s) (hstop : emitPixel i (r4Emitted cs q s) = .stop t) : r4Byte n b s = .stop t := by
  obtain ⟨ds, es, hds, hes, rfl⟩ := lutColours_append_some.1 hc
  have hlow : r4Nybble n (lowNybble b) s = .go (r4Emitted ds q s) := hq ▸ r4Nybble_ok hds (canEmitPixels_left he)
  have hprogress : r4Progress (r4Emitted ds q s) = q :=
    r4Progress_r4Emitted (by rw [hq, r4Advance_pix, lutColours_length hds]; rfl)
  have hsplit : emittedPixels es (r4Emitted ds q s) = r4Emitted (ds ++ es) q s := by
    rw [← r4Emitted_append (q := q) he, ← r4Emitted_progress_self, hprogress]
  have hhigh : r4Nybble n (highNybble b) (r4Emitted ds q s) = .stop t :=
    r4Nybble_stop (by rwa [hprogress, r4Emitted_params]) (by rwa [lutColours_congr (r4Emitted_lut ds q s)])
      (canEmitPixels_right he) (by rwa [hsplit])
  rw [r4Byte, hlow, Flow.andThen_go, hhigh]
  rfl

/-- A byte stops where one of its pixels does, with the run state of the nybbles that were done. -/
theorem r4Byte_stop {n : Bpp} {b : Byte} {i : Nybble} {s t : State} {before after : List Nybble} {cs : List Colour}
    (hidx : byteIndices s.params.rle4 n (r4Progress s) b = before ++ i :: after)
    (hc : lutColours s before = some cs) (he : canEmitPixels cs s)
    (hstop : emitPixel i (r4Emitted cs (stoppedRun s.params.rle4 n (r4Progress s) b before.length) s) = .stop t) :
    r4Byte n b s = .stop t := by
  have hhigh {rest : List Nybble} (hbefore : before = nybbleIndices s.params.rle4 n (r4Progress s) (lowNybble b) ++ rest)
      (hrest : nybbleIndices s.params.rle4 n (r4Advance s.params.rle4 n (r4Progress s) (lowNybble b)) (highNybble b) =
        rest ++ i :: after) : r4Byte n b s = .stop t := by
    rw [stoppedRun, if_neg (by rw [hbefore, List.length_append]; omega)] at hstop
    exact r4Byte_stop_high rfl hrest (hbefore ▸ hc) he hstop
  rcases List.append_eq_append_iff.1 hidx with ⟨rest, hbefore, hrest⟩ | ⟨rest, hlow, hrest⟩
  · exact hhigh hbefore hrest
  · cases rest with
    | nil => exact hhigh (rest := []) (by rw [hlow, List.append_nil, List.append_nil]) hrest.symm
    | cons j rest =>
      obtain ⟨rfl, _⟩ := List.cons.inj hrest
      rw [stoppedRun, if_pos (by rw [hlow, List.length_append, List.length_cons]; omega)] at hstop
      exact r4Byte_stop_low hlow hc he hstop

/-- Settles O40: the pixel that reads the Unset entry stops the byte before its first byte. -/
theorem r4DataByteStopsAtAnUnsetEntry : Obligations.R4DataByteStopsAtAnUnsetEntry := by
  unfold Obligations.R4DataByteStopsAtAnUnsetEntry
  rintro n b s before after i cs q hidx hc hunset he rfl
  have hunset' : (lutEntry (r4Emitted cs (stoppedRun s.params.rle4 n (r4Progress s) b before.length) s) i).colour? =
      none := by
    rwa [lutEntry_congr (r4Emitted_lut cs _ s)]
  rw [exec_r4DataInstr, r4Byte_stop hidx hc he (emitPixel_of_unset hunset')]
  rfl

/-! #### A byte of a pixel that cannot be programmed -/

theorem emitTilePixel_stop {c : Colour} {s : State} {k : Nat} {r : StopRecord} (hk : k < 2)
    (h : stopsAt s (colourBytes c) k r) :
    emitTilePixel c s = .stop (r.mark (emitted ((colourBytes c).take k) s)) := by
  rw [emitTilePixel, emitColor_eq_emitBytes, emitBytes_stop hk h]
  rfl

/-- Emission neither reads nor writes the pixel count and the run state. -/
theorem emitted_r4Emitted (bs : List Byte) (cs : List Colour) (q : R4Progress) (s : State) :
    emitted bs (r4Emitted cs q s) =
      { emitted bs (emitted (pixelBytes cs) s) with
        pix := s.pix - cs.length, rleRun := q.run, rlePrev := q.prev } := by
  unfold r4Emitted emittedPixels
  generalize emitted (pixelBytes cs) s = u
  unfold emitted
  split_ifs <;> rfl

/-- Of a list that stops behind `bs`, first `bs` is emitted, and then the rest up to the stop. -/
theorem emitted_take_of_stopsAt {s : State} {bs cs : List Byte} {j : Nat} {r : StopRecord}
    (h : stopsAt s (bs ++ cs) (bs.length + j) r) :
    emitted (cs.take j) (emitted bs s) = emitted ((bs ++ cs).take (bs.length + j)) s := by
  rw [List.take_length_add_append]
  rcases canEmit_take_of_stopsAt h with hzero | htake
  · obtain rfl : bs = [] := List.length_eq_zero_iff.1 (by omega)
    rw [emitted_nil, List.nil_append]
  · rw [List.take_length_add_append] at htake
    exact emitted_append htake

/-- Settles O41: the pixels before are emitted, and the pixel stops at its own byte. -/
theorem r4DataByteStopsAtTheFirstBadByte : Obligations.R4DataByteStopsAtTheFirstBadByte := by
  unfold Obligations.R4DataByteStopsAtTheFirstBadByte
  intro n b s before after i cs k r q hidx hc hk hk' h hq
  obtain ⟨ds, es, hds, hes, rfl⟩ := lutColours_append_some.1 hc
  obtain ⟨c, cs, hcolour, hnil, rfl⟩ := lutColours_cons_some.1 hes
  obtain rfl : [] = cs := by simpa using hnil
  have hlen : (pixelBytes ds).length = 2 * before.length := by rw [pixelBytes_length, lutColours_length hds]
  obtain ⟨j, rfl⟩ : ∃ j, k = (pixelBytes ds).length + j := ⟨k - (pixelBytes ds).length, by omega⟩
  have hj : j < 2 := by omega
  rw [pixelBytes_append] at h ⊢
  obtain ⟨hds', hpixel⟩ := stopsAt_right (cs := pixelBytes [c]) hj h
  have he : canEmitPixels ds s := hds'.imp_left fun hnil => by simpa [hnil] using (pixelBytes_length ds).symm
  have hstop : emitPixel i (r4Emitted ds q s) =
      .stop (r.mark (emitted ((colourBytes c).take j) (r4Emitted ds q s))) := by
    rw [emitPixel_of_colour (c := c) (by rwa [lutEntry_congr (r4Emitted_lut ds q s)])]
    exact emitTilePixel_stop hj hpixel
  subst hq
  rw [exec_r4DataInstr, r4Byte_stop hidx hds he hstop, emitted_r4Emitted, ← emitted_take_of_stopsAt h,
    lutColours_length hds]
  rfl

end Sys2Proof.Machine
end

section
/-! ### A flow stops for good (R221, R222, R223) -/

namespace Sys2Proof.Machine

open Sys2Proof.Safety

/-- A flow from `s` that goes through records nothing, and one that stops leaves a fault or the hang. -/
def Flow.StopsForGood (s : State) (f : Flow) : Prop :=
  match f with
  | .go t => running t = running s
  | .stop t => running t = false

theorem Flow.StopsForGood.andThen {s : State} {f : Flow} {k : State → Flow} (hf : f.StopsForGood s)
    (hk : ∀ u, (k u).StopsForGood u) : (f.andThen k).StopsForGood s := by
  cases f with
  | stop u => exact hf
  | go u =>
    have hu := hk u
    rw [Flow.andThen_go]
    cases hv : k u with
    | go v => rw [hv] at hu; exact Eq.trans hu hf
    | stop v => rw [hv] at hu; exact hu

theorem Flow.StopsForGood.running_eq {s t : State} {f : Flow} (hf : f.StopsForGood s) (h : f = .go t) :
    running t = running s := by
  subst h
  exact hf

theorem emitByte_stopsForGood (v : Byte) (s : State) : (emitByte v s).StopsForGood s := by
  rcases emitByte_cases v s with ⟨_, h⟩ | ⟨_, _, h⟩ | ⟨_, _, h⟩ | ⟨_, _, _, h⟩ <;> rw [h]
  · rfl
  · rfl
  · simp [hang, Flow.StopsForGood, running]
  · rfl

theorem emitBytes_stopsForGood (bs : List Byte) (s : State) : (emitBytes bs s).StopsForGood s := by
  induction bs generalizing s with
  | nil => rfl
  | cons b rest ih => exact (emitByte_stopsForGood b s).andThen ih

theorem emitTilePixel_stopsForGood (c : Colour) (s : State) : (emitTilePixel c s).StopsForGood s :=
  ((emitByte_stopsForGood c.b0 s).andThen (emitByte_stopsForGood c.b1)).andThen fun _ => rfl

theorem p16Loop_stopsForGood (fuel : Nat) (s : State) : (p16Loop fuel s).StopsForGood s := by
  induction fuel generalizing s with
  | zero => rfl
  | succ fuel ih =>
    unfold p16Loop
    split_ifs
    · rfl
    · exact (emitTilePixel_stopsForGood _ s).andThen fun u => ih (useMaskBit u)
    · rfl

theorem p16Literal_stopsForGood (c : Colour) (s : State) : (p16Literal c s).StopsForGood s :=
  (emitTilePixel_stopsForGood c { s with p16Last := .val c, p16HaveLast := true }).andThen
    fun u => p16Loop_stopsForGood _ (useMaskBit u)

/-! #### Feeding on after a byte -/

/-- The bytes left after a flow: they are consumed only where it went through (R228). -/
def Flow.feed (bytes : List Byte) (f : Flow) : Host.Outcome State Fault Refusal :=
  match f with
  | .go s => Machine.feed bytes s
  | .stop s => .next s

theorem feed_of_not_running {s : State} (h : running s = false) (bytes : List Byte) : feed bytes s = .next s := by
  cases bytes with
  | nil => rfl
  | cons b rest =>
    have hstopped : (s.fault.isSome || s.hung) = true := by
      cases hfault : s.fault <;> simp_all [running]
    rw [feed, if_pos hstopped]

/-- A byte whose meaning is a flow, and then the bytes behind it. -/
theorem feed_cons_of_flow {b : Byte} {rest : List Byte} {s : State} {f : Flow} (hr : running s = true)
    (h : stepByte b s = f.outcome) (hf : f.StopsForGood s) : feed (b :: rest) s = f.feed rest := by
  rw [feed_cons_of_running hr h]
  cases f with
  | go t => rfl
  | stop t => exact feed_of_not_running hf rest

/-- The bytes left after two flows, where the second is fed on from every state the first leaves. -/
theorem Flow.feed_andThen {bytes bytes' : List Byte} {f : Flow} {k l : State → Flow}
    (h : ∀ u, f = .go u → (k u).feed bytes = (l u).feed bytes') :
    (f.andThen k).feed bytes = (f.andThen l).feed bytes' := by
  cases f with
  | go u => exact h u rfl
  | stop u => rfl

end Sys2Proof.Machine
end

section
/-! ### TILE_P16's mask and literal bytes (R183, R184, R186, R223, R227) -/

namespace Sys2Proof.Machine

open Sys2Proof.Safety

/-- The last colour is `c` (R184). -/
def HasLast (c : Colour) (s : State) : Prop := s.p16HaveLast = true ∧ s.p16Last = .val c

theorem HasLast.p16LastOf_eq {c : Colour} {s : State} (h : HasLast c s) : p16LastOf s = c := by
  rw [p16LastOf, h.2, Cell.read]

/-- A pixel's count and its mask bit are used up (R174, R184). -/
def p16Used (s : State) : State := useMaskBit { s with pix := s.pix - 1 }

@[simp] theorem p16MaskOf_p16Used (s : State) : p16MaskOf (p16Used s) = p16MaskOf s >>> 1 := rfl
@[simp] theorem p16Used_p16Mask (s : State) : (p16Used s).p16Mask = .val (p16MaskOf s >>> 1) := rfl
@[simp] theorem p16Used_p16Bits (s : State) : (p16Used s).p16Bits = s.p16Bits - 1 := rfl

@[simp] theorem p16MaskOf_emitted (bs : List Byte) (s : State) : p16MaskOf (emitted bs s) = p16MaskOf s := by
  rw [emitted_frame]; rfl
@[simp] theorem emitted_p16Bits (bs : List Byte) (s : State) : (emitted bs s).p16Bits = s.p16Bits := by
  rw [emitted_frame]

theorem HasLast.p16Used_emitted {c : Colour} {s : State} (h : HasLast c s) (bs : List Byte) :
    HasLast c (p16Used (emitted bs s)) := by
  rw [emitted_frame]
  exact h

/-- Emission neither reads nor writes the pixel count and the mask. -/
theorem emitted_p16Used (bs : List Byte) (s : State) : emitted bs (p16Used s) = p16Used (emitted bs s) := by
  unfold emitted
  split_ifs <;> rfl

/-- A pixel that goes through in P16Advance. -/
theorem emitTilePixel_andThen_useMaskBit {c : Colour} {s : State} (h : canEmit s (colourBytes c))
    (k : State → Flow) :
    (emitTilePixel c s).andThen (fun u => k (useMaskBit u)) = k (p16Used (emitted (colourBytes c) s)) := by
  rw [emitTilePixel, emitColor_ok h]
  rfl

/-! #### Mask bits -/

theorem zeroRun_of_set {mask : Byte} (h : mask.getLsbD 0 = true) (bits : Nat) : zeroRun mask bits = 0 := by
  cases bits with
  | zero => rfl
  | succ bits => rw [zeroRun, if_pos h]

theorem zeroRun_of_clear {mask : Byte} (h : mask.getLsbD 0 = false) (bits : Nat) :
    zeroRun mask (bits + 1) = zeroRun (mask >>> 1) bits + 1 := by
  rw [zeroRun, if_neg (ne_true_of_eq_false h)]

theorem p16Loop_of_set {s : State} (h : (p16MaskOf s).getLsbD 0 = true) (fuel : Nat) :
    p16Loop (fuel + 1) s = .go { s with state := .tileP16Low } := by
  rw [p16Loop, if_pos h]

theorem p16Loop_of_no_colour {s : State} (h : (p16MaskOf s).getLsbD 0 = false) (hlast : s.p16HaveLast = false)
    (fuel : Nat) : p16Loop (fuel + 1) s = raise .p16NoColor s := by
  rw [p16Loop, if_neg (ne_true_of_eq_false h), if_neg (ne_true_of_eq_false hlast)]

theorem p16Loop_of_repeat {c : Colour} {s : State} (h : (p16MaskOf s).getLsbD 0 = false) (hlast : HasLast c s)
    (fuel : Nat) :
    p16Loop (fuel + 1) s = (emitTilePixel c s).andThen (fun u => p16Loop fuel (useMaskBit u)) := by
  rw [p16Loop, if_neg (ne_true_of_eq_false h), if_pos hlast.1, hlast.p16LastOf_eq]

/-! #### Emission that goes through -/

theorem p16Settled_p16Used (z bits : Nat) (s : State) :
    p16Settled z bits (p16Used s) = p16Settled (z + 1) (bits + 1) s := by
  have hmask : (if z = 0 then Cell.val (p16MaskOf s >>> 1) else .val (p16MaskOf s >>> 1 >>> z)) =
      Cell.val (p16MaskOf s >>> (z + 1)) := by
    split_ifs with hz
    · rw [hz]
    · rw [← BitVec.shiftRight_add, Nat.add_comm]
  have hpix : (p16Used s).pix - z = s.pix - (z + 1) := by
    change s.pix - 1 - z = _
    omega
  have hbits : bits + 1 - (z + 1) = bits - z := by omega
  simp only [p16Settled, hpix, hbits, p16MaskOf_p16Used, Nat.succ_ne_zero, if_false, Nat.add_right_cancel_iff, ← hmask]
  rfl

/-- Leading 0 bits repeat the last colour, and then a literal is awaited or the mask is spent (R184). -/
theorem p16Loop_ok {fuel z : Nat} {s : State} {c : Colour} (hz : z = zeroRun (p16MaskOf s) fuel)
    (hbits : s.p16Bits = fuel) (hlast : HasLast c s) (he : canEmitPixels (List.replicate z c) s) :
    p16Loop fuel s = .go (p16Settled z fuel (emitted (pixelBytes (List.replicate z c)) s)) := by
  induction fuel generalizing s z with
  | zero =>
    subst hz
    change _ = Flow.go (p16Settled 0 0 (emitted [] s))
    simp [p16Loop, p16Settled, hbits]
  | succ fuel ih =>
    cases hbit : (p16MaskOf s).getLsbD 0 with
    | true =>
      obtain rfl : z = 0 := hz.trans (zeroRun_of_set hbit _)
      rw [p16Loop_of_set hbit, List.replicate_zero, pixelBytes_nil, emitted_nil, p16Settled, if_pos rfl,
        if_neg (Nat.succ_ne_zero fuel).symm, Nat.sub_zero, Nat.sub_zero, ← hbits]
    | false =>
      obtain ⟨z, rfl⟩ : ∃ y, z = y + 1 := ⟨_, hz.trans (zeroRun_of_clear hbit _)⟩
      rw [zeroRun_of_clear hbit, Nat.add_right_cancel_iff] at hz
      have hall : canEmit s (colourBytes c ++ pixelBytes (List.replicate z c)) :=
        he.resolve_left (by simp)
      have hrest : canEmitPixels (List.replicate z c) (p16Used (emitted (colourBytes c) s)) := by
        rcases eq_or_ne (List.replicate z c) [] with hnil | hne
        · exact .inl hnil
        · exact .inr (canEmit_pixels_right (cs := [c]) hall hne)
      rw [p16Loop_of_repeat hbit hlast, emitTilePixel_andThen_useMaskBit (canEmit_left hall),
        ih (by rw [p16MaskOf_p16Used, p16MaskOf_emitted, hz])
          (by rw [p16Used_p16Bits, emitted_p16Bits, hbits, Nat.add_sub_cancel]) (hlast.p16Used_emitted _) hrest,
        emitted_p16Used, emitted_append hall, p16Settled_p16Used]
      rfl

/-- Settles O44: the first mask bit tells a repeat from a literal, and `p16Loop_ok` follows the repeats. -/
theorem p16MaskByteRepeatsThenWaits : Obligations.P16MaskByteRepeatsThenWaits := by
  unfold Obligations.P16MaskByteRepeatsThenWaits
  rintro s b z hz
  refine ⟨fun hpos hnone => ?_, fun hzero => ?_, fun c _ hhave hlast he => ?_⟩
  · have hbit : b.getLsbD 0 = false := by
      by_contra hset
      rw [zeroRun_of_set (eq_true_of_ne_false hset)] at hz
      omega
    rw [exec, execTileP16Mask, p16Advance,
      p16Loop_of_no_colour (s := { s with p16Mask := .val b, p16Bits := 8 }) hbit hnone 7]
    rfl
  · have hbit : b.getLsbD 0 = true := by
      by_contra hclear
      rw [zeroRun_of_clear (eq_false_of_ne_true hclear)] at hz
      omega
    rw [exec, execTileP16Mask, p16Advance, p16Loop_of_set (s := { s with p16Mask := .val b, p16Bits := 8 }) hbit 7]
    rfl
  · rw [exec, execTileP16Mask, p16Advance,
      p16Loop_ok (s := { s with p16Mask := .val b, p16Bits := 8 }) hz rfl ⟨hhave, hlast⟩ (.inr he)]
    rfl

/-- The state in which a literal's own pixel is emitted (R186). -/
def literalTaken (c : Colour) (s : State) : State := { s with p16Last := .val c, p16HaveLast := true }

theorem hasLast_literalTaken (c : Colour) (s : State) : HasLast c (literalTaken c s) := ⟨rfl, rfl⟩

theorem exec_tileP16High {s : State} {b b0 : Byte} (h : s.p16B0 = .val b0) :
    exec (.tileP16High b) s = (p16Literal ⟨b0, b⟩ s).outcome := by
  rw [exec, execTileP16High, h, Cell.read]

theorem p16Literal_eq (c : Colour) (s : State) :
    p16Literal c s = (emitTilePixel c (literalTaken c s)).andThen (fun u => p16Advance (useMaskBit u)) := rfl

theorem p16MaskOf_of_val {s : State} {mask : Byte} (h : s.p16Mask = .val mask) : p16MaskOf s = mask := by
  rw [p16MaskOf, h, Cell.read]

/-- Settles O45: the literal's own pixel uses its mask bit, and `p16Loop_ok` follows the 0 bits behind it. -/
theorem p16LiteralIsEmittedAndRepeated : Obligations.P16LiteralIsEmittedAndRepeated := by
  unfold Obligations.P16LiteralIsEmittedAndRepeated
  rintro s b b0 mask z c hb0 hmask rfl hz he
  have hmask' : p16MaskOf (literalTaken ⟨b0, b⟩ s) = mask := p16MaskOf_of_val hmask
  have hall : canEmit (literalTaken ⟨b0, b⟩ s) (colourBytes ⟨b0, b⟩ ++ pixelBytes (List.replicate z ⟨b0, b⟩)) := he
  have hrest : canEmitPixels (List.replicate z ⟨b0, b⟩)
      (p16Used (emitted (colourBytes ⟨b0, b⟩) (literalTaken ⟨b0, b⟩ s))) := by
    rcases eq_or_ne (List.replicate z (⟨b0, b⟩ : Colour)) [] with hnil | hne
    · exact .inl hnil
    · exact .inr (canEmit_pixels_right (cs := [⟨b0, b⟩]) hall hne)
  have hbits : (p16Used (emitted (colourBytes ⟨b0, b⟩) (literalTaken ⟨b0, b⟩ s))).p16Bits = s.p16Bits - 1 := by
    rw [p16Used_p16Bits, emitted_p16Bits]
    rfl
  rw [exec_tileP16High hb0, p16Literal_eq, emitTilePixel_andThen_useMaskBit (canEmit_left hall), p16Advance, hbits,
    p16Loop_ok (by rw [p16MaskOf_p16Used, p16MaskOf_emitted, hmask', hz]) hbits
      ((hasLast_literalTaken _ s).p16Used_emitted _) hrest,
    emitted_p16Used, emitted_append hall, ← emitted_p16Used, p16Used, useMaskBit]
  simp only [p16MaskOf_of_val (s := { literalTaken ⟨b0, b⟩ s with pix := _ }) hmask]
  rfl

/-! #### Emission that stops -/

/-- One pixel further on, a stop is the stop of the whole. -/
theorem p16Stopped_p16Used {bs cs : List Byte} {j : Nat} {s : State} {r : StopRecord} (hbs : bs.length = 2)
    (h : stopsAt s (bs ++ cs) (bs.length + j) r) (mask : Byte) (bits : Nat) :
    p16Stopped cs j (mask >>> 1) (bits - 1) (p16Used (emitted bs s)) = p16Stopped (bs ++ cs) (bs.length + j) mask bits s := by
  have hhalf : (bs.length + j) / 2 = 1 + j / 2 := by omega
  have hpix : (p16Used (emitted bs s)).pix - j / 2 = s.pix - (1 + j / 2) := by
    change (emitted bs s).pix - 1 - j / 2 = _
    rw [emitted_pix, Nat.sub_sub]
  simp only [p16Stopped, emitted_p16Used, emitted_take_of_stopsAt h, hhalf, hpix, BitVec.shiftRight_add,
    Nat.sub_sub]
  rfl

theorem p16Stopped_of_lt_two {s : State} {mask : Byte} (hmask : s.p16Mask = .val mask) {k : Nat} (hk : k < 2)
    (bs : List Byte) : p16Stopped bs k mask s.p16Bits s = emitted (bs.take k) s := by
  have hhalf : k / 2 = 0 := by omega
  rw [p16Stopped, hhalf, BitVec.ushiftRight_zero, ← hmask, Nat.sub_zero, Nat.sub_zero, emitted_frame]

/-- A pixel in the middle of a mask: it stops within its own two bytes, or goes through and the rest stops. -/
theorem p16Pixel_stop {c : Colour} {cs : List Byte} {k : Nat} {s t : State} {r : StopRecord} {mask : Byte}
    {next : State → Flow} (hmask : s.p16Mask = .val mask) (hk : k < 2 + cs.length)
    (h : stopsAt s (colourBytes c ++ cs) k r)
    (hnext : ∀ j, k = 2 + j → stopsAt (p16Used (emitted (colourBytes c) s)) cs j r →
      next (p16Used (emitted (colourBytes c) s)) =
        .stop (r.mark (p16Stopped cs j (mask >>> 1) (s.p16Bits - 1) (p16Used (emitted (colourBytes c) s)))))
    (ht : t = p16Stopped (colourBytes c ++ cs) k mask s.p16Bits s) :
    (emitTilePixel c s).andThen (fun u => next (useMaskBit u)) = .stop (r.mark t) := by
  rcases Nat.lt_or_ge k 2 with hlt | hge
  · have htake : (colourBytes c ++ cs).take k = (colourBytes c).take k := List.take_append_of_le_length hlt.le
    rw [emitTilePixel_stop hlt (stopsAt_left hlt h), Flow.andThen_stop, ht, p16Stopped_of_lt_two hmask hlt, htake]
  · obtain ⟨j, rfl⟩ := Nat.exists_eq_add_of_le hge
    obtain ⟨hpixel, hrest⟩ := stopsAt_right (bs := colourBytes c) (by omega) h
    have hpixel' : canEmit s (colourBytes c) := hpixel.resolve_left (List.cons_ne_nil _ _)
    rw [emitTilePixel_andThen_useMaskBit hpixel', hnext j rfl hrest, ht, p16Stopped_p16Used rfl h]
    rfl

theorem p16Loop_stop {fuel z k : Nat} {s : State} {c : Colour} {mask : Byte} {r : StopRecord}
    (hz : z = zeroRun mask fuel) (hmask : s.p16Mask = .val mask) (hbits : s.p16Bits = fuel) (hlast : HasLast c s)
    (hk : k < 2 * z) (h : stopsAt s (pixelBytes (List.replicate z c)) k r) :
    p16Loop fuel s = .stop (r.mark (p16Stopped (pixelBytes (List.replicate z c)) k mask fuel s)) := by
  induction fuel generalizing s z k mask with
  | zero =>
    rw [hz, zeroRun] at hk
    omega
  | succ fuel ih =>
    cases hbit : mask.getLsbD 0 with
    | true =>
      rw [hz, zeroRun_of_set hbit] at hk
      omega
    | false =>
      obtain ⟨z, rfl⟩ : ∃ y, z = y + 1 := ⟨_, hz.trans (zeroRun_of_clear hbit _)⟩
      rw [zeroRun_of_clear hbit, Nat.add_right_cancel_iff] at hz
      have hlen : (pixelBytes (List.replicate z c)).length = 2 * z := by rw [pixelBytes_length, List.length_replicate]
      rw [p16Loop_of_repeat (by rwa [p16MaskOf_of_val hmask]) hlast]
      refine p16Pixel_stop (cs := pixelBytes (List.replicate z c)) hmask (by omega) h (fun j hj hrest => ?_) (by rw [hbits]; rfl)
      rw [hbits, Nat.add_sub_cancel]
      refine ih hz ?_ ?_ (hlast.p16Used_emitted _) (by omega) hrest
      · rw [p16Used_p16Mask, p16MaskOf_emitted, p16MaskOf_of_val hmask]
      · rw [p16Used_p16Bits, emitted_p16Bits, hbits, Nat.add_sub_cancel]

theorem exec_tileP16Mask_of_stopsAt {s : State} {b : Byte} {z k : Nat} {c : Colour} {r : StopRecord}
    (hz : z = zeroRun b 8) (hk : k < 2 * z) (hlast : HasLast c s)
    (h : stopsAt s (pixelBytes (List.replicate z c)) k r) :
    exec (.tileP16Mask b) s = .next (r.mark (p16Stopped (pixelBytes (List.replicate z c)) k b 8 s)) := by
  have hframe : p16Stopped (pixelBytes (List.replicate z c)) k b 8 { s with p16Mask := .val b, p16Bits := 8 } =
      p16Stopped (pixelBytes (List.replicate z c)) k b 8 s := by
    unfold p16Stopped emitted
    split_ifs <;> rfl
  rw [exec, execTileP16Mask, p16Advance,
    p16Loop_stop (s := { s with p16Mask := .val b, p16Bits := 8 }) hz rfl rfl hlast hk h, hframe]
  rfl

/-- The literal's own pixel is the first of those its byte emits. -/
theorem p16Literal_stop {s : State} {mask : Byte} {z k : Nat} {c : Colour} {r : StopRecord}
    (hmask : s.p16Mask = .val mask) (hz : z = zeroRun (mask >>> 1) (s.p16Bits - 1)) (hk : k < 2 * (z + 1))
    (h : stopsAt s (pixelBytes (List.replicate (z + 1) c)) k r) :
    p16Literal c s = .stop
      (r.mark (p16Stopped (pixelBytes (List.replicate (z + 1) c)) k mask s.p16Bits (literalTaken c s))) := by
  have hlen : (pixelBytes (List.replicate z c)).length = 2 * z := by rw [pixelBytes_length, List.length_replicate]
  have hmask' : (literalTaken c s).p16Mask = .val mask := hmask
  rw [p16Literal_eq]
  refine p16Pixel_stop (cs := pixelBytes (List.replicate z c)) hmask' (by omega) h (fun j hj hrest => ?_) rfl
  have hbits : (p16Used (emitted (colourBytes c) (literalTaken c s))).p16Bits = s.p16Bits - 1 := by
    rw [p16Used_p16Bits, emitted_p16Bits]
    rfl
  rw [p16Advance, hbits]
  exact p16Loop_stop hz (by rw [p16Used_p16Mask, p16MaskOf_emitted, p16MaskOf_of_val hmask']) hbits
    ((hasLast_literalTaken c s).p16Used_emitted _) (by omega) hrest

/-- Settles O46: a mask byte by `p16Loop_stop`, a literal byte by its own pixel and then the same. -/
theorem p16ByteStopsAtTheFirstBadByte : Obligations.P16ByteStopsAtTheFirstBadByte := by
  unfold Obligations.P16ByteStopsAtTheFirstBadByte
  refine ⟨fun s b z k c r hz hk hhave hlast h => exec_tileP16Mask_of_stopsAt hz hk ⟨hhave, hlast⟩ h, ?_⟩
  rintro s b b0 mask z k c r hb0 hmask rfl hz hk h
  rw [exec_tileP16High hb0, p16Literal_stop hmask hz hk h]
  rfl

end Sys2Proof.Machine
end

section
/-! ### The mask groups of a TILE_P16 (R182 to R187)

The bytes of a mask group, a mask and its literals, are one flow: `p16Group` takes the mask bits one by one, each with
its literal or the last colour. What a whole TILE_P16 does is said of that flow. -/

namespace Sys2Proof.Machine

open Sys2Proof.Safety

/-- The state in which the pixel of a literal is emitted, its two bytes read (R185, R186). -/
def literalRead (c : Colour) (s : State) : State :=
  { s with p16B0 := .val c.b0, p16Last := .val c, p16HaveLast := true, state := .tileP16High }

/-- `bits` mask bits with the literals they ask for (R184 to R186). -/
def p16Group (bits : Nat) (lits : List Colour) (s : State) : Flow :=
  match bits with
  | 0 => .go { s with state := if s.pix = 0 then .opcode else .tileP16Mask }
  | bits + 1 =>
    if (p16MaskOf s).getLsbD 0 then
      match lits with
      | [] => .go { s with state := .tileP16Low }
      | c :: rest => (emitTilePixel c (literalRead c s)).andThen (fun u => p16Group bits rest (useMaskBit u))
    else if s.p16HaveLast then
      (emitTilePixel (p16LastOf s) s).andThen (fun u => p16Group bits lits (useMaskBit u))
    else raise .p16NoColor s

/-- The state after a mask byte (R183). -/
def maskRead (mask : Byte) (s : State) : State := { s with p16Mask := .val mask, p16Bits := 8 }

/-- Mask groups one after another. -/
def p16Groups (groups : List MaskGroup) (s : State) : Flow :=
  match groups with
  | [] => .go s
  | g :: rest => (p16Group 8 g.literals (maskRead g.mask s)).andThen (p16Groups rest)

/-- How many of the next `bits` mask bits ask for a literal. -/
def maskOnes (mask : Byte) (bits : Nat) : Nat := (List.range bits).countP (fun i => mask.getLsbD i)

theorem maskOnes_succ (mask : Byte) (bits : Nat) :
    maskOnes mask (bits + 1) = maskOnes (mask >>> 1) bits + if mask.getLsbD 0 = true then 1 else 0 := by
  have hshift : (fun i => (mask >>> 1).getLsbD i) = (fun i => mask.getLsbD i) ∘ Nat.succ :=
    funext fun i => by rw [BitVec.getLsbD_ushiftRight, Nat.add_comm]; rfl
  rw [maskOnes, maskOnes, hshift, List.range_succ_eq_map, List.countP_cons, List.countP_map]

theorem p16Group_set {s : State} (h : (p16MaskOf s).getLsbD 0 = true) (bits : Nat) (c : Colour) (rest : List Colour) :
    p16Group (bits + 1) (c :: rest) s =
      (emitTilePixel c (literalRead c s)).andThen (fun u => p16Group bits rest (useMaskBit u)) := by
  rw [p16Group, if_pos h]

theorem p16Group_clear {s : State} (h : (p16MaskOf s).getLsbD 0 = false) (hlast : s.p16HaveLast = true) (bits : Nat)
    (lits : List Colour) :
    p16Group (bits + 1) lits s =
      (emitTilePixel (p16LastOf s) s).andThen (fun u => p16Group bits lits (useMaskBit u)) := by
  rw [p16Group.eq_def]
  dsimp only
  rw [if_neg (ne_true_of_eq_false h), if_pos hlast]

theorem p16Group_no_colour {s : State} (h : (p16MaskOf s).getLsbD 0 = false) (hlast : s.p16HaveLast = false)
    (bits : Nat) (lits : List Colour) : p16Group (bits + 1) lits s = raise .p16NoColor s := by
  rw [p16Group.eq_def]
  dsimp only
  rw [if_neg (ne_true_of_eq_false h), if_neg (ne_true_of_eq_false hlast)]

theorem p16Group_stopsForGood (bits : Nat) (lits : List Colour) (s : State) : (p16Group bits lits s).StopsForGood s := by
  induction bits generalizing lits s with
  | zero => rfl
  | succ bits ih =>
    unfold p16Group
    split_ifs
    · cases lits with
      | nil => rfl
      | cons c rest =>
        exact (emitTilePixel_stopsForGood c (literalRead c s)).andThen fun u => ih rest (useMaskBit u)
    · exact (emitTilePixel_stopsForGood _ s).andThen fun u => ih lits (useMaskBit u)
    · rfl

theorem p16Groups_stopsForGood (groups : List MaskGroup) (s : State) : (p16Groups groups s).StopsForGood s := by
  induction groups generalizing s with
  | nil => rfl
  | cons g rest ih => exact (p16Group_stopsForGood 8 _ (maskRead g.mask s)).andThen ih

/-! #### The bytes of a group are that flow -/

theorem p16MaskOf_of_onlyEmits {s t : State} (h : OnlyEmits s t) : p16MaskOf t = p16MaskOf s := by
  rw [h]
  rfl

/-- After a pixel that went through, the loop goes on with one mask bit less. -/
theorem p16_next {c : Colour} {s u : State} {bits : Nat} (hu : emitTilePixel c s = .go u) (hbits : s.p16Bits = bits + 1) :
    running u = running s ∧ (useMaskBit u).p16Bits = bits ∧ p16MaskOf (useMaskBit u) = p16MaskOf s >>> 1 ∧
      (useMaskBit u).pix = s.pix - 1 := by
  have hemits := emitTilePixel_onlyEmits c s
  rw [hu, Flow.state_go] at hemits
  refine ⟨(emitTilePixel_stopsForGood c s).running_eq hu, ?_, ?_, (useMaskBit_pix u).trans (emitTilePixel_eq_go hu)⟩
  · rw [useMaskBit_p16Bits, hemits.p16Bits_eq, hbits, Nat.add_sub_cancel]
  · rw [← p16MaskOf_of_onlyEmits hemits]
    rfl

/-- The two bytes of a literal in TILE_P16_LOW (R185, R186). -/
theorem feed_literal {s : State} (hr : running s = true) (c : Colour) (rest : List Byte) :
    feed (colourBytes c ++ rest) { s with state := .tileP16Low } =
      ((emitTilePixel c (literalRead c s)).andThen (fun u => p16Advance (useMaskBit u))).feed rest := by
  have hlow : stepByte c.b0 { s with state := .tileP16Low } =
      .next { s with p16B0 := .val c.b0, state := .tileP16High } := rfl
  have hhigh : stepByte c.b1 { s with p16B0 := .val c.b0, state := .tileP16High } =
      (p16Literal c { s with p16B0 := .val c.b0, state := .tileP16High }).outcome := rfl
  exact (feed_cons_of_running (by exact hr) hlow).trans
    (feed_cons_of_flow (by exact hr) hhigh (p16Literal_stopsForGood c _))

theorem feed_p16Loop {bits : Nat} {lits : List Colour} {s : State} (hr : running s = true) (hbits : s.p16Bits = bits)
    (hlits : lits.length = maskOnes (p16MaskOf s) bits) (rest : List Byte) :
    (p16Loop bits s).feed (lits.flatMap colourBytes ++ rest) = (p16Group bits lits s).feed rest := by
  induction bits generalizing lits s with
  | zero =>
    obtain rfl : lits = [] := List.length_eq_zero_iff.1 hlits
    rfl
  | succ bits ih =>
    rw [maskOnes_succ] at hlits
    cases hbit : (p16MaskOf s).getLsbD 0 with
    | true =>
      rw [hbit, if_pos rfl] at hlits
      obtain ⟨c, lits, rfl⟩ := List.exists_cons_of_length_eq_add_one hlits
      rw [p16Loop_of_set hbit, p16Group_set hbit, Flow.feed, List.flatMap_cons, List.append_assoc, feed_literal hr]
      refine Flow.feed_andThen fun u hu => ?_
      obtain ⟨hru, hbitsu, hmask, _⟩ := p16_next (s := literalRead c s) hu hbits
      rw [p16Advance, hbitsu]
      exact ih (hru.trans hr) hbitsu (hmask ▸ Nat.succ.inj hlits)
    | false =>
      rw [hbit, if_neg Bool.false_ne_true] at hlits
      cases hlast : s.p16HaveLast with
      | false =>
        rw [p16Loop_of_no_colour hbit hlast, p16Group_no_colour hbit hlast]
        rfl
      | true =>
        rw [p16Loop, if_neg (ne_true_of_eq_false hbit), if_pos hlast, p16Group_clear hbit hlast]
        refine Flow.feed_andThen fun u hu => ?_
        obtain ⟨hru, hbitsu, hmask, _⟩ := p16_next hu hbits
        exact ih (hru.trans hr) hbitsu (hmask ▸ hlits)

/-- A group that goes through has used a pixel for each bit, and awaits a mask or an opcode. -/
theorem p16Group_eq_go {bits : Nat} {lits : List Colour} {s t : State} (h : p16Group bits lits s = .go t)
    (hbits : s.p16Bits = bits) (hlits : lits.length = maskOnes (p16MaskOf s) bits) :
    t.pix = s.pix - bits ∧ t.state = if t.pix = 0 then .opcode else .tileP16Mask := by
  induction bits generalizing lits s with
  | zero => cases h; exact ⟨rfl, rfl⟩
  | succ bits ih =>
    have hnext {c : Colour} {s' : State} {lits' : List Colour} (hs' : s'.p16Bits = bits + 1)
        (hmask : p16MaskOf s' = p16MaskOf s) (hpix : s'.pix = s.pix)
        (hlits' : lits'.length = maskOnes (p16MaskOf s >>> 1) bits)
        (h' : (emitTilePixel c s').andThen (fun u => p16Group bits lits' (useMaskBit u)) = .go t) :
        t.pix = s.pix - (bits + 1) ∧ t.state = if t.pix = 0 then .opcode else .tileP16Mask := by
      obtain ⟨u, hu, ht⟩ := Flow.andThen_eq_go h'
      obtain ⟨_, hbitsu, hmasku, hpixu⟩ := p16_next hu hs'
      obtain ⟨hpixt, hstate⟩ := ih ht hbitsu (by rw [hmasku, hmask, hlits'])
      exact ⟨by rw [hpixt, hpixu, hpix, Nat.sub_sub, Nat.add_comm], hstate⟩
    rw [maskOnes_succ] at hlits
    cases hbit : (p16MaskOf s).getLsbD 0 with
    | true =>
      rw [hbit, if_pos rfl] at hlits
      obtain ⟨c, lits, rfl⟩ := List.exists_cons_of_length_eq_add_one hlits
      rw [p16Group_set hbit] at h
      exact hnext (s' := literalRead c s) hbits rfl rfl (Nat.succ.inj hlits) h
    | false =>
      rw [hbit, if_neg Bool.false_ne_true] at hlits
      cases hlast : s.p16HaveLast with
      | false => rw [p16Group_no_colour hbit hlast] at h; cases h
      | true =>
        rw [p16Group_clear hbit hlast] at h
        exact hnext hbits rfl rfl hlits h

/-- The bytes of mask groups in TILE_P16_MASK, with the pixels left for them (R182, R183). -/
theorem feed_maskGroups {groups : List MaskGroup} {s : State} (hr : running s = true) (hs : s.state = .tileP16Mask)
    (hpix : s.pix = 8 * groups.length) (hlits : ∀ g ∈ groups, LiteralsFillMask g) :
    feed (groups.flatMap maskGroupBytes) s = (p16Groups groups s).outcome := by
  induction groups generalizing s with
  | nil => rfl
  | cons g rest ih =>
    obtain ⟨hg, hrest⟩ := List.forall_mem_cons.1 hlits
    have hstep : stepByte g.mask s = (p16Loop 8 (maskRead g.mask s)).outcome := by
      rw [stepByte, hs]
      rfl
    rw [List.flatMap_cons, maskGroupBytes, List.cons_append,
      feed_cons_of_flow hr hstep (p16Loop_stopsForGood 8 (maskRead g.mask s)),
      feed_p16Loop (bits := 8) (s := maskRead g.mask s) hr rfl hg, p16Groups]
    cases hu : p16Group 8 g.literals (maskRead g.mask s) with
    | stop u => rfl
    | go u =>
      obtain ⟨hpixu, hstateu⟩ := p16Group_eq_go hu rfl hg
      have hpixu : u.pix = 8 * rest.length := by
        rw [hpixu]
        change s.pix - 8 = _
        rw [hpix, List.length_cons]
        omega
      rw [Flow.andThen_go, Flow.feed]
      cases rest with
      | nil => rfl
      | cons g' rest =>
        refine ih (((p16Group_stopsForGood 8 _ _).running_eq hu).trans hr) ?_ hpixu hrest
        rw [hstateu, if_neg (by rw [hpixu, List.length_cons]; omega)]

/-- Mask groups that go through have used eight pixels each. -/
theorem p16Groups_eq_go {groups : List MaskGroup} {s t : State} (h : p16Groups groups s = .go t) (hne : groups ≠ [])
    (hlits : ∀ g ∈ groups, LiteralsFillMask g) :
    t.pix = s.pix - 8 * groups.length ∧ t.state = if t.pix = 0 then .opcode else .tileP16Mask := by
  induction groups generalizing s with
  | nil => exact absurd rfl hne
  | cons g rest ih =>
    obtain ⟨hg, hrest⟩ := List.forall_mem_cons.1 hlits
    obtain ⟨u, hu, ht⟩ := Flow.andThen_eq_go h
    obtain ⟨hpixu, hstateu⟩ := p16Group_eq_go hu rfl hg
    have hpixu : u.pix = s.pix - 8 := hpixu
    cases rest with
    | nil => cases ht; exact ⟨hpixu, hstateu⟩
    | cons g' rest =>
      obtain ⟨hpixt, hstate⟩ := ih ht (List.cons_ne_nil _ _) hrest
      refine ⟨?_, hstate⟩
      rw [hpixt, hpixu, List.length_cons, List.length_cons, List.length_cons]
      omega

end Sys2Proof.Machine
end

section
/-! ### A whole TILE_P16 (R182, R187) -/

namespace Sys2Proof.Machine

open Sys2Proof.Safety

/-- From `s` to `t` the pixels `cs` of a TILE_P16 have been emitted; of the rest only its own registers change. -/
def P16Emits (cs : List Colour) (s t : State) : Prop :=
  t = { emittedPixels cs s with
    state := t.state, p16Mask := t.p16Mask, p16Bits := t.p16Bits, p16B0 := t.p16B0, p16Last := t.p16Last
    p16HaveLast := t.p16HaveLast }

theorem P16Emits.of_nil {s t : State}
    (h : t = { s with
      state := t.state, p16Mask := t.p16Mask, p16Bits := t.p16Bits, p16B0 := t.p16B0, p16Last := t.p16Last
      p16HaveLast := t.p16HaveLast }) : P16Emits [] s t := by
  rw [P16Emits, emittedPixels_nil]
  exact h

theorem P16Emits.trans {cs ds : List Colour} {s t u : State} (h : P16Emits cs s t) (h' : P16Emits ds t u)
    (he : canEmitPixels (cs ++ ds) s) : P16Emits (cs ++ ds) s u := by
  have happend : emittedPixels ds (emittedPixels cs s) = emittedPixels (cs ++ ds) s := by
    rcases he with hnil | he
    · obtain ⟨rfl, rfl⟩ := List.append_eq_nil_iff.1 hnil
      rw [emittedPixels_nil, emittedPixels_nil]
      rfl
    · exact emittedPixels_append he
  unfold P16Emits at *
  rw [← happend, h', h]
  generalize emittedPixels cs s = v
  unfold emittedPixels emitted
  split_ifs <;> rfl

theorem P16Emits.canEmitPixels_right {cs ds : List Colour} {s t : State} (h : P16Emits cs s t)
    (he : canEmitPixels (cs ++ ds) s) : canEmitPixels ds t := by
  rcases eq_or_ne ds [] with hnil | hne
  · exact .inl hnil
  · have hright := canEmit_pixels_right (he.resolve_left (by simp [hne])) hne
    rw [h]
    exact .inr hright

/-- The last colour is `last`, or there is none yet. -/
def LastIs (last : Option Colour) (s : State) : Prop :=
  match last with
  | none => s.p16HaveLast = false
  | some c => HasLast c s

theorem hasLast_emittedPixels {c : Colour} {s : State} (h : HasLast c s) (cs : List Colour) :
    HasLast c (useMaskBit (emittedPixels cs s)) := by
  rw [emittedPixels, emitted_frame]
  exact h

/-- A mask bit gives a pixel of the next literal or of the last colour (R184, R186). -/
theorem maskPixels_succ_cases {mask : Byte} {bits : Nat} {last last' : Option Colour} {lits cs : List Colour}
    (h : maskPixels mask (bits + 1) last lits = some (cs, last')) :
    ∃ c ds lits', cs = c :: ds ∧ maskPixels (mask >>> 1) bits (some c) lits' = some (ds, last') ∧
      (mask.getLsbD 0 = true ∧ lits = c :: lits' ∨ mask.getLsbD 0 = false ∧ last = some c ∧ lits = lits') := by
  rw [maskPixels.eq_def] at h
  dsimp only at h
  cases hbit : mask.getLsbD 0 with
  | true =>
    rw [if_pos hbit] at h
    cases lits with
    | nil => cases h
    | cons c lits =>
      obtain ⟨⟨ds, l⟩, hrest, heq⟩ := Option.map_eq_some_iff.1 h
      cases heq
      exact ⟨c, ds, lits, rfl, hrest, .inl ⟨rfl, rfl⟩⟩
  | false =>
    rw [if_neg (ne_true_of_eq_false hbit)] at h
    cases last with
    | none => cases h
    | some c =>
      obtain ⟨⟨ds, l⟩, hrest, heq⟩ := Option.map_eq_some_iff.1 h
      cases heq
      exact ⟨c, ds, lits, rfl, hrest, .inr ⟨rfl, rfl, rfl⟩⟩

/-- The colours of a mask group are what its flow emits, where the flash takes them. -/
theorem p16Group_ok {bits : Nat} {lits : List Colour} {s : State} {last last' : Option Colour} {cs : List Colour}
    (hlast : LastIs last s) (hpixels : maskPixels (p16MaskOf s) bits last lits = some (cs, last'))
    (he : canEmitPixels cs s) : ∃ t, p16Group bits lits s = .go t ∧ P16Emits cs s t ∧ LastIs last' t := by
  induction bits generalizing lits s last cs with
  | zero =>
    cases hpixels
    exact ⟨_, rfl, .of_nil rfl, hlast⟩
  | succ bits ih =>
    have hnext {c : Colour} {ds lits' : List Colour} {s' : State} (hs' : P16Emits [] s s')
        (hmask : p16MaskOf s' = p16MaskOf s) (hlast' : HasLast c s')
        (hrest : maskPixels (p16MaskOf s >>> 1) bits (some c) lits' = some (ds, last'))
        (he' : canEmitPixels ([c] ++ ds) s) :
        ∃ t, (emitTilePixel c s').andThen (fun u => p16Group bits lits' (useMaskBit u)) = .go t ∧
          P16Emits (c :: ds) s t ∧ LastIs last' t := by
      have hs'he : canEmitPixels ([c] ++ ds) s' := hs'.canEmitPixels_right he'
      have hpixel : P16Emits [c] s (useMaskBit (emittedPixels [c] s')) := hs'.trans rfl (canEmitPixels_left he')
      have hmasku : p16MaskOf (useMaskBit (emittedPixels [c] s')) = p16MaskOf s >>> 1 := by
        rw [← hmask, emittedPixels, emitted_frame]
        rfl
      obtain ⟨t, ht, hemits, hlastt⟩ := ih (last := some c) (hasLast_emittedPixels hlast' [c]) (hmasku ▸ hrest)
        (hpixel.canEmitPixels_right he')
      refine ⟨t, ?_, hpixel.trans hemits he', hlastt⟩
      rw [emitTilePixel_ok (canEmit_pixels_left (cs := [c]) (hs'he.resolve_left (List.cons_ne_nil c ds))),
        Flow.andThen_go, ht]
    obtain ⟨c, ds, lits', rfl, hrest, ⟨hbit, rfl⟩ | ⟨hbit, rfl, rfl⟩⟩ := maskPixels_succ_cases hpixels
    · rw [p16Group_set hbit]
      exact hnext (.of_nil rfl) rfl ⟨rfl, rfl⟩ hrest he
    · rw [p16Group_clear hbit hlast.1, HasLast.p16LastOf_eq hlast]
      exact hnext (.of_nil rfl) rfl hlast hrest he

theorem p16Pixels_cons_eq_some {g : MaskGroup} {rest : List MaskGroup} {last : Option Colour} {cs : List Colour} :
    p16Pixels (g :: rest) last = some cs ↔
      ∃ ds es last', maskPixels g.mask 8 last g.literals = some (ds, last') ∧ p16Pixels rest last' = some es ∧
        cs = ds ++ es := by
  rw [p16Pixels]
  cases hmask : maskPixels g.mask 8 last g.literals with
  | none => simp
  | some r =>
    obtain ⟨ds, last'⟩ := r
    simp [eq_comm]

theorem p16Groups_ok {groups : List MaskGroup} {s : State} {last : Option Colour} {cs : List Colour}
    (hlast : LastIs last s) (hpixels : p16Pixels groups last = some cs) (he : canEmitPixels cs s) :
    ∃ t, p16Groups groups s = .go t ∧ P16Emits cs s t := by
  induction groups generalizing s last cs with
  | nil =>
    cases hpixels
    exact ⟨s, rfl, .of_nil rfl⟩
  | cons g rest ih =>
    obtain ⟨ds, es, last', hmask, hrest, rfl⟩ := p16Pixels_cons_eq_some.1 hpixels
    obtain ⟨u, hu, hemitsu, hlastu⟩ := p16Group_ok (s := maskRead g.mask s) hlast hmask (canEmitPixels_left he)
    have hgroup : P16Emits ds s u := P16Emits.trans (cs := []) (.of_nil rfl) hemitsu (canEmitPixels_left he)
    obtain ⟨t, ht, hemits⟩ := ih hlastu hrest (hgroup.canEmitPixels_right he)
    exact ⟨t, by rw [p16Groups, hu, Flow.andThen_go, ht], hgroup.trans hemits he⟩

/-- A mask has a colour for each of its bits. -/
theorem maskPixels_length {mask : Byte} {bits : Nat} {last last' : Option Colour} {lits cs : List Colour}
    (h : maskPixels mask bits last lits = some (cs, last')) : cs.length = bits := by
  induction bits generalizing mask last lits cs with
  | zero => cases h; rfl
  | succ bits ih =>
    obtain ⟨c, ds, lits', rfl, hrest, _⟩ := maskPixels_succ_cases h
    rw [List.length_cons, ih hrest]

theorem p16Pixels_length {groups : List MaskGroup} {last : Option Colour} {cs : List Colour}
    (h : p16Pixels groups last = some cs) : cs.length = 8 * groups.length := by
  induction groups generalizing last cs with
  | nil => cases h; rfl
  | cons g rest ih =>
    obtain ⟨ds, es, last', hmask, hrest, rfl⟩ := p16Pixels_cons_eq_some.1 h
    rw [List.length_append, maskPixels_length hmask, ih hrest, List.length_cons]
    omega

/-- The state after the opcode byte (R182). -/
def p16Opened (x : BitVec 5) (s : State) : State :=
  { latchOpcode (0b110#3 ++ x) s with
    pix := pixelCountArg x, p16Bits := 0, p16HaveLast := false, state := .tileP16Mask }

theorem stepByte_tileP16 {s : State} (hs : s.state = .opcode) (x : BitVec 5) :
    stepByte (0b110#3 ++ x) s = .next (p16Opened x s) := by
  have hopcode : decodeOpcode (0b110#3 ++ x) = .tileP16 x := decodeOpcode_encode (i := .tileP16 x) rfl rfl
  rw [stepByte, hs, decode, hopcode]
  rfl

theorem pixelCountArg_eq (x : BitVec 5) : pixelCountArg x = 8 * (8 * (x.toNat + 1)) := by
  rw [pixelCountArg, Config.tilePixels]
  omega

theorem feed_tileP16 {s : State} (hs : s.state = .opcode) (hr : running s = true) {x : BitVec 5}
    {groups : List MaskGroup} (hw : (Asm.tileP16 x groups).wellFormed = true) :
    feed (assemble (.tileP16 x groups)) s = (p16Groups groups (p16Opened x s)).outcome := by
  obtain ⟨hlen, hlits⟩ := tileP16_wellFormed_iff.1 hw
  rw [assemble, feed_cons_of_running hr (stepByte_tileP16 hs x)]
  exact feed_maskGroups (s := p16Opened x s) hr rfl (hlen ▸ pixelCountArg_eq x) hlits

/-- A TILE_P16 that goes through has used up its pixels and awaits an opcode. -/
theorem p16Groups_opened_eq_go {s t : State} {x : BitVec 5} {groups : List MaskGroup}
    (hw : (Asm.tileP16 x groups).wellFormed = true) (h : p16Groups groups (p16Opened x s) = .go t) :
    t.pix = 0 ∧ t.state = .opcode := by
  obtain ⟨hlen, hlits⟩ := tileP16_wellFormed_iff.1 hw
  have hne : groups ≠ [] := List.ne_nil_of_length_pos (by omega)
  obtain ⟨hpix, hstate⟩ := p16Groups_eq_go h hne hlits
  have hzero : t.pix = 0 := by
    rw [hpix, hlen]
    exact Nat.sub_eq_zero_of_le (pixelCountArg_eq x).le
  exact ⟨hzero, by rw [hstate, if_pos hzero]⟩

/-- Settles O47: the opcode byte counts the pixels, and its mask groups are one flow, which emits their colours. -/
theorem p16InstructionProgramsItsTiles : Obligations.P16InstructionProgramsItsTiles := by
  unfold Obligations.P16InstructionProgramsItsTiles
  intro s x groups cs hs hr hw hpixels he
  obtain ⟨hlen, _⟩ := tileP16_wellFormed_iff.1 hw
  have hcount : cs.length = 64 * (x.toNat + 1) := by
    rw [p16Pixels_length hpixels, hlen]
    omega
  obtain ⟨t, ht, hemits⟩ := p16Groups_ok (s := p16Opened x s) (last := none) rfl hpixels (.inr he)
  have hrt : running t = true := ((p16Groups_stopsForGood groups _).running_eq ht).trans hr
  obtain ⟨hfault, hhung⟩ := running_iff.1 hrt
  obtain ⟨hpix, hstate⟩ := p16Groups_opened_eq_go hw ht
  refine ⟨hcount, t, by rw [feed_tileP16 hs hr hw, ht, Flow.outcome_go], hstate, hpix, hfault, hhung, ?_, ?_, ?_⟩
  · rw [hemits]
    exact emittedPixels_lut cs _
  · rw [hemits]
    exact emitted_flash _ _
  · rw [hemits]
    refine (emitted_latchAddr (pixelBytes cs) (p16Opened x s)).trans ?_
    rw [pixelBytes_length, hcount, ← Nat.mul_assoc]
    rfl

end Sys2Proof.Machine
end

section
/-! ### A flow that went through, run again over the flash it left (R61, R201, R261)

`ReplaysBy n act s t` says that `act` takes `s` to `t` and emits `n` bytes, and that it does the same over any flash that
already holds these bytes. It holds of emitting one byte, and of two flows one after the other as long as no address comes
twice. -/

namespace Sys2Proof.Machine

open Sys2Proof.Safety

/-- The `n` addresses from `a` on, modulo 2^24 (R53). -/
def Window (a : Addr) (n : Nat) (b : Addr) : Prop := ∃ k < n, b = a + BitVec.ofNat 24 k

theorem Window.left {a b : Addr} {i : Nat} (h : Window a i b) (j : Nat) : Window a (i + j) b := by
  obtain ⟨k, hk, hb⟩ := h
  exact ⟨k, by omega, hb⟩

theorem Window.right {a b : Addr} {i j : Nat} (h : Window (a + BitVec.ofNat 24 i) j b) : Window a (i + j) b := by
  obtain ⟨k, hk, hb⟩ := h
  exact ⟨i + k, by omega, by rw [hb, BitVec.add_assoc, ← BitVec.ofNat_add]⟩

/-- Up to 2^24 bytes no address comes twice. -/
theorem Window.not_right {a b : Addr} {i j : Nat} (h : Window a i b) (hle : i + j ≤ 2 ^ 24) :
    ¬ Window (a + BitVec.ofNat 24 i) j b := by
  rintro ⟨l, hl, hb⟩
  obtain ⟨k, hk, rfl⟩ := h
  rw [BitVec.add_assoc, ← BitVec.ofNat_add, BitVec.add_right_inj] at hb
  have hmod := congrArg BitVec.toNat hb
  rw [BitVec.toNat_ofNat, BitVec.toNat_ofNat] at hmod
  omega

/-- From `s`, `act` goes through to `t` and emits `n` bytes; over any flash that holds them it does the same, and leaves
that flash as it is. -/
structure ReplaysBy (n : Nat) (act : State → Flow) (s t : State) : Prop where
  latchAddr_eq : latchAddr t = latchAddr s + BitVec.ofNat 24 n
  wf : Memory.wf s.flash = true → Memory.wf t.flash = true
  read_eq : ∀ a, ¬ Window (latchAddr s) n a → Memory.read t.flash a.toNat = Memory.read s.flash a.toNat
  again : ∀ m, Memory.wf m = true →
    (∀ a, Window (latchAddr s) n a → Memory.read m a.toNat = Memory.read t.flash a.toNat) →
    act (setFlash m s) = .go (setFlash m t)

/-- Where `act` goes through from `s` it replays, with at most `n` bytes emitted. -/
def ReplaysAt (n : Nat) (act : State → Flow) (s : State) : Prop :=
  ∀ t, act s = .go t → ∃ j ≤ n, ReplaysBy j act s t

theorem ReplaysAt.mono {n m : Nat} {act : State → Flow} {s : State} (h : ReplaysAt n act s) (hle : n ≤ m) :
    ReplaysAt m act s := by
  intro t ht
  obtain ⟨j, hj, hreplays⟩ := h t ht
  exact ⟨j, hj.trans hle, hreplays⟩

/-- Two flows that are equal from `s` over every flash replay alike. -/
theorem ReplaysAt.congr {n : Nat} {act act' : State → Flow} {s : State} (h : ReplaysAt n act' s)
    (heq : ∀ m, act (setFlash m s) = act' (setFlash m s)) : ReplaysAt n act s := by
  intro t ht
  obtain ⟨j, hj, haddr, hwf, hread, hagain⟩ := h t ((heq s.flash).symm.trans ht)
  exact ⟨j, hj, haddr, hwf, hread, fun m hm hheld => (heq m).trans (hagain m hm hheld)⟩

/-- Where a flow does not go through there is nothing to replay. -/
theorem ReplaysAt.of_stop {n : Nat} {act : State → Flow} {s t : State} (h : act s = .stop t) : ReplaysAt n act s := by
  intro u hu
  cases h.symm.trans hu

/-- A change of registers alone, which flash and its address have no part in. -/
theorem ReplaysAt.go {g : State → State} {s : State} (hflash : ∀ m, g (setFlash m s) = setFlash m (g s))
    (haddr : latchAddr (g s) = latchAddr s) : ReplaysAt 0 (fun u => .go (g u)) s := by
  intro t ht
  cases ht
  have hsame : g s = setFlash s.flash (g s) := hflash s.flash
  have hkept : (g s).flash = s.flash := by
    rw [hsame]
    rfl
  exact ⟨0, le_rfl, by rw [haddr]; exact (BitVec.add_zero _).symm, fun h => hkept ▸ h, fun _ _ => by rw [hkept],
    fun m _ _ => congrArg Flow.go (hflash m)⟩

theorem ReplaysBy.andThen {i j : Nat} {f k : State → Flow} {s u t : State} (hf : ReplaysBy i f s u)
    (hk : ReplaysBy j k u t) (hle : i + j ≤ 2 ^ 24) : ReplaysBy (i + j) (fun v => (f v).andThen k) s t := by
  have hright {a : Addr} (ha : Window (latchAddr u) j a) : Window (latchAddr s) (i + j) a :=
    Window.right (hf.latchAddr_eq ▸ ha)
  have hleft {a : Addr} (ha : Window (latchAddr s) i a) : Memory.read t.flash a.toNat = Memory.read u.flash a.toNat :=
    hk.read_eq a (hf.latchAddr_eq ▸ ha.not_right hle)
  refine ⟨?_, hk.wf ∘ hf.wf, fun a ha => ?_, fun m hm hheld => ?_⟩
  · rw [hk.latchAddr_eq, hf.latchAddr_eq, BitVec.add_assoc, ← BitVec.ofNat_add]
  · rw [hk.read_eq a fun hin => ha (hright hin), hf.read_eq a fun hin => ha (hin.left j)]
  · have hfirst := hf.again m hm fun a ha => (hheld a (ha.left j)).trans (hleft ha)
    have hsecond := hk.again m hm fun a ha => hheld a (hright ha)
    exact (congrArg (·.andThen k) hfirst).trans hsecond

theorem ReplaysAt.andThen {n m : Nat} {f k : State → Flow} {s : State} (hf : ReplaysAt n f s)
    (hk : ∀ u, f s = .go u → ReplaysAt m k u) (hle : n + m ≤ 2 ^ 24) :
    ReplaysAt (n + m) (fun v => (f v).andThen k) s := by
  intro t ht
  obtain ⟨u, hu, ht⟩ := Flow.andThen_eq_go ht
  obtain ⟨i, hi, hfirst⟩ := hf u hu
  obtain ⟨j, hj, hsecond⟩ := hk u hu t ht
  exact ⟨i + j, by omega, hfirst.andThen hsecond (by omega)⟩

/-- A change of registers in front. -/
theorem ReplaysAt.comp {n : Nat} {g : State → State} {k : State → Flow} {s : State} (hk : ReplaysAt n k (g s))
    (hn : n ≤ 2 ^ 24) (hflash : ∀ m, g (setFlash m s) = setFlash m (g s)) (haddr : latchAddr (g s) = latchAddr s) :
    ReplaysAt n (fun u => k (g u)) s := by
  have hboth := ReplaysAt.andThen (k := k) (m := n) (ReplaysAt.go hflash haddr)
    (fun u hu => Flow.go.inj hu ▸ hk) (by omega)
  rwa [Nat.zero_add] at hboth

/-- The replay itself. -/
theorem ReplaysAt.again {n : Nat} {act : State → Flow} {s t : State} (h : ReplaysAt n act s)
    (hwf : Memory.wf s.flash = true) (ht : act s = .go t) : act (setFlash t.flash s) = .go t := by
  obtain ⟨j, _, hreplays⟩ := h t ht
  exact hreplays.again t.flash (hreplays.wf hwf) fun _ _ => rfl

/-! #### Emission replays -/

/-- Over a flash that holds the byte already, its program changes nothing. -/
theorem emitByte_of_held {v : Byte} {s : State} (hvalid : s.addrValid = true)
    (hin : (latchAddr s).toNat < s.params.flashBytes) (hwf : Memory.wf s.flash = true)
    (hheld : Memory.read s.flash (latchAddr s).toNat = v) :
    emitByte v s = .go (setAddr (latchAddr s + 1) s) := by
  have hsame : Memory.write s.flash (latchAddr s).toNat v = s.flash := hheld ▸ Memory.write_read_self hwf _
  rw [emitByte_of_addrValid hvalid, flashProgram_of_noZeroToOne hin (by rw [hheld, and_not_self_eq_zero]),
    Flow.andThen_go, hsame, advanceAddr_of_addrValid hvalid]

theorem emitByte_replays (v : Byte) (s : State) : ReplaysAt 1 (emitByte v) s := by
  rcases emitByte_cases v s with ⟨_, h⟩ | ⟨_, _, h⟩ | ⟨_, _, h⟩ | ⟨hvalid, hin, _, h⟩
  · exact .of_stop h
  · exact .of_stop h
  · exact .of_stop h
  · intro t ht
    cases h.symm.trans ht
    have hself : Window (latchAddr s) 1 (latchAddr s) := ⟨0, Nat.one_pos, (BitVec.add_zero _).symm⟩
    refine ⟨1, le_rfl, latchAddr_setAddr _ _, fun hwf => Memory.wf_write hwf _ v, fun a ha => ?_,
      fun m hm hheld => ?_⟩
    · have hne : a.toNat ≠ (latchAddr s).toNat := fun heq => ha (BitVec.eq_of_toNat_eq heq ▸ hself)
      rw [setAddr_flash, Memory.read_write, if_neg hne]
    · have hv := hheld _ hself
      rw [setAddr_flash, Memory.read_write, if_pos rfl] at hv
      exact emitByte_of_held (s := setFlash m s) hvalid hin hm hv

theorem emitBytes_replays {bs : List Byte} (hle : bs.length ≤ 2 ^ 24) (s : State) :
    ReplaysAt bs.length (emitBytes bs) s := by
  induction bs generalizing s with
  | nil => exact .go (g := id) (fun _ => rfl) rfl
  | cons b rest ih =>
    rw [List.length_cons] at hle
    rw [List.length_cons, Nat.add_comm]
    exact (emitByte_replays b s).andThen (fun u _ => ih (by omega) u) (by omega)

theorem emitTilePixel_replays (c : Colour) (s : State) : ReplaysAt 2 (emitTilePixel c) s := by
  have hbytes : ReplaysAt 2 (emitColor c) s :=
    (emitBytes_replays (bs := colourBytes c) (Nat.le_of_ble_eq_true rfl) s).congr fun m => emitColor_eq_emitBytes c (setFlash m s)
  exact hbytes.andThen (m := 0) (fun u _ => .go (fun _ => rfl) rfl) (by decide)

theorem emitPixel_replays (i : Nybble) (s : State) : ReplaysAt 2 (emitPixel i) s := by
  cases hc : (lutEntry s i).colour? with
  | none => exact .of_stop (emitPixel_of_unset hc)
  | some c => exact (emitTilePixel_replays c s).congr fun m => emitPixel_of_colour (s := setFlash m s) hc

theorem emitIndices_replays {is : List Nybble} (hle : 2 * is.length ≤ 2 ^ 24) (s : State) :
    ReplaysAt (2 * is.length) (emitIndices is) s := by
  induction is generalizing s with
  | nil => exact .go (g := id) (fun _ => rfl) rfl
  | cons i rest ih =>
    rw [List.length_cons] at hle
    rw [List.length_cons, Nat.mul_add_one, Nat.add_comm]
    exact (emitPixel_replays i s).andThen (fun u _ => ih (by omega) u) (by omega)

end Sys2Proof.Machine
end

section
/-! ### The replay of an instruction (R61, R261) -/

namespace Sys2Proof.Machine

open Sys2Proof.Safety

theorem Flow.feed_nil (f : Flow) : f.feed [] = f.outcome := by cases f <;> rfl

theorem Flow.StopsForGood.eq_go_of_outcome {s t : State} {f : Flow} (hf : f.StopsForGood s) (h : f.outcome = .next t)
    (hr : running t = true) : f = .go t := by
  cases f with
  | go u => cases h; rfl
  | stop u => cases h; exact absurd hr (ne_true_of_eq_false hf)

/-- Feeding goes on where it ended. -/
theorem feed_append {bs cs : List Byte} {s u : State} (h : feed bs s = .next u) : feed (bs ++ cs) s = feed cs u := by
  induction bs generalizing s with
  | nil => cases h; rfl
  | cons b rest ih =>
    rw [feed] at h
    rw [List.cons_append, feed]
    split_ifs at h ⊢ with hstopped
    · cases h
      cases cs with
      | nil => rfl
      | cons c cs => rw [feed, if_pos hstopped]
    · cases hstep : stepByte b s with
      | next v => rw [hstep] at h; exact ih h
      | fault r => rw [hstep] at h; cases h
      | refused r => rw [hstep] at h; cases h

/-- Behind an ADDRESS of `l1` and `l2` the bytes of `a` end in OPCODE, and behind the same ADDRESS again they run to the
same state again. -/
def ReplaysSafely (l1 l2 : Byte) (a : Asm) (s : State) : Prop :=
  ∀ t, feed (assemble a) (addressLoaded l1 l2 s) = .next t → running t = true →
    t.state = .opcode ∧ feed (assemble a) (addressLoaded l1 l2 t) = .next t

/-- An instruction whose bytes are the flow `act`. -/
theorem ReplaysSafely.of_flow {act : State → Flow} {l1 l2 : Byte} {a : Asm} {s : State} (hr : running s = true)
    (hfeed : ∀ u, u.state = .opcode → running u = true → u.params = s.params → feed (assemble a) u = (act u).outcome)
    (hstop : ∀ u, (act u).StopsForGood u)
    (hgo : ∀ t, act (addressLoaded l1 l2 s) = .go t → t.fault = s.fault → t.hung = s.hung →
      t.state = .opcode ∧ t.params = s.params ∧ act (addressLoaded l1 l2 t) = .go t) : ReplaysSafely l1 l2 a s := by
  intro t ht hrt
  rw [hfeed (addressLoaded l1 l2 s) rfl hr rfl] at ht
  obtain ⟨hfault, hhung⟩ := running_iff.1 hr
  obtain ⟨hfault', hhung'⟩ := running_iff.1 hrt
  obtain ⟨hstate, hparams, hact⟩ := hgo t ((hstop _).eq_go_of_outcome ht hrt) (hfault'.trans hfault.symm)
    (hhung'.trans hhung.symm)
  exact ⟨hstate, by rw [hfeed (addressLoaded l1 l2 t) rfl hrt hparams, hact, Flow.outcome_go]⟩

end Sys2Proof.Machine
end

section
/-! ### The replay of the instructions that emit nothing, and of TILE_P0 -/

namespace Sys2Proof.Machine

open Sys2Proof.Safety

theorem address_replaysSafely (l1 l2 k1 k2 : Byte) {s : State} (hr : running s = true) :
    ReplaysSafely l1 l2 (.address k1 k2) s := by
  refine .of_flow (act := fun u => .go (addressLoaded k1 k2 u)) hr (fun u hu hru _ => feed_address hu hru k1 k2)
    (fun _ => rfl) fun t ht _ _ => ?_
  cases ht
  exact ⟨rfl, rfl, rfl⟩

theorem feed_reserved {b : Byte} (h : isReservedByte b = true) {s : State} (hs : s.state = .opcode)
    (hr : running s = true) : feed (assemble (.reserved b)) s = .next { latchOpcode b s with state := .opcode } := by
  have hstep : stepByte b s = .next { latchOpcode b s with state := .opcode } := by
    rw [stepByte, hs, decode, decodeOpcode_of_isReservedByte h]
    rfl
  exact feed_cons_of_running hr hstep

theorem reserved_replaysSafely (l1 l2 : Byte) {b : Byte} (h : isReservedByte b = true) {s : State}
    (hr : running s = true) : ReplaysSafely l1 l2 (.reserved b) s := by
  refine .of_flow (act := fun u => .go { latchOpcode b u with state := .opcode }) hr
    (fun u hu hru _ => feed_reserved h hu hru) (fun _ => rfl) fun t ht _ _ => ?_
  cases ht
  exact ⟨rfl, rfl, rfl⟩

/-- The state that the bytes of `LUT1 i` with the colour `c` leave (R150 to R152). -/
def lut1Loaded (i : Nybble) (c : Colour) (s : State) : State :=
  { s with
    opcode := .val (0b0000#4 ++ i), lutIndex := .val i.toNat
    lut := s.lut.set i.toNat ⟨.val c.b0, .val c.b1⟩ i.isLt }

theorem lut1_replaysSafely (l1 l2 : Byte) (i : Nybble) (c : Colour) {s : State} (hr : running s = true) :
    ReplaysSafely l1 l2 (.lut1 i c) s := by
  refine .of_flow (act := fun u => .go (lut1Loaded i c u)) hr
    (fun u hu hru _ => lut1InstructionLoadsOneEntry u i c hu hru) (fun _ => rfl) fun t ht _ _ => ?_
  cases ht
  refine ⟨rfl, rfl, ?_⟩
  simp only [lut1Loaded, addressLoaded, Vector.set_set]

/-- The number of set bits below a set bit is the rank of a colour. -/
theorem rank_lt_popcount {vec : BitVec 16} {i : Nybble} (h : vec.getLsbD i.toNat = true) :
    (List.range i.toNat).countP (fun j => vec.getLsbD j) < popcount vec := by
  have hle := (List.range_sublist.2 (Nat.succ_le_of_lt i.isLt)).countP_le (p := fun j => vec.getLsbD j)
  rw [List.range_succ, List.countP_append, List.countP_singleton, if_pos h] at hle
  exact hle

theorem LutEntry.colour?_eq_some {e : LutEntry} {c : Colour} : e.colour? = some c ↔ e = ⟨.val c.b0, .val c.b1⟩ := by
  obtain ⟨_ | b0, _ | b1⟩ := e <;> obtain ⟨c0, c1⟩ := c <;> simp [LutEntry.colour?]

theorem lut_eq_of_lutEntry_eq {s t : State} (h : ∀ i, lutEntry s i = lutEntry t i) : s.lut = t.lut :=
  Vector.ext fun i hi => by simpa [lutEntry, Nat.mod_eq_of_lt hi] using h (BitVec.ofNat 4 i)

/-- A second time the same entries get the colours they hold, and the others stay. -/
theorem lut16_replaysSafely (l1 l2 : Byte) {vec : BitVec 16} {cs : List Colour} (hcs : cs.length = popcount vec)
    {s : State} (hr : running s = true) : ReplaysSafely l1 l2 (.lut16 vec cs) s := by
  intro t ht hrt
  obtain ⟨t', ht', hframe, hentries⟩ := lut16InstructionLoadsTheSetEntries (addressLoaded l1 l2 s) vec cs rfl hr hcs
  cases ht'.symm.trans ht
  obtain ⟨u, hu, hframe', hentries'⟩ := lut16InstructionLoadsTheSetEntries (addressLoaded l1 l2 t) vec cs rfl hrt hcs
  have hlut : u.lut = t.lut := lut_eq_of_lutEntry_eq fun i => by
    have hi := hentries i
    have hi' := hentries' i
    split_ifs at hi hi' with hbit
    · have hcolour := List.getElem?_eq_getElem (l := cs) (hcs ▸ rank_lt_popcount hbit)
      exact (LutEntry.colour?_eq_some.1 (hi'.trans hcolour)).trans
        (LutEntry.colour?_eq_some.1 (hi.trans hcolour)).symm
    · exact hi'
  refine ⟨by rw [hframe]; rfl, hu.trans (congrArg _ ?_)⟩
  rw [hframe', hlut, hframe]
  rfl

theorem stepByte_tileP0 {s : State} (hs : s.state = .opcode) (i : Nybble) :
    stepByte (0b0100#4 ++ i) s = (tileP0Flow (0#1 ++ i) (latchOpcode (0b0100#4 ++ i) s)).outcome := by
  have hbyte : 0b010#3 ++ (0#1 ++ i : BitVec 5) = 0b0100#4 ++ i := (append_index 0b010#3 i).symm
  rw [stepByte, hs, decode, decodeOpcode_tileP0_index, exec, execTileP0, hbyte]

theorem tileP0Flow_stopsForGood (x : BitVec 5) (s : State) : (tileP0Flow x s).StopsForGood s := by
  rcases Nat.lt_or_ge x.toNat 16 with hx | hx
  · cases hc : (lutEntry s (x.extractLsb' 0 4)).colour? with
    | none => rw [tileP0Flow_of_unset hx hc]; rfl
    | some c =>
      rw [tileP0Flow_of_colour hx hc]
      exact (emitBytes_stopsForGood _ s).andThen fun _ => rfl
  · rw [tileP0Flow_of_beyond hx]
    rfl

theorem tileP0Flow_replays (x : BitVec 5) (s : State) : ReplaysAt 128 (tileP0Flow x) s := by
  rcases Nat.lt_or_ge x.toNat 16 with hx | hx
  · cases hc : (lutEntry s (x.extractLsb' 0 4)).colour? with
    | none => exact .of_stop (tileP0Flow_of_unset hx hc)
    | some c =>
      have hlen : (pixelBytes (List.replicate 64 c)).length = 128 := by rw [pixelBytes_length, List.length_replicate]
      have hbytes := emitBytes_replays (bs := pixelBytes (List.replicate 64 c)) (by omega) s
      rw [hlen] at hbytes
      have hend (u : State) : ReplaysAt 0 (fun v => .go { v with state := .opcode }) u := .go (fun _ => rfl) rfl
      exact (hbytes.andThen (fun u _ => hend u) (by omega)).congr fun m =>
        tileP0Flow_of_colour (s := setFlash m s) hx hc
  · exact .of_stop (tileP0Flow_of_beyond hx s)

theorem tileP0Flow_eq_go {x : BitVec 5} {s t : State} (h : tileP0Flow x s = .go t) : t.state = .opcode := by
  rcases Nat.lt_or_ge x.toNat 16 with hx | hx
  · cases hc : (lutEntry s (x.extractLsb' 0 4)).colour? with
    | none => cases (tileP0Flow_of_unset hx hc).symm.trans h
    | some c =>
      rw [tileP0Flow_of_colour hx hc] at h
      obtain ⟨u, _, hu⟩ := Flow.andThen_eq_go h
      cases hu
      rfl
  · cases (tileP0Flow_of_beyond hx s).symm.trans h

theorem tileP0_replaysSafely (l1 l2 : Byte) (i : Nybble) {s : State} (hr : running s = true)
    (hwf : Memory.wf s.flash = true) : ReplaysSafely l1 l2 (.tileP0 i) s := by
  have hreplays : ReplaysAt 128 (fun u => tileP0Flow (0#1 ++ i) (latchOpcode (0b0100#4 ++ i) u)) (addressLoaded l1 l2 s) :=
    .comp (g := latchOpcode (0b0100#4 ++ i)) (tileP0Flow_replays _ _) (by omega) (fun _ => rfl) rfl
  refine .of_flow (act := fun u => tileP0Flow (0#1 ++ i) (latchOpcode (0b0100#4 ++ i) u)) hr (fun u hu hru _ => ?_)
    (fun u => tileP0Flow_stopsForGood _ (latchOpcode _ u)) fun t ht hfault hhung => ?_
  · exact (feed_cons_of_flow hru (stepByte_tileP0 hu i) (tileP0Flow_stopsForGood _ (latchOpcode _ u))).trans (Flow.feed_nil _)
  · have hframe := tileP0Flow_touches (0#1 ++ i) (latchOpcode (0b0100#4 ++ i) (addressLoaded l1 l2 s))
    rw [ht, Flow.state_go] at hframe
    have hstart : latchOpcode (0b0100#4 ++ i) (addressLoaded l1 l2 t) =
        latchOpcode (0b0100#4 ++ i) (setFlash t.flash (addressLoaded l1 l2 s)) := by
      rw [hframe, hfault, hhung]
      rfl
    refine ⟨tileP0Flow_eq_go ht, by rw [hframe]; rfl, ?_⟩
    rw [hstart]
    exact hreplays.again hwf ht

end Sys2Proof.Machine
end

section
/-! ### The replay of an R4 opcode

The data bytes are one flow, `r4Stream`, which emits the indices of the stream. -/

namespace Sys2Proof.Machine

open Sys2Proof.Safety

/-- The data bytes of an R4 opcode, one after another (R177). -/
def r4Stream (n : Bpp) (data : List Byte) (s : State) : Flow :=
  match data with
  | [] => .go s
  | b :: rest => (r4Byte n b s).andThen (r4Stream n rest)

/-- A byte ends the opcode with its last pixel (R177). -/
def byteEnded (s : State) : State := if s.pix = 0 then { s with state := .opcode } else s

theorem r4Byte_eq_byteEnded (n : Bpp) (b : Byte) (s : State) :
    r4Byte n b s = ((r4Nybble n (lowNybble b) s).andThen (r4Nybble n (highNybble b))).andThen
      (fun t => .go (byteEnded t)) := rfl

theorem running_byteEnded (s : State) : running (byteEnded s) = running s := by
  unfold byteEnded
  split_ifs <;> rfl

/-! #### A data byte stops for good -/

theorem emitPixel_stopsForGood (i : Nybble) (s : State) : (emitPixel i s).StopsForGood s := by
  cases hc : (lutEntry s i).colour? with
  | none => rw [emitPixel_of_unset hc]; rfl
  | some c => rw [emitPixel_of_colour hc]; exact emitTilePixel_stopsForGood c s

theorem emitIndices_stopsForGood (is : List Nybble) (s : State) : (emitIndices is s).StopsForGood s := by
  induction is generalizing s with
  | nil => rfl
  | cons i rest ih => exact (emitPixel_stopsForGood i s).andThen ih

theorem r4Nybble_stopsForGood (n : Bpp) (v : Nybble) (s : State) : (r4Nybble n v s).StopsForGood s := by
  rw [r4Nybble_eq_emitIndices]
  exact (emitIndices_stopsForGood _ s).andThen fun _ => rfl

theorem r4Byte_stopsForGood (n : Bpp) (b : Byte) (s : State) : (r4Byte n b s).StopsForGood s :=
  ((r4Nybble_stopsForGood n _ s).andThen (r4Nybble_stopsForGood n _)).andThen running_byteEnded

theorem r4Stream_stopsForGood (n : Bpp) (data : List Byte) (s : State) : (r4Stream n data s).StopsForGood s := by
  induction data generalizing s with
  | nil => rfl
  | cons b rest ih => exact (r4Byte_stopsForGood n b s).andThen ih

/-! #### The data bytes are that flow -/

theorem r4Nybble_state {n : Bpp} {v : Nybble} {s t : State} (h : r4Nybble n v s = .go t) : t.state = s.state := by
  rw [r4Nybble_eq_emitIndices] at h
  obtain ⟨u, hu, ht⟩ := Flow.andThen_eq_go h
  have hemits := emitIndices_onlyEmits (nybbleIndices s.params.rle4 n (r4Progress s) v) s
  rw [hu, Flow.state_go] at hemits
  cases ht
  rw [runLeft, hemits]

/-- A byte that goes through leaves the progress of its two nybbles, in OPCODE if that was the last pixel. -/
theorem r4Byte_eq_go {n : Bpp} {b : Byte} {s t : State} (h : r4Byte n b s = .go t) :
    r4Progress t = byteProgress s.params.rle4 n (r4Progress s) b ∧ t.params = s.params ∧
      t.state = if t.pix = 0 then .opcode else s.state := by
  rw [r4Byte_eq_byteEnded] at h
  obtain ⟨v, hv, ht⟩ := Flow.andThen_eq_go h
  obtain ⟨u, hu, hv⟩ := Flow.andThen_eq_go hv
  obtain ⟨hprogress, hparams⟩ := r4Nybble_eq_go hu
  obtain ⟨hprogress', hparams'⟩ := r4Nybble_eq_go hv
  rw [hprogress, hparams] at hprogress'
  have hstate := (r4Nybble_state hv).trans (r4Nybble_state hu)
  cases ht
  unfold byteEnded
  split_ifs with hpix
  · exact ⟨hprogress', hparams'.trans hparams, rfl⟩
  · exact ⟨hprogress', hparams'.trans hparams, hstate⟩

/-- An opcode of the n bpp codec is in progress, or has ended with its last pixel. -/
def R4InProgress (n : Bpp) (s : State) : Prop := s.state = if s.pix = 0 then .opcode else r4DataState n

theorem R4InProgress.r4Byte {n : Bpp} {b : Byte} {s t : State} (hs : R4InProgress n s) (hpix : 0 < s.pix)
    (h : r4Byte n b s = .go t) : R4InProgress n t := by
  obtain ⟨_, _, hstate⟩ := r4Byte_eq_go h
  unfold R4InProgress at hs
  rw [if_neg hpix.ne'] at hs
  rwa [R4InProgress, ← hs]

theorem feed_r4Stream {n : Bpp} {data : List Byte} {s : State} (hs : R4InProgress n s) (hr : running s = true)
    (hk : r4Count s.params.rle4 n (r4Progress s) data = some data.length) :
    feed data s = (r4Stream n data s).outcome := by
  induction data generalizing s with
  | nil => rfl
  | cons b rest ih =>
    rcases Nat.eq_zero_or_pos s.pix with hpix | hpix
    · have hend := r4Count_of_pix_zero (p := r4Progress s) hpix s.params.rle4 n (b :: rest)
      simp [hend] at hk
    · obtain ⟨j, hrest, hj⟩ := (r4Count_cons_eq_some (p := r4Progress s) hpix).1 hk
      obtain rfl : rest.length = j := Nat.succ.inj hj
      have hread : s.state = r4DataState n := hs.trans (if_neg hpix.ne')
      rw [feed_cons_of_flow hr (stepByte_r4Data hread b) (r4Byte_stopsForGood n b s), r4Stream]
      cases hu : r4Byte n b s with
      | stop u => rfl
      | go u =>
        obtain ⟨hprogress, hparams, _⟩ := r4Byte_eq_go hu
        exact ih (hs.r4Byte hpix hu) (((r4Byte_stopsForGood n b s).running_eq hu).trans hr)
          (by rwa [hprogress, hparams])

/-- Data that go through to the end of their opcode leave OPCODE. -/
theorem r4Stream_eq_go {n : Bpp} {data : List Byte} {s t : State} (hs : R4InProgress n s)
    (hk : r4Count s.params.rle4 n (r4Progress s) data = some data.length) (h : r4Stream n data s = .go t) :
    t.state = .opcode := by
  induction data generalizing s with
  | nil =>
    cases h
    rcases Nat.eq_zero_or_pos t.pix with hpix | hpix
    · exact hs.trans (if_pos hpix)
    · simp [r4Count_nil_of_pix_pos (p := r4Progress t) hpix] at hk
  | cons b rest ih =>
    rcases Nat.eq_zero_or_pos s.pix with hpix | hpix
    · have hend := r4Count_of_pix_zero (p := r4Progress s) hpix s.params.rle4 n (b :: rest)
      simp [hend] at hk
    · obtain ⟨j, hrest, hj⟩ := (r4Count_cons_eq_some (p := r4Progress s) hpix).1 hk
      obtain rfl : rest.length = j := Nat.succ.inj hj
      obtain ⟨u, hu, ht⟩ := Flow.andThen_eq_go h
      obtain ⟨hprogress, hparams, _⟩ := r4Byte_eq_go hu
      exact ih (hs.r4Byte hpix hu) (by rwa [hprogress, hparams]) ht

theorem r4Stream_touches (n : Bpp) (data : List Byte) (s : State) : R4Touches s (r4Stream n data s).state := by
  induction data generalizing s with
  | nil => rfl
  | cons b rest ih => exact Flow.andThen_frame .trans (r4Byte_touches n b s) ih

/-! #### That flow replays -/

theorem r4Nybble_replays {n : Bpp} {v : Nybble} {s : State}
    (hle : 2 * (nybbleIndices s.params.rle4 n (r4Progress s) v).length ≤ 2 ^ 24) :
    ReplaysAt (2 * (nybbleIndices s.params.rle4 n (r4Progress s) v).length) (r4Nybble n v) s :=
  ((emitIndices_replays hle s).andThen (m := 0)
    (fun _ _ => .go (g := runLeft (r4Advance s.params.rle4 n (r4Progress s) v)) (fun _ => rfl) rfl) hle).congr
    fun m => r4Nybble_eq_emitIndices n v (setFlash m s)

theorem byteEnded_replays (s : State) : ReplaysAt 0 (fun u => .go (byteEnded u)) s := by
  refine .go (fun m => ?_) ?_
  · unfold byteEnded
    rw [setFlash_pix]
    split_ifs <;> rfl
  · unfold byteEnded
    split_ifs <;> rfl

theorem r4Byte_replays {n : Bpp} {b : Byte} {s : State}
    (hle : 2 * (byteIndices s.params.rle4 n (r4Progress s) b).length ≤ 2 ^ 24) :
    ReplaysAt (2 * (byteIndices s.params.rle4 n (r4Progress s) b).length) (r4Byte n b) s := by
  rw [byteIndices, List.length_append, Nat.mul_add] at hle ⊢
  refine ReplaysAt.andThen (m := 0) (ReplaysAt.andThen (r4Nybble_replays (by omega)) (fun u hu => ?_) hle)
    (fun u _ => byteEnded_replays u) hle
  obtain ⟨hprogress, hparams⟩ := r4Nybble_eq_go hu
  have hhigh := r4Nybble_replays (n := n) (v := highNybble b) (s := u)
  rw [hprogress, hparams] at hhigh
  exact hhigh (by omega)

theorem r4Stream_replays {n : Bpp} {data : List Byte} {s : State}
    (hle : 2 * (streamIndices s.params.rle4 n (r4Progress s) data).length ≤ 2 ^ 24) :
    ReplaysAt (2 * (streamIndices s.params.rle4 n (r4Progress s) data).length) (r4Stream n data) s := by
  induction data generalizing s with
  | nil => exact .go (g := id) (fun _ => rfl) rfl
  | cons b rest ih =>
    rw [streamIndices, List.length_append, Nat.mul_add] at hle ⊢
    refine ReplaysAt.andThen (r4Byte_replays (by omega)) (fun u hu => ?_) hle
    obtain ⟨hprogress, hparams, _⟩ := r4Byte_eq_go hu
    have hrest := ih (s := u)
    rw [hprogress, hparams] at hrest
    exact hrest (by omega)

theorem tileR4_replaysSafely (l1 l2 : Byte) {n : Bpp} {x : BitVec 5} {data : List Byte} {s : State}
    (hr : running s = true) (hwf : Memory.wf s.flash = true)
    (hk : r4Count s.params.rle4 n (r4Fresh x) data = some data.length) :
    ReplaysSafely l1 l2 (.tileR4 n x data) s := by
  have hpix : (r4Fresh x).pix ≠ 0 := by rw [r4Fresh_pix]; omega
  have hopened (u : State) : R4InProgress n (r4Opened n x u) := (if_neg hpix).symm
  have hlen := streamIndices_length hk
  have hreplays : ReplaysAt (2 * (r4Fresh x).pix) (fun u => r4Stream n data (r4Opened n x u)) (addressLoaded l1 l2 s) := by
    have hx := x.isLt
    have hle : 2 * (r4Fresh x).pix ≤ 2 ^ 24 := by rw [r4Fresh_pix]; omega
    have hstream := r4Stream_replays (n := n) (data := data) (s := r4Opened n x (addressLoaded l1 l2 s))
    rw [r4Progress_r4Opened] at hstream
    refine .comp (g := r4Opened n x) (hlen ▸ hstream (hlen.symm ▸ hle)) hle (fun _ => rfl) rfl
  refine .of_flow (act := fun u => r4Stream n data (r4Opened n x u)) hr (fun u hu hru hparams => ?_)
    (fun u => r4Stream_stopsForGood n data (r4Opened n x u)) fun t ht hfault hhung => ?_
  · have hopcode := feed_cons_of_running (rest := data) hru (stepByte_r4Opcode hu n x)
    exact hopcode.trans (feed_r4Stream (s := r4Opened n x u) (hopened u) hru (hparams.symm ▸ hk))
  · have hframe := r4Stream_touches n data (r4Opened n x (addressLoaded l1 l2 s))
    rw [ht, Flow.state_go] at hframe
    have hstart : r4Opened n x (addressLoaded l1 l2 t) =
        r4Opened n x (setFlash t.flash (addressLoaded l1 l2 s)) := by
      rw [hframe, hfault, hhung]
      rfl
    refine ⟨r4Stream_eq_go (s := r4Opened n x (addressLoaded l1 l2 s)) (hopened _) hk ht, by rw [hframe]; rfl, ?_⟩
    rw [hstart]
    exact hreplays.again hwf ht

end Sys2Proof.Machine
end

section
/-! ### The replay of a TILE_P16 -/

namespace Sys2Proof.Machine

open Sys2Proof.Safety

/-- What the mask groups of a TILE_P16 can touch. -/
def P16GroupsTouch (s t : State) : Prop :=
  t = { s with
    state := t.state, pix := t.pix, p16Mask := t.p16Mask, p16Bits := t.p16Bits, p16B0 := t.p16B0, p16Last := t.p16Last
    p16HaveLast := t.p16HaveLast, flash := t.flash, low := t.low, lat1 := t.lat1, lat2 := t.lat2
    fault := t.fault, hung := t.hung }

theorem P16GroupsTouch.trans {s t u : State} (h : P16GroupsTouch s t) (h' : P16GroupsTouch t u) :
    P16GroupsTouch s u := by
  unfold P16GroupsTouch at *
  rw [h', h]

theorem OnlyEmits.p16GroupsTouch {s t : State} (h : OnlyEmits s t) : P16GroupsTouch s t := by rw [h]; rfl

theorem p16Group_touches (bits : Nat) (lits : List Colour) (s : State) :
    P16GroupsTouch s (p16Group bits lits s).state := by
  induction bits generalizing lits s with
  | zero => rfl
  | succ bits ih =>
    have hnext (c : Colour) (lits' : List Colour) (s' : State) : P16GroupsTouch s'
        ((emitTilePixel c s').andThen (fun u => p16Group bits lits' (useMaskBit u))).state :=
      Flow.andThen_frame .trans (emitTilePixel_onlyEmits c s').p16GroupsTouch
        fun u => P16GroupsTouch.trans (t := useMaskBit u) rfl (ih lits' (useMaskBit u))
    unfold p16Group
    split_ifs
    · cases lits with
      | nil => rfl
      | cons c rest => exact P16GroupsTouch.trans (t := literalRead c s) rfl (hnext c rest _)
    · exact hnext _ lits s
    · rfl

theorem p16Groups_touch (groups : List MaskGroup) (s : State) : P16GroupsTouch s (p16Groups groups s).state := by
  induction groups generalizing s with
  | nil => rfl
  | cons g rest ih =>
    exact P16GroupsTouch.trans (t := maskRead g.mask s) rfl (Flow.andThen_frame .trans (p16Group_touches 8 _ _) ih)

theorem p16Group_replays {bits : Nat} (hle : 2 * bits ≤ 2 ^ 24) (lits : List Colour) (s : State) :
    ReplaysAt (2 * bits) (p16Group bits lits) s := by
  induction bits generalizing lits s with
  | zero =>
    refine .go (g := fun u => { u with state := if u.pix = 0 then .opcode else .tileP16Mask }) (fun _ => rfl) rfl
  | succ bits ih =>
    have hnext (c : Colour) (lits' : List Colour) (s' : State) : ReplaysAt (2 * (bits + 1))
        (fun u => (emitTilePixel c u).andThen (fun u => p16Group bits lits' (useMaskBit u))) s' := by
      rw [Nat.mul_add_one, Nat.add_comm]
      exact (emitTilePixel_replays c s').andThen
        (fun u _ => .comp (g := useMaskBit) (ih (by omega) lits' _) (by omega) (fun _ => rfl) rfl) (by omega)
    cases hbit : (p16MaskOf s).getLsbD 0 with
    | true =>
      cases lits with
      | nil =>
        refine ReplaysAt.mono (.congr (.go (g := fun u => { u with state := .tileP16Low }) (fun _ => rfl) rfl)
          fun m => ?_) (Nat.zero_le _)
        rw [p16Group, p16MaskOf_setFlash, if_pos hbit]
      | cons c rest =>
        exact (ReplaysAt.comp (g := literalRead c) (hnext c rest _) hle (fun _ => rfl) rfl).congr
          fun m => p16Group_set (s := setFlash m s) hbit bits c rest
    | false =>
      cases hlast : s.p16HaveLast with
      | true =>
        exact (hnext (p16LastOf s) lits s).congr fun m => p16Group_clear (s := setFlash m s) hbit hlast bits lits
      | false => exact .of_stop (p16Group_no_colour hbit hlast bits lits)

theorem p16Groups_replays {groups : List MaskGroup} (hle : 16 * groups.length ≤ 2 ^ 24) (s : State) :
    ReplaysAt (16 * groups.length) (p16Groups groups) s := by
  induction groups generalizing s with
  | nil => exact .go (g := id) (fun _ => rfl) rfl
  | cons g rest ih =>
    rw [List.length_cons] at hle
    rw [List.length_cons, Nat.mul_add_one, Nat.add_comm]
    exact (ReplaysAt.comp (g := maskRead g.mask) (p16Group_replays (by omega) g.literals _) (by omega)
      (fun _ => rfl) rfl).andThen (fun u _ => ih (by omega) u) (by omega)

theorem p16Groups_of_literal {g : MaskGroup} {c : Colour} {lits : List Colour} (hlits : g.literals = c :: lits)
    (hbit : g.mask.getLsbD 0 = true) (rest : List MaskGroup) (s : State) :
    p16Groups (g :: rest) s =
      ((emitTilePixel c (literalRead c (maskRead g.mask s))).andThen
        (fun u => p16Group 7 lits (useMaskBit u))).andThen (p16Groups rest) := by
  rw [p16Groups, hlits, p16Group_set (s := maskRead g.mask s) hbit]

/-- Where there is no last colour yet, mask groups that go through begin with a literal (R184). -/
theorem literal_first_of_go {groups : List MaskGroup} {s t : State} (hne : groups ≠ [])
    (hlits : ∀ g ∈ groups, LiteralsFillMask g) (hlast : s.p16HaveLast = false) (h : p16Groups groups s = .go t) :
    ∃ g rest c lits, groups = g :: rest ∧ g.literals = c :: lits ∧ g.mask.getLsbD 0 = true := by
  cases groups with
  | nil => exact absurd rfl hne
  | cons g rest =>
    have hcount : g.literals.length = maskOnes g.mask 8 := hlits g List.mem_cons_self
    rw [maskOnes_succ] at hcount
    obtain ⟨u, hu, _⟩ := Flow.andThen_eq_go h
    cases hbit : g.mask.getLsbD 0 with
    | false => cases (p16Group_no_colour (s := maskRead g.mask s) hbit hlast 7 g.literals).symm.trans hu
    | true =>
      rw [hbit, if_pos rfl] at hcount
      obtain ⟨c, lits, hcons⟩ := List.exists_cons_of_length_eq_add_one hcount
      exact ⟨g, rest, c, lits, rfl, hcons, hbit⟩

theorem tileP16_replaysSafely (l1 l2 : Byte) {x : BitVec 5} {groups : List MaskGroup} {s : State}
    (hr : running s = true) (hwf : Memory.wf s.flash = true) (hw : (Asm.tileP16 x groups).wellFormed = true) :
    ReplaysSafely l1 l2 (.tileP16 x groups) s := by
  obtain ⟨hlen, hlits⟩ := tileP16_wellFormed_iff.1 hw
  have hx := x.isLt
  have hreplays : ReplaysAt (16 * groups.length) (fun u => p16Groups groups (p16Opened x u)) (addressLoaded l1 l2 s) :=
    .comp (g := p16Opened x) (p16Groups_replays (by omega) _) (by omega) (fun _ => rfl) rfl
  refine .of_flow (act := fun u => p16Groups groups (p16Opened x u)) hr (fun u hu hru _ => feed_tileP16 hu hru hw)
    (fun u => p16Groups_stopsForGood groups (p16Opened x u)) fun t ht hfault hhung => ?_
  have hframe := p16Groups_touch groups (p16Opened x (addressLoaded l1 l2 s))
  rw [ht, Flow.state_go] at hframe
  obtain ⟨g, rest, c, lits, rfl, hcons, hbit⟩ :=
    literal_first_of_go (List.ne_nil_of_length_pos (by omega)) hlits rfl ht
  -- The first literal overwrites all that the first run left in the registers of TILE_P16.
  have hstart : literalRead c (maskRead g.mask (p16Opened x (addressLoaded l1 l2 t))) =
      literalRead c (maskRead g.mask (p16Opened x (setFlash t.flash (addressLoaded l1 l2 s)))) := by
    rw [hframe, hfault, hhung]
    rfl
  refine ⟨(p16Groups_opened_eq_go hw ht).2, by rw [hframe]; rfl, ?_⟩
  rw [p16Groups_of_literal hcons hbit, hstart, ← p16Groups_of_literal hcons hbit]
  exact hreplays.again hwf ht

end Sys2Proof.Machine
end

section
/-! ### Replay safety (R61, R261) -/

namespace Sys2Proof.Machine

open Sys2Proof.Safety

theorem replaysSafely_of_replayable (l1 l2 : Byte) {a : Asm} {s : State} (hr : running s = true)
    (hwf : Memory.wf s.flash = true) (ha : replayable a = true) (hc : asmComplete s.params.rle4 a = true) :
    ReplaysSafely l1 l2 a s := by
  obtain ⟨hw, hdata⟩ := asmComplete_iff.1 hc
  cases a with
  | lut1 i c => exact lut1_replaysSafely l1 l2 i c hr
  | lut16 vec cs => exact lut16_replaysSafely l1 l2 (lut16_wellFormed_iff.1 hw) hr
  | tileP0 i => exact tileP0_replaysSafely l1 l2 i hr hwf
  | tileR4 n x data => exact tileR4_replaysSafely l1 l2 hr hwf (hdata n x data rfl)
  | tileP16 x groups => exact tileP16_replaysSafely l1 l2 hr hwf hw
  | address k1 k2 => exact address_replaysSafely l1 l2 k1 k2 hr
  | reserved b => exact reserved_replaysSafely l1 l2 hw hr
  | erase _ _ | bytes _ => cases ha

/-- Settles O33: the ADDRESS makes the two starts alike, and behind it every whole instruction replays. -/
theorem replayingAnInstructionIsSafe : Obligations.ReplayingAnInstructionIsSafe := by
  unfold Obligations.ReplayingAnInstructionIsSafe
  intro s t l1 l2 a hs hr hwf ha hc h hrt
  rw [feed_append (feed_address hs hr l1 l2)] at h
  obtain ⟨hstate, hagain⟩ := replaysSafely_of_replayable l1 l2 hr hwf ha hc t h hrt
  rw [feed_append (feed_address hstate hrt l1 l2), hagain]

end Sys2Proof.Machine
end
